-- ==== Sys2Proof/Word.lean ====
section
/-!
DEFINITION. The machine's words: bytes of the data space, words of the program space, register
numbers, bit numbers, and the identity of a callback of the environment.
-/

namespace Sys2Proof

/-- One byte of the data space, one general register, one mask (spec R10, R40). -/
abbrev Byte := BitVec 8

/-- One word of program memory; also a 16-bit register pair and the stack pointer
(spec R12, R16, R21). -/
abbrev Word := BitVec 16

/-- The number of a general register, R0 to R31 (spec R10). -/
abbrev Reg := Fin 32

/-- The number of a bit of a byte: the operand `b`, and the operand `s` that names a bit of SREG
(spec R75). -/
abbrev BitNo := Fin 8

/-- The identity of a hook or of a clock-event callback: a token with equality, nothing more
(spec R25, R27, R330). -/
abbrev Handle := Nat

/-- `lowByte w` is bits 7..0. -/
def lowByte (w : Word) : Byte := w.extractLsb' 0 8

/-- `highByte w` is bits 15..8. -/
def highByte (w : Word) : Byte := w.extractLsb' 8 8

end Sys2Proof
end

