-- ==== Sys2Proof/Config.lean ====
section
/-!
DEFINITION. What one core fixes when it is constructed (spec `00_scope.md` R3), and what follows
from it. The parameters travel in the state as plain data, so that a claim covers every core. The
tables of this core and the standard parameters are in `Machine/Cost.lean`.
-/

namespace Sys2Proof

/-! ## `COST` (spec R372) -/

/-- Cycles of a call or return: with return addresses of 2 bytes, and of 3 bytes (`PC22`). -/
structure CallCost where
  pc16 : Nat
  pc22 : Nat
  deriving DecidableEq, Repr

/-- Cycles of a conditional branch. -/
structure BranchCost where
  notTaken : Nat
  taken : Nat
  deriving DecidableEq, Repr

/-- Cycles of a skip, by what is skipped. -/
structure SkipCost where
  noSkip : Nat
  oneWord : Nat
  twoWords : Nat
  deriving DecidableEq, Repr

/-- Rows of `40_arithmetic.md`. -/
structure ArithmeticCost where
  (add adc sub subi sbc sbci cp cpc cpi neg inc dec : Nat := 1)
  (adiw sbiw : Nat := 2)
  deriving DecidableEq, Repr

/-- Rows of `41_logic_shift.md`. -/
structure LogicCost where
  (and andi or ori eor com lsr ror asr swap : Nat := 1)
  deriving DecidableEq, Repr

/-- Rows of `42_multiply.md` and `43_bit.md`. -/
structure MultiplyBitCost where
  (mul muls mulsu fmul fmuls fmulsu : Nat := 2)
  (bset bclr bst bld : Nat := 1)
  (sbi cbi : Nat := 2)
  deriving DecidableEq, Repr

/-- Rows of `44_data_transfer.md` but the indirect ones. -/
structure MoveCost where
  (mov movw ldi inp out : Nat := 1)
  (push pop lds sts xch las lac lat : Nat := 2)
  deriving DecidableEq, Repr

/-- The indirect loads and stores. -/
structure IndirectCost where
  (ldX ldXInc ldXDec ldYInc ldYDec lddY ldZInc ldZDec lddZ : Nat := 2)
  (stX stXInc stXDec stYInc stYDec stdY stZInc stZDec stdZ : Nat := 2)
  deriving DecidableEq, Repr

/-- Rows of `45_program_memory.md` and `47_system.md`, and the unmatched opcodes. -/
structure ProgramSystemCost where
  (lpmR0 lpmZ lpmZInc elpmR0 elpmZ elpmZInc : Nat := 3)
  (spm spmZInc nop sleep wdr brk unmatched : Nat := 1)
  deriving DecidableEq, Repr

/-- Rows of `46_control_transfer.md`. -/
structure ControlCost where
  (rjmp ijmp eijmp : Nat := 2)
  (jmp : Nat := 3)
  (rcall icall eicall : CallCost := ⟨3, 4⟩)
  (call ret reti : CallCost := ⟨4, 5⟩)
  (brbs brbc : BranchCost := ⟨1, 2⟩)
  (cpse sbrc sbrs sbic sbis : SkipCost := ⟨1, 2, 3⟩)
  deriving DecidableEq, Repr

/-- The `COST` table: an entry for each instruction, one for the unmatched opcodes and one for the
interrupt dispatch. The default values, here and above, are those of R372. -/
structure CostTable extends ArithmeticCost, LogicCost, MultiplyBitCost, MoveCost, IndirectCost,
    ProgramSystemCost, ControlCost where
  (dispatch : Nat := 2)
  deriving DecidableEq, Repr

/-! ### Every instruction takes at least one cycle (spec R20) -/

/-- The entries of `ArithmeticCost`. -/
def ArithmeticCost.entries (c : ArithmeticCost) : List Nat :=
  [c.add, c.adc, c.sub, c.subi, c.sbc, c.sbci, c.cp, c.cpc, c.cpi, c.neg, c.inc, c.dec, c.adiw,
    c.sbiw]

/-- The entries of `LogicCost`. -/
def LogicCost.entries (c : LogicCost) : List Nat :=
  [c.and, c.andi, c.or, c.ori, c.eor, c.com, c.lsr, c.ror, c.asr, c.swap]

/-- The entries of `MultiplyBitCost`. -/
def MultiplyBitCost.entries (c : MultiplyBitCost) : List Nat :=
  [c.mul, c.muls, c.mulsu, c.fmul, c.fmuls, c.fmulsu, c.bset, c.bclr, c.bst, c.bld, c.sbi, c.cbi]

/-- The entries of `MoveCost`. -/
def MoveCost.entries (c : MoveCost) : List Nat :=
  [c.mov, c.movw, c.ldi, c.inp, c.out, c.push, c.pop, c.lds, c.sts, c.xch, c.las, c.lac, c.lat]

/-- The entries of `IndirectCost`. -/
def IndirectCost.entries (c : IndirectCost) : List Nat :=
  [c.ldX, c.ldXInc, c.ldXDec, c.ldYInc, c.ldYDec, c.lddY, c.ldZInc, c.ldZDec, c.lddZ, c.stX,
    c.stXInc, c.stXDec, c.stYInc, c.stYDec, c.stdY, c.stZInc, c.stZDec, c.stdZ]

/-- The entries of `ProgramSystemCost`. -/
def ProgramSystemCost.entries (c : ProgramSystemCost) : List Nat :=
  [c.lpmR0, c.lpmZ, c.lpmZInc, c.elpmR0, c.elpmZ, c.elpmZInc, c.spm, c.spmZInc, c.nop, c.sleep,
    c.wdr, c.brk, c.unmatched]

/-- The entries of `ControlCost`. -/
def ControlCost.entries (c : ControlCost) : List Nat :=
  [c.rjmp, c.ijmp, c.eijmp, c.jmp, c.rcall.pc16, c.rcall.pc22, c.icall.pc16, c.icall.pc22,
    c.eicall.pc16, c.eicall.pc22, c.call.pc16, c.call.pc22, c.ret.pc16, c.ret.pc22, c.reti.pc16,
    c.reti.pc22, c.brbs.notTaken, c.brbs.taken, c.brbc.notTaken, c.brbc.taken, c.cpse.noSkip,
    c.cpse.oneWord, c.cpse.twoWords, c.sbrc.noSkip, c.sbrc.oneWord, c.sbrc.twoWords,
    c.sbrs.noSkip, c.sbrs.oneWord, c.sbrs.twoWords, c.sbic.noSkip, c.sbic.oneWord,
    c.sbic.twoWords, c.sbis.noSkip, c.sbis.oneWord, c.sbis.twoWords]

/-- The entries of `COST` for instructions and for the unmatched opcodes; the dispatch is no part of
an instruction. -/
def CostTable.entries (c : CostTable) : List Nat :=
  c.toArithmeticCost.entries ++ c.toLogicCost.entries ++ c.toMultiplyBitCost.entries ++
    c.toMoveCost.entries ++ c.toIndirectCost.entries ++ c.toProgramSystemCost.entries ++
    c.toControlCost.entries

/-- Every instruction takes at least one cycle (spec R20). -/
abbrev CostTable.Positive (c : CostTable) : Prop := ∀ n ∈ c.entries, 1 ≤ n

/-! ## `HOOK_PHASE` (spec R373)

An instruction's extra cycles are those of its cost beyond the 1 of the epilogue (R88, R89).
`HOOK_PHASE` says whether they are added before or after its hooked accesses (log 27). -/

/-- Where the extra cycles of an instruction with one hooked access are added. -/
inductive Phase where
  | before
  | after
  deriving DecidableEq, Repr

/-- Where the extra cycles of an instruction with a hooked read and then a hooked write are added;
`between` is after the read and before the write. -/
inductive ReadWritePhase where
  | before
  | between
  | after
  deriving DecidableEq, Repr

/-- The loads. -/
structure LoadPhase where
  (ldX ldXInc ldXDec ldYInc ldYDec lddY ldZInc ldZDec lddZ lds : Phase := .before)
  (inp : Phase := .after)
  deriving DecidableEq, Repr

/-- The stores, and the reads and writes of one address. -/
structure StorePhase where
  (out stX stXInc stXDec stYInc stYDec stdY stZInc stZDec stdZ sts : Phase := .after)
  (sbi cbi xch las lac lat : ReadWritePhase := .after)
  deriving DecidableEq, Repr

/-- The `HOOK_PHASE` table. The default values are those of R373. SBIC and SBIS have no entry: how
many cycles they add is known only after their read, so their hook sees none of them. -/
structure HookPhase extends LoadPhase, StorePhase where
  deriving DecidableEq, Repr

/-! ## The parameters -/

/-- The construction parameters (spec R3). `POOL_CAP` is not architectural (spec R338);
`INIT_DATA` is an argument of `constructWith`. -/
structure Params where
  /-- `SRAM_BYTES`: bytes above the low 256. -/
  sramBytes : Nat
  /-- `PROG_WORDS`: the length of program memory in words. -/
  progWords : Nat
  /-- `MAX_VECTORS`: the capacity of the pending table. -/
  maxVectors : Nat
  /-- `STRICT_DECODE`: an unmatched opcode is fatal (tooling only). -/
  strictDecode : Bool
  /-- `COST`: the cycles each instruction adds. -/
  cost : CostTable
  /-- `HOOK_PHASE`: where in an instruction they are added. -/
  phase : HookPhase
  deriving DecidableEq, Repr

/-- `DATA_SIZE` (spec R3, R40). -/
def Params.dataSize (p : Params) : Nat := p.sramBytes + 256

/-- `PROG_BYTES`, the length of the byte view of program memory (spec R3, R21). -/
def Params.progBytes (p : Params) : Nat := 2 * p.progWords

/-- `PC22` (spec R22; `90_conflicts.md` C2 settles the threshold). -/
def Params.pc22 (p : Params) : Bool := decide (0x20000 < p.progBytes)

/-- `RET_BYTES`: bytes of a return address on the stack (spec R3). -/
def Params.retBytes (p : Params) : Nat := if p.pc22 then 3 else 2

/-- The ranges of the parameters: `PROG_WORDS` and `MAX_VECTORS` (spec R3), and at least one cycle for
each instruction (R20). `SRAM_BYTES` is any natural number (R3). -/
structure Params.Legal (p : Params) : Prop where
  prog_pos : 1 ≤ p.progWords
  prog_le : p.progWords ≤ 2 ^ 22
  vectors : 128 ≤ p.maxVectors
  cost : p.cost.Positive

end Sys2Proof
end

