-- ==== Sys2Proof/Syntax.lean ====
section
/-!
DEFINITION. The instructions: one constructor for each of the 96 rows of `opcode_table.json`
(spec `30_encoding.md` R77). Operands are what R75 makes of the fields: register NUMBERS, not
register fields, so that `.ldi 16 K` is `LDI r16, K`. Which numbers a form can name is checked in
`WellFormed.lean`.
-/

namespace Sys2Proof

/-- The whole instruction set of the core (spec R77). -/
inductive Instr where
  -- 40_arithmetic.md
  | add (d r : Reg)
  | adc (d r : Reg)
  | adiw (p : Reg) (k : BitVec 6)
  | sub (d r : Reg)
  | subi (d : Reg) (k : Byte)
  | sbc (d r : Reg)
  | sbci (d : Reg) (k : Byte)
  | sbiw (p : Reg) (k : BitVec 6)
  | cp (d r : Reg)
  | cpc (d r : Reg)
  | cpi (d : Reg) (k : Byte)
  | neg (d : Reg)
  | inc (d : Reg)
  | dec (d : Reg)
  -- 41_logic_shift.md
  | and (d r : Reg)
  | andi (d : Reg) (k : Byte)
  | or (d r : Reg)
  | ori (d : Reg) (k : Byte)
  | eor (d r : Reg)
  | com (d : Reg)
  | lsr (d : Reg)
  | ror (d : Reg)
  | asr (d : Reg)
  | swap (d : Reg)
  -- 42_multiply.md
  | mul (d r : Reg)
  | muls (d r : Reg)
  | mulsu (d r : Reg)
  | fmul (d r : Reg)
  | fmuls (d r : Reg)
  | fmulsu (d r : Reg)
  -- 43_bit.md
  | bset (f : BitNo)
  | bclr (f : BitNo)
  | bst (d : Reg) (b : BitNo)
  | bld (d : Reg) (b : BitNo)
  | sbi (a : Fin 32) (b : BitNo)
  | cbi (a : Fin 32) (b : BitNo)
  -- 44_data_transfer.md
  | mov (d r : Reg)
  | movw (d r : Reg)
  | ldi (d : Reg) (k : Byte)
  | inp (d : Reg) (a : Fin 64)
  | out (a : Fin 64) (r : Reg)
  | push (r : Reg)
  | pop (d : Reg)
  | lds (d : Reg) (k : Word)
  | sts (k : Word) (r : Reg)
  | ldX (d : Reg)
  | ldXInc (d : Reg)
  | ldXDec (d : Reg)
  | ldYInc (d : Reg)
  | ldYDec (d : Reg)
  | lddY (d : Reg) (q : Fin 64)
  | ldZInc (d : Reg)
  | ldZDec (d : Reg)
  | lddZ (d : Reg) (q : Fin 64)
  | stX (r : Reg)
  | stXInc (r : Reg)
  | stXDec (r : Reg)
  | stYInc (r : Reg)
  | stYDec (r : Reg)
  | stdY (q : Fin 64) (r : Reg)
  | stZInc (r : Reg)
  | stZDec (r : Reg)
  | stdZ (q : Fin 64) (r : Reg)
  | xch (d : Reg)
  | las (d : Reg)
  | lac (d : Reg)
  | lat (d : Reg)
  -- 45_program_memory.md
  | lpmR0
  | lpmZ (d : Reg)
  | lpmZInc (d : Reg)
  | elpmR0
  | elpmZ (d : Reg)
  | elpmZInc (d : Reg)
  | spm
  | spmZInc
  -- 46_control_transfer.md
  | rjmp (k : BitVec 12)
  | ijmp
  | eijmp
  | jmp (k : BitVec 22)
  | rcall (k : BitVec 12)
  | icall
  | eicall
  | call (k : BitVec 22)
  | ret
  | reti
  | brbs (f : BitNo) (k : BitVec 7)
  | brbc (f : BitNo) (k : BitVec 7)
  | cpse (d r : Reg)
  | sbrc (r : Reg) (b : BitNo)
  | sbrs (r : Reg) (b : BitNo)
  | sbic (a : Fin 32) (b : BitNo)
  | sbis (a : Fin 32) (b : BitNo)
  -- 47_system.md
  | nop
  | sleep
  | wdr
  | brk
  deriving DecidableEq, Repr

end Sys2Proof
end

