-- ==== Sys2Proof/WellFormed.lean ====
section
/-!
DEFINITION. Which register numbers a form can name (spec R11, R75). Everything else about an
operand is a bound of its type.
-/

namespace Sys2Proof

/-- The 4-bit register field names R16 to R31 (spec R75). -/
def isUpper (r : Reg) : Bool := 16 ≤ r.val

/-- The 3-bit register field names R16 to R23 (spec R75). -/
def isMiddle (r : Reg) : Bool := 16 ≤ r.val && r.val < 24

/-- The 2-bit pair field names R24, R26, R28, R30 (spec R75). -/
def isWordPair (r : Reg) : Bool := 24 ≤ r.val && r.val % 2 == 0

/-- The 4-bit pair field of MOVW names R0, R2, .., R30 (spec R75). -/
def isEven (r : Reg) : Bool := r.val % 2 == 0

/-- The instructions that have an encoding. -/
def Instr.wellFormed : Instr → Bool
  | .subi d _ | .sbci d _ | .cpi d _ | .andi d _ | .ori d _ | .ldi d _ => isUpper d
  | .adiw p _ | .sbiw p _ => isWordPair p
  | .muls d r => isUpper d && isUpper r
  | .mulsu d r | .fmul d r | .fmuls d r | .fmulsu d r => isMiddle d && isMiddle r
  | .movw d r => isEven d && isEven r
  | .add _ _ | .adc _ _ | .sub _ _ | .sbc _ _ | .cp _ _ | .cpc _ _ | .neg _ | .inc _ | .dec _
  | .and _ _ | .or _ _ | .eor _ _ | .com _ | .lsr _ | .ror _ | .asr _ | .swap _ | .mul _ _
  | .bset _ | .bclr _ | .bst _ _ | .bld _ _ | .sbi _ _ | .cbi _ _
  | .mov _ _ | .inp _ _ | .out _ _ | .push _ | .pop _ | .lds _ _ | .sts _ _
  | .ldX _ | .ldXInc _ | .ldXDec _ | .ldYInc _ | .ldYDec _ | .lddY _ _ | .ldZInc _ | .ldZDec _
  | .lddZ _ _ | .stX _ | .stXInc _ | .stXDec _ | .stYInc _ | .stYDec _ | .stdY _ _ | .stZInc _
  | .stZDec _ | .stdZ _ _ | .xch _ | .las _ | .lac _ | .lat _
  | .lpmR0 | .lpmZ _ | .lpmZInc _ | .elpmR0 | .elpmZ _ | .elpmZInc _ | .spm | .spmZInc
  | .rjmp _ | .ijmp | .eijmp | .jmp _ | .rcall _ | .icall | .eicall | .call _ | .ret | .reti
  | .brbs _ _ | .brbc _ _ | .cpse _ _ | .sbrc _ _ | .sbrs _ _ | .sbic _ _ | .sbis _ _
  | .nop | .sleep | .wdr | .brk => true

end Sys2Proof
end

