-- ==== Sys2Proof/Decode.lean ====
section
/-!
DEFINITION. From words to instructions and back (spec `30_encoding.md`).

The decoder is the table of R77, row by row in its order: a first word selects the row whose
`match` it equals under the row's `mask` (R71). The encoder is written from the formats of R73.
-/

namespace Sys2Proof

/-- Why the decoder gives no instruction. -/
inductive DecodeReject where
  /-- The first word matches no row of R77: one of the 1570 values of R79. -/
  | unmatched (op : Word)
  /-- Fewer bytes were given than the instruction has. -/
  | truncated
  deriving DecidableEq, Repr

/-! ## Fields (spec R73, R75) -/

/-- Bits `hi` down to `lo` of a word, as an unsigned number. -/
def field (w : Word) (hi lo : Nat) : Nat := (w.toNat >>> lo) % 2 ^ (hi + 1 - lo)

/-- The 5-bit register field in bits 8..4. -/
def fieldD5 (w : Word) : Reg := Fin.ofNat 32 (field w 8 4)

/-- The 5-bit register field in bit 9 : bits 3..0. -/
def fieldR5 (w : Word) : Reg := Fin.ofNat 32 (field w 9 9 * 16 + field w 3 0)

/-- The 4-bit register field in bits 7..4 that names R16 to R31. -/
def fieldD4 (w : Word) : Reg := Fin.ofNat 32 (16 + field w 7 4)

/-- The 4-bit register field in bits 3..0 that names R16 to R31. -/
def fieldR4 (w : Word) : Reg := Fin.ofNat 32 (16 + field w 3 0)

/-- The 3-bit register field in bits 6..4 that names R16 to R23. -/
def fieldD3 (w : Word) : Reg := Fin.ofNat 32 (16 + field w 6 4)

/-- The 3-bit register field in bits 2..0 that names R16 to R23. -/
def fieldR3 (w : Word) : Reg := Fin.ofNat 32 (16 + field w 2 0)

/-- The 4-bit pair field of MOVW in bits 7..4. -/
def fieldDPair (w : Word) : Reg := Fin.ofNat 32 (2 * field w 7 4)

/-- The 4-bit pair field of MOVW in bits 3..0. -/
def fieldRPair (w : Word) : Reg := Fin.ofNat 32 (2 * field w 3 0)

/-- The 2-bit pair field in bits 5..4 that names R24, R26, R28, R30. -/
def fieldPair2 (w : Word) : Reg := Fin.ofNat 32 (24 + 2 * field w 5 4)

/-- The 8-bit immediate in bits 11..8 : bits 3..0. -/
def fieldK8 (w : Word) : Byte := BitVec.ofNat 8 (field w 11 8 * 16 + field w 3 0)

/-- The 6-bit immediate in bits 7..6 : bits 3..0. -/
def fieldK6 (w : Word) : BitVec 6 := BitVec.ofNat 6 (field w 7 6 * 16 + field w 3 0)

/-- The SREG bit number in bits 6..4. -/
def fieldS (w : Word) : BitNo := Fin.ofNat 8 (field w 6 4)

/-- The bit number in bits 2..0; also the SREG bit number of the branches. -/
def fieldB (w : Word) : BitNo := Fin.ofNat 8 (field w 2 0)

/-- The 5-bit I/O address in bits 7..3. -/
def fieldA5 (w : Word) : Fin 32 := Fin.ofNat 32 (field w 7 3)

/-- The 6-bit I/O address in bits 10..9 : bits 3..0. -/
def fieldA6 (w : Word) : Fin 64 := Fin.ofNat 64 (field w 10 9 * 16 + field w 3 0)

/-- The unsigned displacement in bit 13 : bits 11..10 : bits 2..0 (`90_conflicts.md` C1). -/
def fieldQ (w : Word) : Fin 64 :=
  Fin.ofNat 64 (field w 13 13 * 32 + field w 11 10 * 8 + field w 2 0)

/-- The 12-bit offset in bits 11..0. -/
def fieldK12 (w : Word) : BitVec 12 := BitVec.ofNat 12 (field w 11 0)

/-- The 7-bit offset in bits 9..3. -/
def fieldK7 (w : Word) : BitVec 7 := BitVec.ofNat 7 (field w 9 3)

/-- The 22-bit target: bits 8..4 : bit 0 of the first word, then the second word. -/
def fieldK22 (w k : Word) : BitVec 22 :=
  BitVec.ofNat 22 ((field w 8 4 * 2 + field w 0 0) * 65536 + k.toNat)

/-! ## The opcode table (spec R77) -/

/-- A row of R77: its `match` (here `bits`), its `mask` and its length in words; `build` makes the
instruction from the first word and, in the four rows of two words, the second. -/
structure Row where
  mnemonic : String
  bits : Nat
  mask : Nat
  words : Nat
  build : Word → Word → Instr

def rowsArithmetic : List Row :=
  [ ⟨"ADD", 0x0C00, 0xFC00, 1, fun w _ => .add (fieldD5 w) (fieldR5 w)⟩,
    ⟨"ADC", 0x1C00, 0xFC00, 1, fun w _ => .adc (fieldD5 w) (fieldR5 w)⟩,
    ⟨"ADIW", 0x9600, 0xFF00, 1, fun w _ => .adiw (fieldPair2 w) (fieldK6 w)⟩,
    ⟨"SUB", 0x1800, 0xFC00, 1, fun w _ => .sub (fieldD5 w) (fieldR5 w)⟩,
    ⟨"SUBI", 0x5000, 0xF000, 1, fun w _ => .subi (fieldD4 w) (fieldK8 w)⟩,
    ⟨"SBC", 0x0800, 0xFC00, 1, fun w _ => .sbc (fieldD5 w) (fieldR5 w)⟩,
    ⟨"SBCI", 0x4000, 0xF000, 1, fun w _ => .sbci (fieldD4 w) (fieldK8 w)⟩,
    ⟨"SBIW", 0x9700, 0xFF00, 1, fun w _ => .sbiw (fieldPair2 w) (fieldK6 w)⟩,
    ⟨"CP", 0x1400, 0xFC00, 1, fun w _ => .cp (fieldD5 w) (fieldR5 w)⟩,
    ⟨"CPC", 0x0400, 0xFC00, 1, fun w _ => .cpc (fieldD5 w) (fieldR5 w)⟩,
    ⟨"CPI", 0x3000, 0xF000, 1, fun w _ => .cpi (fieldD4 w) (fieldK8 w)⟩,
    ⟨"NEG", 0x9401, 0xFE0F, 1, fun w _ => .neg (fieldD5 w)⟩,
    ⟨"INC", 0x9403, 0xFE0F, 1, fun w _ => .inc (fieldD5 w)⟩,
    ⟨"DEC", 0x940A, 0xFE0F, 1, fun w _ => .dec (fieldD5 w)⟩ ]

def rowsLogic : List Row :=
  [ ⟨"AND", 0x2000, 0xFC00, 1, fun w _ => .and (fieldD5 w) (fieldR5 w)⟩,
    ⟨"ANDI", 0x7000, 0xF000, 1, fun w _ => .andi (fieldD4 w) (fieldK8 w)⟩,
    ⟨"OR", 0x2800, 0xFC00, 1, fun w _ => .or (fieldD5 w) (fieldR5 w)⟩,
    ⟨"ORI", 0x6000, 0xF000, 1, fun w _ => .ori (fieldD4 w) (fieldK8 w)⟩,
    ⟨"EOR", 0x2400, 0xFC00, 1, fun w _ => .eor (fieldD5 w) (fieldR5 w)⟩,
    ⟨"COM", 0x9400, 0xFE0F, 1, fun w _ => .com (fieldD5 w)⟩,
    ⟨"LSR", 0x9406, 0xFE0F, 1, fun w _ => .lsr (fieldD5 w)⟩,
    ⟨"ROR", 0x9407, 0xFE0F, 1, fun w _ => .ror (fieldD5 w)⟩,
    ⟨"ASR", 0x9405, 0xFE0F, 1, fun w _ => .asr (fieldD5 w)⟩,
    ⟨"SWAP", 0x9402, 0xFE0F, 1, fun w _ => .swap (fieldD5 w)⟩ ]

def rowsMultiply : List Row :=
  [ ⟨"MUL", 0x9C00, 0xFC00, 1, fun w _ => .mul (fieldD5 w) (fieldR5 w)⟩,
    ⟨"MULS", 0x0200, 0xFF00, 1, fun w _ => .muls (fieldD4 w) (fieldR4 w)⟩,
    ⟨"MULSU", 0x0300, 0xFF88, 1, fun w _ => .mulsu (fieldD3 w) (fieldR3 w)⟩,
    ⟨"FMUL", 0x0308, 0xFF88, 1, fun w _ => .fmul (fieldD3 w) (fieldR3 w)⟩,
    ⟨"FMULS", 0x0380, 0xFF88, 1, fun w _ => .fmuls (fieldD3 w) (fieldR3 w)⟩,
    ⟨"FMULSU", 0x0388, 0xFF88, 1, fun w _ => .fmulsu (fieldD3 w) (fieldR3 w)⟩ ]

def rowsBit : List Row :=
  [ ⟨"BSET", 0x9408, 0xFF8F, 1, fun w _ => .bset (fieldS w)⟩,
    ⟨"BCLR", 0x9488, 0xFF8F, 1, fun w _ => .bclr (fieldS w)⟩,
    ⟨"BST", 0xFA00, 0xFE08, 1, fun w _ => .bst (fieldD5 w) (fieldB w)⟩,
    ⟨"BLD", 0xF800, 0xFE08, 1, fun w _ => .bld (fieldD5 w) (fieldB w)⟩,
    ⟨"SBI", 0x9A00, 0xFF00, 1, fun w _ => .sbi (fieldA5 w) (fieldB w)⟩,
    ⟨"CBI", 0x9800, 0xFF00, 1, fun w _ => .cbi (fieldA5 w) (fieldB w)⟩ ]

def rowsMove : List Row :=
  [ ⟨"MOV", 0x2C00, 0xFC00, 1, fun w _ => .mov (fieldD5 w) (fieldR5 w)⟩,
    ⟨"MOVW", 0x0100, 0xFF00, 1, fun w _ => .movw (fieldDPair w) (fieldRPair w)⟩,
    ⟨"LDI", 0xE000, 0xF000, 1, fun w _ => .ldi (fieldD4 w) (fieldK8 w)⟩,
    ⟨"IN", 0xB000, 0xF800, 1, fun w _ => .inp (fieldD5 w) (fieldA6 w)⟩,
    ⟨"OUT", 0xB800, 0xF800, 1, fun w _ => .out (fieldA6 w) (fieldD5 w)⟩,
    ⟨"PUSH", 0x920F, 0xFE0F, 1, fun w _ => .push (fieldD5 w)⟩,
    ⟨"POP", 0x900F, 0xFE0F, 1, fun w _ => .pop (fieldD5 w)⟩,
    ⟨"LDS", 0x9000, 0xFE0F, 2, fun w k => .lds (fieldD5 w) k⟩,
    ⟨"STS", 0x9200, 0xFE0F, 2, fun w k => .sts k (fieldD5 w)⟩ ]

def rowsLoad : List Row :=
  [ ⟨"LD_X", 0x900C, 0xFE0F, 1, fun w _ => .ldX (fieldD5 w)⟩,
    ⟨"LD_X+", 0x900D, 0xFE0F, 1, fun w _ => .ldXInc (fieldD5 w)⟩,
    ⟨"LD_-X", 0x900E, 0xFE0F, 1, fun w _ => .ldXDec (fieldD5 w)⟩,
    ⟨"LD_Y+", 0x9009, 0xFE0F, 1, fun w _ => .ldYInc (fieldD5 w)⟩,
    ⟨"LD_-Y", 0x900A, 0xFE0F, 1, fun w _ => .ldYDec (fieldD5 w)⟩,
    ⟨"LDD_Y", 0x8008, 0xD208, 1, fun w _ => .lddY (fieldD5 w) (fieldQ w)⟩,
    ⟨"LD_Z+", 0x9001, 0xFE0F, 1, fun w _ => .ldZInc (fieldD5 w)⟩,
    ⟨"LD_-Z", 0x9002, 0xFE0F, 1, fun w _ => .ldZDec (fieldD5 w)⟩,
    ⟨"LDD_Z", 0x8000, 0xD208, 1, fun w _ => .lddZ (fieldD5 w) (fieldQ w)⟩ ]

def rowsStore : List Row :=
  [ ⟨"ST_X", 0x920C, 0xFE0F, 1, fun w _ => .stX (fieldD5 w)⟩,
    ⟨"ST_X+", 0x920D, 0xFE0F, 1, fun w _ => .stXInc (fieldD5 w)⟩,
    ⟨"ST_-X", 0x920E, 0xFE0F, 1, fun w _ => .stXDec (fieldD5 w)⟩,
    ⟨"ST_Y+", 0x9209, 0xFE0F, 1, fun w _ => .stYInc (fieldD5 w)⟩,
    ⟨"ST_-Y", 0x920A, 0xFE0F, 1, fun w _ => .stYDec (fieldD5 w)⟩,
    ⟨"STD_Y", 0x8208, 0xD208, 1, fun w _ => .stdY (fieldQ w) (fieldD5 w)⟩,
    ⟨"ST_Z+", 0x9201, 0xFE0F, 1, fun w _ => .stZInc (fieldD5 w)⟩,
    ⟨"ST_-Z", 0x9202, 0xFE0F, 1, fun w _ => .stZDec (fieldD5 w)⟩,
    ⟨"STD_Z", 0x8200, 0xD208, 1, fun w _ => .stdZ (fieldQ w) (fieldD5 w)⟩,
    ⟨"XCH", 0x9204, 0xFE0F, 1, fun w _ => .xch (fieldD5 w)⟩,
    ⟨"LAS", 0x9205, 0xFE0F, 1, fun w _ => .las (fieldD5 w)⟩,
    ⟨"LAC", 0x9206, 0xFE0F, 1, fun w _ => .lac (fieldD5 w)⟩,
    ⟨"LAT", 0x9207, 0xFE0F, 1, fun w _ => .lat (fieldD5 w)⟩ ]

def rowsProgram : List Row :=
  [ ⟨"LPM_R0", 0x95C8, 0xFFFF, 1, fun _ _ => .lpmR0⟩,
    ⟨"LPM_Z", 0x9004, 0xFE0F, 1, fun w _ => .lpmZ (fieldD5 w)⟩,
    ⟨"LPM_Z+", 0x9005, 0xFE0F, 1, fun w _ => .lpmZInc (fieldD5 w)⟩,
    ⟨"ELPM_R0", 0x95D8, 0xFFFF, 1, fun _ _ => .elpmR0⟩,
    ⟨"ELPM_Z", 0x9006, 0xFE0F, 1, fun w _ => .elpmZ (fieldD5 w)⟩,
    ⟨"ELPM_Z+", 0x9007, 0xFE0F, 1, fun w _ => .elpmZInc (fieldD5 w)⟩,
    ⟨"SPM", 0x95E8, 0xFFFF, 1, fun _ _ => .spm⟩,
    ⟨"SPM_Z+", 0x95F8, 0xFFFF, 1, fun _ _ => .spmZInc⟩ ]

def rowsControl : List Row :=
  [ ⟨"RJMP", 0xC000, 0xF000, 1, fun w _ => .rjmp (fieldK12 w)⟩,
    ⟨"IJMP", 0x9409, 0xFFFF, 1, fun _ _ => .ijmp⟩,
    ⟨"EIJMP", 0x9419, 0xFFFF, 1, fun _ _ => .eijmp⟩,
    ⟨"JMP", 0x940C, 0xFE0E, 2, fun w k => .jmp (fieldK22 w k)⟩,
    ⟨"RCALL", 0xD000, 0xF000, 1, fun w _ => .rcall (fieldK12 w)⟩,
    ⟨"ICALL", 0x9509, 0xFFFF, 1, fun _ _ => .icall⟩,
    ⟨"EICALL", 0x9519, 0xFFFF, 1, fun _ _ => .eicall⟩,
    ⟨"CALL", 0x940E, 0xFE0E, 2, fun w k => .call (fieldK22 w k)⟩,
    ⟨"RET", 0x9508, 0xFFFF, 1, fun _ _ => .ret⟩,
    ⟨"RETI", 0x9518, 0xFFFF, 1, fun _ _ => .reti⟩,
    ⟨"BRBS", 0xF000, 0xFC00, 1, fun w _ => .brbs (fieldB w) (fieldK7 w)⟩,
    ⟨"BRBC", 0xF400, 0xFC00, 1, fun w _ => .brbc (fieldB w) (fieldK7 w)⟩,
    ⟨"CPSE", 0x1000, 0xFC00, 1, fun w _ => .cpse (fieldD5 w) (fieldR5 w)⟩,
    ⟨"SBRC", 0xFC00, 0xFE08, 1, fun w _ => .sbrc (fieldD5 w) (fieldB w)⟩,
    ⟨"SBRS", 0xFE00, 0xFE08, 1, fun w _ => .sbrs (fieldD5 w) (fieldB w)⟩,
    ⟨"SBIC", 0x9900, 0xFF00, 1, fun w _ => .sbic (fieldA5 w) (fieldB w)⟩,
    ⟨"SBIS", 0x9B00, 0xFF00, 1, fun w _ => .sbis (fieldA5 w) (fieldB w)⟩ ]

def rowsSystem : List Row :=
  [ ⟨"NOP", 0x0000, 0xFFFF, 1, fun _ _ => .nop⟩,
    ⟨"SLEEP", 0x9588, 0xFFFF, 1, fun _ _ => .sleep⟩,
    ⟨"WDR", 0x95A8, 0xFFFF, 1, fun _ _ => .wdr⟩,
    ⟨"BREAK", 0x9598, 0xFFFF, 1, fun _ _ => .brk⟩ ]

/-- The table of R77, all 96 rows in its order. -/
def opcodeTable : List Row :=
  rowsArithmetic ++ rowsLogic ++ rowsMultiply ++ rowsBit ++ rowsMove ++ rowsLoad ++ rowsStore ++
    rowsProgram ++ rowsControl ++ rowsSystem

/-! ## Decoding -/

/-- `op & mask = match` (spec R71). -/
def Row.selects (row : Row) (w : Word) : Bool := (w.toNat &&& row.mask).beq row.bits

/-- The instruction of a first word `w`; `k` is the word after it, which only the four rows of two
words look at. -/
def decode (w k : Word) : Except DecodeReject Instr :=
  match opcodeTable.find? (·.selects w) with
  | some row => .ok (row.build w k)
  | none => .error (.unmatched w)

/-- `IsTwoWord` (spec R80): LDS, STS, CALL, JMP. -/
def isTwoWord (w : Word) : Bool :=
  w &&& 0xFE0F == 0x9000 || w &&& 0xFE0F == 0x9200 || w &&& 0xFE0E == 0x940E ||
    w &&& 0xFE0E == 0x940C

/-- Decoding from bytes as program memory holds them, the low byte of each word first (spec R53);
the bytes that follow the instruction are given back. -/
def decodeBytes : List Byte → Except DecodeReject (Instr × List Byte)
  | lo :: hi :: rest =>
    if isTwoWord (hi ++ lo) then
      match rest with
      | klo :: khi :: rest => (decode (hi ++ lo) (khi ++ klo)).map (·, rest)
      | _ => .error .truncated
    else (decode (hi ++ lo) 0).map (·, rest)
  | _ => .error .truncated

/-- The instruction the decoder reads from the bits `w` of an opcode-table row: the first word is
bits 15..0, the second bits 31..16. Bits from `nbits` up are 0. -/
def decodeTableWord (nbits w : Nat) : Option Instr :=
  let v := w % 2 ^ nbits
  match decode (BitVec.ofNat 16 v) (BitVec.ofNat 16 (v / 65536)) with
  | .ok i => some i
  | .error _ => none

/-! ## Encoding (spec R73) -/

/-- The bits of `op` with fields added; the fields lie where `op` is 0. -/
def pack (op fields : Nat) : Word := BitVec.ofNat 16 (op + fields)

/-- Format `RdRr`. -/
def encRdRr (op : Nat) (d r : Reg) : List Word :=
  [pack op (d.val * 16 + r.val / 16 * 512 + r.val % 16)]

/-- Format `RdK8`, and `d` names R16 to R31. -/
def encRdK8 (op : Nat) (d : Reg) (k : Byte) : List Word :=
  [pack op (d.val % 16 * 16 + k.toNat / 16 * 256 + k.toNat % 16)]

/-- Format `RpK6`, and `p` names R24, R26, R28 or R30. -/
def encRpK6 (op : Nat) (p : Reg) (k : BitVec 6) : List Word :=
  [pack op (p.val / 2 % 4 * 16 + k.toNat / 16 * 64 + k.toNat % 16)]

/-- Format `Rd`. -/
def encRd (op : Nat) (d : Reg) : List Word := [pack op (d.val * 16)]

/-- Format `Rd4Rr4`, both in R16 to R31. -/
def encRd4Rr4 (op : Nat) (d r : Reg) : List Word := [pack op (d.val % 16 * 16 + r.val % 16)]

/-- Format `RpRp`, both even. -/
def encRpRp (op : Nat) (d r : Reg) : List Word := [pack op (d.val / 2 * 16 + r.val / 2)]

/-- Format `Rd3Rr3`, both in R16 to R23. -/
def encRd3Rr3 (op : Nat) (d r : Reg) : List Word := [pack op (d.val % 8 * 16 + r.val % 8)]

/-- Format `S`. -/
def encS (op : Nat) (f : BitNo) : List Word := [pack op (f.val * 16)]

/-- Format `RdB`. -/
def encRdB (op : Nat) (d : Reg) (b : BitNo) : List Word := [pack op (d.val * 16 + b.val)]

/-- Format `A5B`. -/
def encA5B (op : Nat) (a : Fin 32) (b : BitNo) : List Word := [pack op (a.val * 8 + b.val)]

/-- Format `RdA6`. -/
def encRdA6 (op : Nat) (d : Reg) (a : Fin 64) : List Word :=
  [pack op (a.val / 16 * 512 + d.val * 16 + a.val % 16)]

/-- Format `RdK16`. -/
def encRdK16 (op : Nat) (d : Reg) (k : Word) : List Word := [pack op (d.val * 16), k]

/-- Format `RdQ`. -/
def encRdQ (op : Nat) (d : Reg) (q : Fin 64) : List Word :=
  [pack op (q.val / 32 * 8192 + q.val / 8 % 4 * 1024 + d.val * 16 + q.val % 8)]

/-- Format `K12`. -/
def encK12 (op : Nat) (k : BitVec 12) : List Word := [pack op k.toNat]

/-- Format `K22`. -/
def encK22 (op : Nat) (k : BitVec 22) : List Word :=
  [pack op (k.toNat / 65536 / 2 * 16 + k.toNat / 65536 % 2), BitVec.ofNat 16 k.toNat]

/-- Format `SK7`. -/
def encSK7 (op : Nat) (f : BitNo) (k : BitVec 7) : List Word := [pack op (k.toNat * 8 + f.val)]

/-- Format `None`. -/
def encNone (op : Nat) : List Word := [pack op 0]

/-- The words of a well-formed instruction, the first word first. -/
def encode : Instr → List Word
  | .add d r => encRdRr 0x0C00 d r
  | .adc d r => encRdRr 0x1C00 d r
  | .adiw p k => encRpK6 0x9600 p k
  | .sub d r => encRdRr 0x1800 d r
  | .subi d k => encRdK8 0x5000 d k
  | .sbc d r => encRdRr 0x0800 d r
  | .sbci d k => encRdK8 0x4000 d k
  | .sbiw p k => encRpK6 0x9700 p k
  | .cp d r => encRdRr 0x1400 d r
  | .cpc d r => encRdRr 0x0400 d r
  | .cpi d k => encRdK8 0x3000 d k
  | .neg d => encRd 0x9401 d
  | .inc d => encRd 0x9403 d
  | .dec d => encRd 0x940A d
  | .and d r => encRdRr 0x2000 d r
  | .andi d k => encRdK8 0x7000 d k
  | .or d r => encRdRr 0x2800 d r
  | .ori d k => encRdK8 0x6000 d k
  | .eor d r => encRdRr 0x2400 d r
  | .com d => encRd 0x9400 d
  | .lsr d => encRd 0x9406 d
  | .ror d => encRd 0x9407 d
  | .asr d => encRd 0x9405 d
  | .swap d => encRd 0x9402 d
  | .mul d r => encRdRr 0x9C00 d r
  | .muls d r => encRd4Rr4 0x0200 d r
  | .mulsu d r => encRd3Rr3 0x0300 d r
  | .fmul d r => encRd3Rr3 0x0308 d r
  | .fmuls d r => encRd3Rr3 0x0380 d r
  | .fmulsu d r => encRd3Rr3 0x0388 d r
  | .bset f => encS 0x9408 f
  | .bclr f => encS 0x9488 f
  | .bst d b => encRdB 0xFA00 d b
  | .bld d b => encRdB 0xF800 d b
  | .sbi a b => encA5B 0x9A00 a b
  | .cbi a b => encA5B 0x9800 a b
  | .mov d r => encRdRr 0x2C00 d r
  | .movw d r => encRpRp 0x0100 d r
  | .ldi d k => encRdK8 0xE000 d k
  | .inp d a => encRdA6 0xB000 d a
  | .out a r => encRdA6 0xB800 r a
  | .push r => encRd 0x920F r
  | .pop d => encRd 0x900F d
  | .lds d k => encRdK16 0x9000 d k
  | .sts k r => encRdK16 0x9200 r k
  | .ldX d => encRd 0x900C d
  | .ldXInc d => encRd 0x900D d
  | .ldXDec d => encRd 0x900E d
  | .ldYInc d => encRd 0x9009 d
  | .ldYDec d => encRd 0x900A d
  | .lddY d q => encRdQ 0x8008 d q
  | .ldZInc d => encRd 0x9001 d
  | .ldZDec d => encRd 0x9002 d
  | .lddZ d q => encRdQ 0x8000 d q
  | .stX r => encRd 0x920C r
  | .stXInc r => encRd 0x920D r
  | .stXDec r => encRd 0x920E r
  | .stYInc r => encRd 0x9209 r
  | .stYDec r => encRd 0x920A r
  | .stdY q r => encRdQ 0x8208 r q
  | .stZInc r => encRd 0x9201 r
  | .stZDec r => encRd 0x9202 r
  | .stdZ q r => encRdQ 0x8200 r q
  | .xch d => encRd 0x9204 d
  | .las d => encRd 0x9205 d
  | .lac d => encRd 0x9206 d
  | .lat d => encRd 0x9207 d
  | .lpmR0 => encNone 0x95C8
  | .lpmZ d => encRd 0x9004 d
  | .lpmZInc d => encRd 0x9005 d
  | .elpmR0 => encNone 0x95D8
  | .elpmZ d => encRd 0x9006 d
  | .elpmZInc d => encRd 0x9007 d
  | .spm => encNone 0x95E8
  | .spmZInc => encNone 0x95F8
  | .rjmp k => encK12 0xC000 k
  | .ijmp => encNone 0x9409
  | .eijmp => encNone 0x9419
  | .jmp k => encK22 0x940C k
  | .rcall k => encK12 0xD000 k
  | .icall => encNone 0x9509
  | .eicall => encNone 0x9519
  | .call k => encK22 0x940E k
  | .ret => encNone 0x9508
  | .reti => encNone 0x9518
  | .brbs f k => encSK7 0xF000 f k
  | .brbc f k => encSK7 0xF400 f k
  | .cpse d r => encRdRr 0x1000 d r
  | .sbrc r b => encRdB 0xFC00 r b
  | .sbrs r b => encRdB 0xFE00 r b
  | .sbic a b => encA5B 0x9900 a b
  | .sbis a b => encA5B 0x9B00 a b
  | .nop => encNone 0x0000
  | .sleep => encNone 0x9588
  | .wdr => encNone 0x95A8
  | .brk => encNone 0x9598

end Sys2Proof
end

