-- ==== Sys2Proof/Machine/Cost.lean ====
section
/-!
DEFINITION. The `COST` and `HOOK_PHASE` tables of this core, the standard parameters, and how the
entries are used (spec R372, R373): which cycles of a cost are added before a hooked access, and the
entries that depend on the core or on what the instruction does.
-/

namespace Sys2Proof

/-- `COST` of this core (spec R372, D9): the default values. -/
def CostTable.standard : CostTable := {}

/-- `HOOK_PHASE` of this core (spec R373, D8): the default values. -/
def HookPhase.standard : HookPhase := {}

/-- DESIGN CHOICE (log 2): the core that `State.reset` is. 2048 bytes of SRAM and a program of
0x4000 words are those of the spec's own examples (`46_control_transfer.md`); 128 vectors and no
strict decoding are the spec's defaults (D21, D22), and the two tables are the spec's (D8, D9). -/
def Config.standard : Params :=
  { sramBytes := 2048, progWords := 0x4000, maxVectors := 128, strictDecode := false,
    cost := .standard, phase := .standard }

end Sys2Proof

namespace Sys2Proof.Machine

/-! ## Entries with several values (spec R372) -/

/-- The entry of a call or return on a core with or without `PC22`. -/
def callCost (c : CallCost) (pc22 : Bool) : Nat := if pc22 then c.pc22 else c.pc16

/-- The entry of a conditional branch. -/
def branchCost (c : BranchCost) (taken : Bool) : Nat := if taken then c.taken else c.notTaken

/-- The entry of a skip over `words` words. -/
def skipCost (c : SkipCost) (words : Nat) : Nat :=
  match words with
  | 0 => c.noSkip
  | 1 => c.oneWord
  | _ => c.twoWords

/-! ## Cycles added before a hooked access (spec R373) -/

/-- Of a cost `n`, the cycles added before the only hooked access: the extra ones or none. -/
def early (p : Phase) (n : Nat) : Nat :=
  match p with
  | .before => n - 1
  | .after => 0

/-- Of a cost `n`, the cycles added before the hooked read of a read and write. -/
def earlyRead (p : ReadWritePhase) (n : Nat) : Nat :=
  match p with
  | .before => n - 1
  | .between | .after => 0

/-- Of a cost `n`, the cycles added between the hooked read and the hooked write. -/
def earlyWrite (p : ReadWritePhase) (n : Nat) : Nat :=
  match p with
  | .between => n - 1
  | .before | .after => 0

/-- Of a cost `n`, the cycles added before the hooked write. -/
def beforeWrite (p : ReadWritePhase) (n : Nat) : Nat := earlyRead p n + earlyWrite p n

/-- Of a cost `n`, the cycles added after both. -/
def lateCycles (p : ReadWritePhase) (n : Nat) : Nat := n - beforeWrite p n

end Sys2Proof.Machine
end

