-- ==== Sys2Proof/Machine/Bits.lean ====
section
/-!
DEFINITION. Bit fields, sign extension and byte order, where the spec's notation names them
(`00_scope.md` section 6).
-/

namespace Sys2Proof.Machine

/-- `v[i]` of a byte. -/
def bit (v : Byte) (i : Nat) : Bool := v.getLsbD i

/-- The byte with bit `i` alone set: `1 << i`. -/
def oneBit (i : Nat) : Byte := 1#8 <<< i

/-- `v` with bit `i` set to `b`. -/
def putBit (v : Byte) (i : Nat) (b : Bool) : Byte :=
  if b then v ||| oneBit i else v &&& ~~~ oneBit i

/-- `b` as a bit of a byte: 1 or 0. -/
def bitByte (b : Bool) : Byte := if b then 1 else 0

/-- The 16-bit value of two bytes, `hi : lo` (spec R12, R43: the second byte is the high one). -/
def word (lo hi : Byte) : Word := hi ++ lo

/-- Byte `i` of a number, counted from the low end. -/
def byteOf (n i : Nat) : Byte := BitVec.ofNat 8 (n / 256 ^ i)

/-- `u(x)` of spec R135: the byte read unsigned. -/
def unsigned8 (x : Byte) : Int := x.toNat

/-- `s(x)` of spec R135, `signed8`: the byte read as two's complement. -/
def signed8 (x : Byte) : Int := x.toInt

/-- `sext_N(k)`: a signed word offset (spec R75). -/
def offset {n : Nat} (k : BitVec n) : Int := k.toInt

end Sys2Proof.Machine
end

