-- ==== Sys2Proof/Machine/State.lean ====
section
/-!
DEFINITION. Everything the core holds (spec `10_state.md`), the reasons a run stops, and the state
after construction. All of it is plain data.

The registers, SREG, SP, RAMPZ and EIND have no fields of their own: the spec makes them bytes of
the data space (R10, R14, R16, R17), and `Machine/Ops.lean` reads and writes them there.
-/

namespace Sys2Proof.Machine

/-- Which check a `ConfigError` failed (spec R300, R312, R350, R357, R358). -/
inductive ConfigKind where
  /-- A descriptor whose vector is outside the pending table was queued (R312). -/
  | vectorOutOfTable
  /-- A program of no words, of more than 2^22 words (R350), or of another length than the core
  was built for (R357). -/
  | programLength
  /-- A program given as an odd number of bytes (R350, D30). -/
  | oddProgramBytes
  /-- The host set `pc` outside program memory (R358). -/
  | pcOutOfRange
  /-- A core with a pending table of fewer than 128 entries was asked for (R3, log 16). -/
  | maxVectorsTooSmall
  /-- A core with an instruction that takes no cycle was asked for (R20, log 27). -/
  | costBelowOne
  deriving DecidableEq, Repr

/-- The aborts of spec R300. Each ends the run; all are safe: the model stops where the spec says
the core does. -/
inductive Fault where
  /-- Raised by every access to the data space outside `0 .. DATA_SIZE - 1` (R44); `a` may be
  negative. Safe. -/
  | dataAddressOutOfRange (a : Int)
  /-- Raised by a fetch, an operand word, a skip's look-ahead, LPM, ELPM, the dispatch to a vector
  and the host's program writes outside program memory (R52, R53, R317, R357). Safe. -/
  | progAddressOutOfRange (i : Nat)
  /-- Raised by `queue_interrupt` and by the host's operations (R300). Safe. -/
  | configError (k : ConfigKind)
  /-- Raised by `step` on an unmatched first word when STRICT_DECODE is set (R229). Safe. -/
  | unmatchedOpcode (op : Word)
  deriving DecidableEq, Repr

/-- What the environment must not do inside a hook or callback (spec R49, R336). -/
inductive ForbiddenAct where
  | writePc
  | writeCycles
  | writeProgram
  | callStep
  | callTick
  | callReset
  deriving DecidableEq, Repr

/-- The runs the model gives no next state to. All are safe: the spec calls them runs to refuse or
steps that are not defined. -/
inductive Refusal where
  /-- An instruction that has no meaning yet; only the dispatch answers with it. Safe. -/
  | notModelled (mnemonic : String)
  /-- The environment did what its contract forbids in the call it was in (R49, R336, R227; U15,
  U16). Raised by `envRun`. Safe. -/
  | environmentBreaksContract
  /-- The environment was called and never returned: its input ends inside the call (R49, U30).
  Raised by `envRun`. Safe. -/
  | environmentDidNotReturn
  /-- An operation on a core that has aborted, which the spec does not define (R28, R362, U29).
  Raised by `step`, `tick` and the host's operations. Safe. -/
  | coreAborted
  deriving DecidableEq, Repr

/-- Whether the core runs (spec R28). -/
inductive Status where
  | running
  | aborted (reason : Fault)
  deriving DecidableEq, Repr

/-- An interrupt descriptor (spec R305). -/
structure Descriptor where
  vector : Nat
  flagReg : Nat
  flagMask : Byte
  enableReg : Nat
  enableMask : Byte
  inverseFlag : Bool
  constant : Bool
  deriving DecidableEq, Repr

/-- An entry of the clock event list (spec R25). -/
structure Event where
  target : Nat
  handle : Handle
  deriving DecidableEq, Repr

/-- The order of the two bytes of a 16-bit access (spec R43, R50). -/
inductive ByteOrder where
  /-- The low byte at the lower address. -/
  | little
  /-- The high byte at the lower address. -/
  | big
  deriving DecidableEq, Repr

/-- The operations on hooks, the interrupt controller, the scheduler and the memory file's 16-bit
accessors that the environment and the host may call (spec R7, R43, R46, R50, R310 to R314, R331 to
R333). -/
inductive DeviceOp where
  | setReadHook (a : Nat) (h : Handle)
  | clearReadHook (a : Nat)
  | setWriteHook (a : Nat) (h : Handle)
  | clearWriteHook (a : Nat)
  | setInterruptFlag (d : Descriptor)
  | updateInterruptEnable (d : Descriptor) (newValue : Byte)
  | queueInterrupt (d : Descriptor)
  | clearInterrupt (d : Descriptor) (clearFlag : Bool)
  | clearInterruptByFlag (d : Descriptor) (registerValue : Byte)
  | addClockEvent (h : Handle) (rel : Int)
  | clearClockEvent (h : Handle)
  | updateClockEvent (h : Handle) (rel : Int)
  | readWord (o : ByteOrder) (a : Nat)
  | writeWord (o : ByteOrder) (a : Nat) (v : Word)
  deriving DecidableEq, Repr

/-- One thing the environment does while a hook, callback or WDR notification of it runs
(spec R49, R336). What the environment does is an input of the run (log 5). -/
inductive EnvAct where
  /-- `read_data`: a hooked read, which may call a further hook. -/
  | readData (a : Nat)
  /-- `write_data`: a hooked write, which may call a further hook. -/
  | writeData (a : Nat) (v : Byte) (mask : Byte)
  /-- An operation on hooks, the controller or the scheduler, or a 16-bit access. -/
  | device (op : DeviceOp)
  /-- The innermost call returns: a read hook answers `value` (reduced modulo 256, U25), a write
  hook answers `handled`; the other kinds of call return nothing. -/
  | ret (value : Nat) (handled : Bool)
  /-- Something R49 and R336 forbid. -/
  | forbidden (act : ForbiddenAct)
  deriving DecidableEq, Repr

/-- A call of the environment as the core makes it, with its arguments and with `cycles` at that
moment (spec R47, R48, R334, R227, R373). -/
inductive EnvCall where
  | readHook (h : Handle) (a : Nat) (cycles : Nat)
  | writeHook (h : Handle) (v old : Byte) (a : Nat) (mask : Byte) (cycles : Nat)
  | callback (h : Handle) (cycles : Nat)
  | watchdogReset (cycles : Nat)
  deriving DecidableEq, Repr

/-- Data memory as plain data: the bytes that are not 0, by rising address (log 1). -/
abbrev Memory := List Host.Cell

/-- Program memory as plain data: the words that are not 0, by rising index (log 18). -/
abbrev Program := List (Nat × Word)

/-- The state of the core (spec `10_state.md`). -/
structure State where
  /-- What construction fixed (R3); no operation changes it. -/
  params : Params
  /-- The data space, registers included (R10, R40). -/
  data : Memory
  /-- Program memory (R21). -/
  prog : Program
  /-- The program counter, a word index (R18). -/
  pc : Nat
  /-- The cycle counter (R20). -/
  cycles : Nat
  /-- The pending-interrupt table: the vectors that hold a descriptor, rising (R23). -/
  pending : List (Nat × Descriptor)
  /-- The cached lowest pending vector (R24). -/
  lowestPending : Option Nat
  /-- The cached bound of the pending vectors (R24). -/
  highestBound : Nat
  /-- The clock events, by target from the head (R25, R330). -/
  events : List Event
  /-- The read hooks, by rising address (R27). -/
  readHooks : List (Nat × Handle)
  /-- The write hooks, by rising address (R27). -/
  writeHooks : List (Nat × Handle)
  /-- Running or aborted (R28). -/
  status : Status
  /-- The model's own: the clock event of the watchdog that listens to WDR, if one is attached
  (R227, log 6). -/
  watchdog : Option Handle
  /-- The model's own: what the environment will do when it is called, an input (log 5). -/
  envIn : List EnvAct
  /-- The model's own: the calls made to the environment, newest first (log 6). -/
  envOut : List EnvCall
  deriving DecidableEq, Repr

/-- The state right after `construct` (spec R30), for the standard parameters and a program whose
words are all 0: nothing is listed in either memory (log 2). Registers, SREG, SP, RAMPZ and EIND
are 0 (R30, D1). -/
def State.reset : State :=
  { params := Config.standard
    data := []
    prog := []
    pc := 0
    cycles := 0
    pending := []
    lowestPending := none
    highestBound := 0
    events := []
    readHooks := []
    writeHooks := []
    status := .running
    watchdog := none
    envIn := []
    envOut := [] }

end Sys2Proof.Machine
end

