-- ==== Sys2Proof/Machine/Table.lean ====
section
/-!
DEFINITION. Tables keyed by a number, as sorted lists: the data space, program memory, the pending
table and the hook tables are all held so. A memory is a table that lists no zero, so that equal
memories are equal lists.
-/

namespace Sys2Proof.Machine

/-- The entry of `t` at `k`, if there is one. -/
def Table.find {α : Type} : List (Nat × α) → Nat → Option α
  | [], _ => none
  | (k', v) :: t, k => if k' = k then some v else Table.find t k

/-- `t` with the entry at `k` set to `v`. -/
def Table.put {α : Type} : List (Nat × α) → Nat → α → List (Nat × α)
  | [], k, v => [(k, v)]
  | (k', v') :: t, k, v =>
    if k < k' then (k, v) :: (k', v') :: t
    else if k = k' then (k, v) :: t
    else (k', v') :: Table.put t k v

/-- `t` with no entry at `k`. -/
def Table.erase {α : Type} (t : List (Nat × α)) (k : Nat) : List (Nat × α) :=
  t.filter fun e => e.1 ≠ k

/-- The keys of `t` rise strictly. -/
abbrev Table.Sorted {α : Type} (t : List (Nat × α)) : Prop :=
  t.Pairwise fun x y => x.1 < y.1

/-- What a memory holds at `a`; an address that is not listed reads as 0 (spec R30, D1; log 1). -/
def Cells.read {w : Nat} (m : List (Nat × BitVec w)) (a : Nat) : BitVec w :=
  (Table.find m a).getD 0

/-- `m` with `v` stored at `a`; a zero is stored by listing nothing. -/
def Cells.write {w : Nat} (m : List (Nat × BitVec w)) (a : Nat) (v : BitVec w) :
    List (Nat × BitVec w) :=
  if v = 0 then Table.erase m a else Table.put m a v

/-- The canonical form of a memory of `size` cells: addresses rise strictly, lie below `size`, and
no listed cell holds what an unlisted one reads as. -/
abbrev Cells.wf {w : Nat} (size : Nat) (m : List (Nat × BitVec w)) : Prop :=
  Table.Sorted m ∧ ∀ c ∈ m, c.1 < size ∧ c.2 ≠ 0

/-- The canonical form of the data space (spec R40). -/
abbrev Memory.wf (size : Nat) (m : Memory) : Prop := Cells.wf size m

/-- The memory that holds the given values from address `a` up and 0 elsewhere. -/
def Cells.ofList {w : Nat} : Nat → List (BitVec w) → List (Nat × BitVec w)
  | _, [] => []
  | a, v :: vs => if v = 0 then Cells.ofList (a + 1) vs else (a, v) :: Cells.ofList (a + 1) vs

end Sys2Proof.Machine
end

