-- ==== Sys2Proof/Machine/Access.lean ====
section
/-!
DEFINITION. The one home of every register and of the two memories: how each is read and written,
raw (spec R10 to R22, R44, R50 to R53), and how operations that may stop are chained.
-/

namespace Sys2Proof.Machine

/-- The outcome of an operation: a result, an abort or a refusal. -/
abbrev Res (α : Type) : Type := Host.Outcome α Fault Refusal

/-- First `x`, then `f` on what it gives; a stop ends it. -/
def andThen {α β : Type} (x : Res α) (f : α → Res β) : Res β :=
  match x with
  | .next a => f a
  | .fault r => .fault r
  | .refused r => .refused r

/-! ## The parameters (spec R3) -/

def State.dataSize (s : State) : Nat := s.params.dataSize

def State.progWords (s : State) : Nat := s.params.progWords

def State.pc22 (s : State) : Bool := s.params.pc22

def State.retBytes (s : State) : Nat := s.params.retBytes

/-! ## The data space, raw (spec R40, R44) -/

/-- `data[a]`, for an address known to be in range. -/
def State.peek (s : State) (a : Nat) : Byte := Cells.read s.data a

/-- `data[a] <- v`, for an address known to be in range. -/
def State.poke (s : State) (a : Nat) (v : Byte) : State :=
  { s with data := Cells.write s.data a v }

/-- Whether `a` is an address of the data space (spec R44). -/
def State.inData (s : State) (a : Int) : Bool := decide (0 ≤ a) && decide (a < s.dataSize)

/-- A raw read with its bounds check (spec R44). -/
def rawRead (a : Int) (s : State) : Res Byte :=
  if s.inData a then .next (s.peek a.toNat) else .fault (.dataAddressOutOfRange a)

/-- A raw write with its bounds check (spec R44). -/
def rawWrite (a : Int) (v : Byte) (s : State) : Res State :=
  if s.inData a then .next (s.poke a.toNat v) else .fault (.dataAddressOutOfRange a)

/-! ## The 16-bit accessors (spec R43, R50)

Two raw byte accesses at `a` and `a + 1`, each with its bounds check (log 28). The core's own 16-bit
quantities are little-endian and lie inside every data space: `State.pair` and `State.setPair`. -/

/-- The 16-bit value of the bytes `b0` at an address and `b1` after it. -/
def ByteOrder.join (o : ByteOrder) (b0 b1 : Byte) : Word :=
  match o with
  | .little => word b0 b1
  | .big => word b1 b0

/-- The byte of `v` that goes to the lower address. -/
def ByteOrder.first (o : ByteOrder) (v : Word) : Byte :=
  match o with
  | .little => lowByte v
  | .big => highByte v

/-- The byte of `v` that goes to the higher address. -/
def ByteOrder.second (o : ByteOrder) (v : Word) : Byte :=
  match o with
  | .little => highByte v
  | .big => lowByte v

/-- Reads a 16-bit value. -/
def readWord (o : ByteOrder) (a : Nat) (s : State) : Res Word :=
  andThen (rawRead a s) fun b0 =>
  andThen (rawRead ((a : Int) + 1) s) fun b1 => .next (o.join b0 b1)

/-- Writes a 16-bit value, the byte at the lower address first. -/
def writeWord (o : ByteOrder) (a : Nat) (v : Word) (s : State) : Res State :=
  andThen (rawWrite a (o.first v) s) fun s1 => rawWrite ((a : Int) + 1) (o.second v) s1

/-! ## Registers (spec R10, R12) -/

/-- `R[r]`. -/
def State.reg (s : State) (r : Reg) : Byte := s.peek r.val

/-- `R[r] <- v`. -/
def State.setReg (s : State) (r : Reg) (v : Byte) : State := s.poke r.val v

/-- The 16-bit pair whose low byte is at `lo`, an address below 95 (spec R12, R50). -/
def State.pair (s : State) (lo : Nat) : Word := word (s.peek lo) (s.peek (lo + 1))

/-- Writes both bytes of a pair, the low one first (spec R12, R50). -/
def State.setPair (s : State) (lo : Nat) (v : Word) : State :=
  (s.poke lo (lowByte v)).poke (lo + 1) (highByte v)

/-! ## The registers that the core keeps in the data space (spec R14, R16, R17, R62) -/

abbrev addrRampz : Nat := 0x5B
abbrev addrEind : Nat := 0x5C
abbrev addrSp : Nat := 93
abbrev addrSreg : Nat := 95

/-- SREG (spec R14). -/
def State.sreg (s : State) : Byte := s.peek addrSreg

def State.setSreg (s : State) (v : Byte) : State := s.poke addrSreg v

/-- SREG changed by a flag computation. -/
def State.updateSreg (s : State) (f : Byte → Byte) : State := s.setSreg (f s.sreg)

/-- `SREG[i]`. -/
def State.flag (s : State) (i : Nat) : Bool := bit s.sreg i

/-- `SREG[i] <- b`, the other bits kept. -/
def State.setFlag (s : State) (i : Nat) (b : Bool) : State := s.updateSreg fun v => putBit v i b

/-- SP (spec R16). -/
def State.sp (s : State) : Word := s.pair addrSp

def State.setSp (s : State) (v : Word) : State := s.setPair addrSp v

/-- RAMPZ (spec R17). -/
def State.rampz (s : State) : Byte := s.peek addrRampz

/-- EIND (spec R17). -/
def State.eind (s : State) : Byte := s.peek addrEind

/-! ## Program counter and cycle counter (spec R18 to R20) -/

/-- `pc <- t`: the value stored is `t mod PROG_WORDS`, never negative (spec R19, D3). -/
def State.setPc (s : State) (t : Int) : State :=
  { s with pc := (t % (s.progWords : Int)).toNat }

/-- `cycles += n` (spec R20). -/
def State.addCycles (s : State) (n : Nat) : State := { s with cycles := s.cycles + n }

/-- The end of an instruction that transfers control to `t` and adds `n` cycles. -/
def State.jump (s : State) (t : Int) (n : Nat) : State := (s.setPc t).addCycles n

/-- The end of an instruction of `words` words that adds `n` cycles (spec R89). -/
def State.advance (s : State) (words n : Nat) : State := s.jump ((s.pc : Int) + words) n

/-! ## Program memory (spec R52, R53) -/

/-- `ProgWord(i)` (spec R52). -/
def progWord (i : Nat) (s : State) : Res Word :=
  if i < s.progWords then .next (Cells.read s.prog i) else .fault (.progAddressOutOfRange i)

/-- `ProgByte(b)`: the low byte of the word at an even address, the high byte at an odd one
(spec R53). -/
def progByte (b : Nat) (s : State) : Res Byte :=
  if b < s.params.progBytes then
    let w : Word := Cells.read s.prog (b / 2)
    .next (if b % 2 = 0 then lowByte w else highByte w)
  else .fault (.progAddressOutOfRange b)

end Sys2Proof.Machine
end

