-- ==== Sys2Proof/Machine/Interrupts.lean ====
section
/-!
DEFINITION. The interrupt controller's operations (spec `60_exceptions.md` R305 to R314). Flag and
enable registers are accessed raw (R51, R305).
-/

namespace Sys2Proof.Machine

/-- `flag_holds(d)`, from the byte in the flag register (spec section 3 of `60_exceptions.md`). -/
def flagHolds (d : Descriptor) (flags : Byte) : Bool := (flags &&& d.flagMask != 0) ^^ d.inverseFlag

/-- `queue_interrupt(d)` (spec R312). -/
def queueInterrupt (d : Descriptor) (s : State) : Res State :=
  if d.vector < s.params.maxVectors then
    .next { s with
      pending := Table.put s.pending d.vector d
      lowestPending :=
        match s.lowestPending with
        | none => some d.vector
        | some v => if d.vector < v then some d.vector else some v
      highestBound := if s.highestBound < d.vector then d.vector else s.highestBound }
  else .fault (.configError .vectorOutOfTable)

/-- Clears the flag bits of `d` to 0, whatever `inverse_flag` says (spec R313, `90_conflicts.md`
C12). -/
def clearFlagBits (d : Descriptor) (s : State) : Res State :=
  andThen (rawRead d.flagReg s) fun v => rawWrite d.flagReg (v &&& ~~~ d.flagMask) s

/-- The least pending vector above `v` and not above `highest_bound` (spec R313). -/
def nextPending (s : State) (v : Nat) : Option Nat :=
  (s.pending.find? fun e => decide (v < e.1) && decide (e.1 ≤ s.highestBound)).map (·.1)

/-- Removes the entry at a vector and rescans if it was the lowest (spec R313). -/
def removePending (v : Nat) (s : State) : State :=
  match Table.find s.pending v with
  | none => s
  | some _ =>
    let s1 := { s with pending := Table.erase s.pending v }
    if s.lowestPending = some v then { s1 with lowestPending := nextPending s1 v } else s1

/-- `clear_interrupt(d, clear_flag)` (spec R313). -/
def clearInterrupt (d : Descriptor) (clearFlag : Bool) (s : State) : Res State :=
  andThen (if clearFlag then clearFlagBits d s else .next s) fun s1 =>
    .next (removePending d.vector s1)

/-- `set_interrupt_flag(d)` (spec R310). -/
def setInterruptFlag (d : Descriptor) (s : State) : Res State :=
  andThen (rawRead d.flagReg s) fun v =>
  andThen
    (rawWrite d.flagReg (if d.inverseFlag then v &&& ~~~ d.flagMask else v ||| d.flagMask) s)
    fun s1 =>
  andThen (rawRead d.enableReg s1) fun e =>
  if e &&& d.enableMask != 0 then queueInterrupt d s1 else .next s1

/-- `update_interrupt_enable(d, new_value)` (spec R311). -/
def updateInterruptEnable (d : Descriptor) (newValue : Byte) (s : State) : Res State :=
  if newValue &&& d.enableMask != 0 then
    andThen (rawRead d.flagReg s) fun v =>
    if flagHolds d v then queueInterrupt d s else .next s
  else clearInterrupt d false s

/-- `clear_interrupt_by_flag(d, register_value)` (spec R314). -/
def clearInterruptByFlag (d : Descriptor) (registerValue : Byte) (s : State) : Res State :=
  if registerValue &&& d.flagMask != 0 then
    andThen (clearFlagBits d s) fun s1 => clearInterrupt d true s1
  else .next s

end Sys2Proof.Machine
end

