-- ==== Sys2Proof/Machine/Scheduler.lean ====
section
/-!
DEFINITION. The clock event scheduler's list operations (spec `60_exceptions.md` R330 to R333). The
node pool is no state (R338).
-/

namespace Sys2Proof.Machine

/-- Inserts in front of the first entry whose target is not less (spec R331). -/
def insertEvent (e : Event) : List Event → List Event
  | [] => [e]
  | x :: xs => if x.target < e.target then x :: insertEvent e xs else e :: x :: xs

/-- `list` without the first entry of handle `h` (spec R332). -/
def removeEvent (h : Handle) : List Event → List Event
  | [] => []
  | x :: xs => if x.handle = h then xs else x :: removeEvent h xs

/-- Whether an entry of handle `h` is in the list: the answer of `clear_clock_event` and
`update_clock_event` (spec R332, R333). -/
def hasEvent (h : Handle) (events : List Event) : Bool := events.any fun e => e.handle == h

/-- `add_clock_event(h, rel)` (spec R331). -/
def addClockEvent (h : Handle) (rel : Int) (s : State) : State :=
  { s with events := insertEvent ⟨s.cycles + (max 1 rel).toNat, h⟩ s.events }

/-- `clear_clock_event(h)` (spec R332). -/
def clearClockEvent (h : Handle) (s : State) : State :=
  { s with events := removeEvent h s.events }

/-- `update_clock_event(h, rel)` (spec R333). -/
def updateClockEvent (h : Handle) (rel : Int) (s : State) : State :=
  if hasEvent h s.events then addClockEvent h rel (clearClockEvent h s) else s

end Sys2Proof.Machine
end

