-- ==== Sys2Proof/Machine/Environment.lean ====
section
/-!
DEFINITION. Calls of the environment and the hooked accesses that make them (spec R46 to R49, R336,
R227). What the environment does is read from `State.envIn` (log 5); a call and its arguments are
recorded in `State.envOut` (log 6).
-/

namespace Sys2Proof.Machine

/-- The effect of an operation on hooks, controller or scheduler, or of a 16-bit access (spec R46,
R50, R310 to R314, R331 to R333). What a read returns goes to the caller (log 24). -/
def deviceOp : DeviceOp → State → Res State
  | .setReadHook a h, s => .next { s with readHooks := Table.put s.readHooks a h }
  | .clearReadHook a, s => .next { s with readHooks := Table.erase s.readHooks a }
  | .setWriteHook a h, s => .next { s with writeHooks := Table.put s.writeHooks a h }
  | .clearWriteHook a, s => .next { s with writeHooks := Table.erase s.writeHooks a }
  | .setInterruptFlag d, s => setInterruptFlag d s
  | .updateInterruptEnable d v, s => updateInterruptEnable d v s
  | .queueInterrupt d, s => queueInterrupt d s
  | .clearInterrupt d c, s => clearInterrupt d c s
  | .clearInterruptByFlag d v, s => clearInterruptByFlag d v s
  | .addClockEvent h rel, s => .next (addClockEvent h rel s)
  | .clearClockEvent h, s => .next (clearClockEvent h s)
  | .updateClockEvent h rel, s => .next (updateClockEvent h rel s)
  | .readWord o a, s => andThen (readWord o a s) fun _ => .next s
  | .writeWord o a v, s => writeWord o a v s

/-- The kind of the outermost call, which decides what the environment may do in it. -/
inductive Contract where
  /-- A read or write hook (spec R49). -/
  | hook
  /-- A clock-event callback, with the handle that is firing (spec R336, D19). -/
  | callback (firing : Handle)
  /-- The WDR notification, with the clock event of the watchdog (spec R227). -/
  | watchdog (own : Handle)
  deriving DecidableEq, Repr

/-- What the environment may do under a contract. -/
def Contract.permits : Contract → EnvAct → Bool
  | _, .forbidden _ => false
  | _, .ret _ _ => true
  | .hook, _ => true
  | .callback h, .device (.clearClockEvent h') => h' != h
  | .callback h, .device (.updateClockEvent h' _) => h' != h
  | .callback _, _ => true
  | .watchdog h, .device (.addClockEvent h' _) => h' == h
  | .watchdog h, .device (.clearClockEvent h') => h' == h
  | .watchdog h, .device (.updateClockEvent h' _) => h' == h
  | .watchdog _, _ => false

/-- A hook call made from inside a call of the environment, and what is left to do when it
returns. -/
inductive Frame where
  /-- A `read_data` of the environment: the answer goes to the environment. -/
  | read
  /-- A `write_data` of the environment: the default store is left (spec R48). -/
  | write (a : Nat) (v : Byte)
  deriving DecidableEq, Repr

/-- What a call of the environment returns. -/
structure Reply where
  value : Nat
  handled : Bool
  deriving DecidableEq, Repr

/-- The read hook that a read of `a` consults: none below 32 (spec R47). -/
def readHookAt (s : State) (a : Nat) : Option Handle :=
  if 31 < a then Table.find s.readHooks a else none

/-- The write hook that a write of `a` consults (spec R48). -/
def writeHookAt (s : State) (a : Nat) : Option Handle := Table.find s.writeHooks a

/-- Records a call of the environment. -/
def State.logCall (s : State) (c : EnvCall) : State := { s with envOut := c :: s.envOut }

/-- The read-hook call of `MemRead(a)`. -/
def readCall (h : Handle) (a : Nat) (s : State) : EnvCall := .readHook h a s.cycles

/-- The write-hook call of `MemWrite(a, v, mask)`: new value, value stored, address, mask
(spec R48). -/
def writeCall (h : Handle) (a : Nat) (v mask : Byte) (s : State) : EnvCall :=
  .writeHook h v (s.peek a) a mask s.cycles

/-- What is left of a write after its hook returned: the default store, of the value as it was
passed (spec R48). -/
def finishWrite (a : Nat) (v : Byte) (handled : Bool) (s : State) : State :=
  if handled then s else s.poke a v

/-- What is left to do when an inner hook call returns. -/
def Frame.finish : Frame → Bool → State → State
  | .read, _, s => s
  | .write a v, handled, s => finishWrite a v handled s

/-- The environment runs: its acts are taken from the input until the outermost call returns;
`frames` are the inner hook calls that have not returned, the innermost first. Gives the reply and
the state, in which `envIn` is what is left of the input. -/
def envRun (c : Contract) : List EnvAct → List Frame → State → Res (Reply × State)
  | [], _, _ => .refused .environmentDidNotReturn
  | act :: rest, frames, s =>
    if c.permits act then
      match act with
      | .ret value handled =>
        match frames with
        | [] => .next (⟨value, handled⟩, { s with envIn := rest })
        | f :: fs => envRun c rest fs (f.finish handled s)
      | .readData a =>
        if a < s.dataSize then
          match readHookAt s a with
          | some h => envRun c rest (.read :: frames) (s.logCall (readCall h a s))
          | none => envRun c rest frames s
        else .fault (.dataAddressOutOfRange a)
      | .writeData a v mask =>
        if a < s.dataSize then
          match writeHookAt s a with
          | some h => envRun c rest (.write a v :: frames) (s.logCall (writeCall h a v mask s))
          | none => envRun c rest frames (s.poke a v)
        else .fault (.dataAddressOutOfRange a)
      | .device op => andThen (deviceOp op s) fun s1 => envRun c rest frames s1
      | .forbidden _ => .refused .environmentBreaksContract
    else .refused .environmentBreaksContract

/-- One call of the environment (spec R49, R336, R227). -/
def callEnv (c : Contract) (call : EnvCall) (s : State) : Res (Reply × State) :=
  envRun c s.envIn [] (s.logCall call)

/-- `MemRead(a)` (spec R47). -/
def memRead (a : Nat) (s : State) : Res (Byte × State) :=
  if a < s.dataSize then
    match readHookAt s a with
    | some h =>
      andThen (callEnv .hook (readCall h a s) s) fun r => .next (BitVec.ofNat 8 r.1.value, r.2)
    | none => .next (s.peek a, s)
  else .fault (.dataAddressOutOfRange a)

/-- `MemWrite(a, v, mask)` (spec R48). -/
def memWrite (a : Nat) (v mask : Byte) (s : State) : Res State :=
  if a < s.dataSize then
    match writeHookAt s a with
    | some h =>
      andThen (callEnv .hook (writeCall h a v mask s) s) fun r =>
        .next (finishWrite a v r.1.handled r.2)
    | none => .next (s.poke a v)
  else .fault (.dataAddressOutOfRange a)

/-- The mask of a write of a whole byte (spec R48). -/
abbrev fullMask : Byte := 0xFF

/-- `emit WatchdogReset` (spec R227): the notification, and the reaction of an attached
watchdog. -/
def notifyWatchdog (s : State) : Res State :=
  match s.watchdog with
  | none => .next (s.logCall (.watchdogReset s.cycles))
  | some h => andThen (callEnv (.watchdog h) (.watchdogReset s.cycles) s) fun r => .next r.2

end Sys2Proof.Machine
end

