-- ==== Sys2Proof/Machine/Flags.lean ====
section
/-!
DEFINITION. Every flag computation of the instruction set: SREG before to SREG after
(spec R14, R15, R100, R101, R105, R110, R114 to R116, R120, R126, R127, R135).
-/

namespace Sys2Proof.Machine

/-! ## Bit numbers of SREG (spec R14) -/

abbrev flagC : Nat := 0
abbrev flagZ : Nat := 1
abbrev flagN : Nat := 2
abbrev flagV : Nat := 3
abbrev flagS : Nat := 4
abbrev flagH : Nat := 5
abbrev flagT : Nat := 6
abbrev flagI : Nat := 7

/-! ## The four sets of flags that instructions write (spec R15) -/

/-- Z and C alone. -/
def putZC (z c : Bool) (sreg : Byte) : Byte := putBit (putBit sreg flagZ z) flagC c

/-- S V N Z, with `S <- N ^ V`. -/
def putSVNZ (v n z : Bool) (sreg : Byte) : Byte :=
  putBit (putBit (putBit (putBit sreg flagV v) flagN n) flagZ z) flagS (n ^^ v)

/-- S V N Z C. -/
def putSVNZC (v n z c : Bool) (sreg : Byte) : Byte := putBit (putSVNZ v n z sreg) flagC c

/-- H S V N Z C. -/
def putHSVNZC (h v n z c : Bool) (sreg : Byte) : Byte := putBit (putSVNZC v n z c sreg) flagH h

/-! ## The computations -/

/-- `AddFlags(d, r, R)` (spec R100). -/
def addFlags (d r R : Byte) (sreg : Byte) : Byte :=
  putHSVNZC
    ((bit d 3 && bit r 3) || (bit r 3 && !bit R 3) || (!bit R 3 && bit d 3))
    ((bit d 7 && bit r 7 && !bit R 7) || (!bit d 7 && !bit r 7 && bit R 7))
    (bit R 7)
    (R == 0)
    ((bit d 7 && bit r 7) || (bit r 7 && !bit R 7) || (!bit R 7 && bit d 7))
    sreg

/-- `SubFlags(d, r, R, keepZ)` (spec R101). -/
def subFlags (d r R : Byte) (keepZ : Bool) (sreg : Byte) : Byte :=
  putHSVNZC
    ((!bit d 3 && bit r 3) || (bit r 3 && bit R 3) || (bit R 3 && !bit d 3))
    ((bit d 7 && !bit r 7 && !bit R 7) || (!bit d 7 && bit r 7 && bit R 7))
    (bit R 7)
    (if keepZ then R == 0 && bit sreg flagZ else R == 0)
    ((!bit d 7 && bit r 7) || (bit r 7 && bit R 7) || (bit R 7 && !bit d 7))
    sreg

/-- The flags of ADIW, from the pair before and after (spec R105). -/
def adiwFlags (v R : Word) (sreg : Byte) : Byte :=
  putSVNZC (!v.getLsbD 15 && R.getLsbD 15) (R.getLsbD 15) (R == 0)
    (!R.getLsbD 15 && v.getLsbD 15) sreg

/-- The flags of SBIW (spec R110). -/
def sbiwFlags (v R : Word) (sreg : Byte) : Byte :=
  putSVNZC (v.getLsbD 15 && !R.getLsbD 15) (R.getLsbD 15) (R == 0)
    (R.getLsbD 15 && !v.getLsbD 15) sreg

/-- The flags of NEG, from the operand and the result (spec R114). -/
def negFlags (a R : Byte) (sreg : Byte) : Byte :=
  putHSVNZC (bit R 3 || bit a 3) (R == 0x80) (bit R 7) (R == 0) (R != 0) sreg

/-- The flags of INC (spec R115). -/
def incFlags (R : Byte) (sreg : Byte) : Byte := putSVNZ (R == 0x80) (bit R 7) (R == 0) sreg

/-- The flags of DEC (spec R116). -/
def decFlags (R : Byte) (sreg : Byte) : Byte := putSVNZ (R == 0x7F) (bit R 7) (R == 0) sreg

/-- `LogicFlags(R)` (spec R120). -/
def logicFlags (R : Byte) (sreg : Byte) : Byte := putSVNZ false (bit R 7) (R == 0) sreg

/-- The flags of COM: `LogicFlags`, and C set (spec R126). -/
def comFlags (R : Byte) (sreg : Byte) : Byte := putBit (logicFlags R sreg) flagC true

/-- `ShiftRightFlags(a, R)`: V is computed from the new N and the new C (spec R127). -/
def shiftRightFlags (a R : Byte) (sreg : Byte) : Byte :=
  putSVNZC (bit R 7 ^^ bit a 0) (bit R 7) (R == 0) (bit a 0) sreg

/-- The flags of the multiplies: C is bit 15 of the product before any doubling, Z tests the
16 bits stored (spec R135). -/
def mulFlags (product stored : Word) (sreg : Byte) : Byte :=
  putZC (stored == 0) (product.getLsbD 15) sreg

end Sys2Proof.Machine
end

