-- ==== Sys2Proof/Machine/Operands.lean ====
section
/-!
DEFINITION. Operand forms: pointers and their three addressing modes, I/O addresses, extended
addresses and jump targets (spec R12, R42, R75, R164, R190, R205).
-/

namespace Sys2Proof.Machine

/-! ## Pointers (spec R12) -/

/-- The data address of the low byte of each pointer pair. -/
abbrev addrX : Nat := 26
abbrev addrY : Nat := 28
abbrev addrZ : Nat := 30

def State.x (s : State) : Word := s.pair addrX

def State.y (s : State) : Word := s.pair addrY

def State.z (s : State) : Word := s.pair addrZ

def State.setX (s : State) (v : Word) : State := s.setPair addrX v

def State.setY (s : State) (v : Word) : State := s.setPair addrY v

def State.setZ (s : State) (v : Word) : State := s.setPair addrZ v

/-- Post-increment: the pointer written back, modulo 65536 (spec R164, D31). -/
def incremented (p : Word) : Word := p + 1

/-- Pre-decrement: the pointer used and written back, modulo 65536 (spec R164, D31). -/
def decremented (p : Word) : Word := p - 1

/-- Displacement: `p + q`, `q` unsigned, not reduced modulo 65536 (spec R164, D5, D11). -/
def displaced (p : Word) (q : Fin 64) : Nat := p.toNat + q.val

/-! ## I/O addresses (spec R42, R75) -/

/-- The data address of an I/O address. -/
def ioAddress (a : Nat) : Nat := a + 32

/-! ## Extended addresses (spec R190, R205) -/

/-- `RAMPZ:Z`, the byte address of ELPM. -/
def elpmAddress (s : State) : Nat := s.rampz.toNat * 65536 + s.z.toNat

/-- `EIND:Z`, the target of EIJMP and EICALL. -/
def eindTarget (s : State) : Nat := s.eind.toNat * 65536 + s.z.toNat

/-- The write-back of `ELPM Rd, Z+` from address `e`: 24 bits, the carry into RAMPZ
(spec R196). -/
def setElpmAddress (e : Nat) (s : State) : State :=
  (s.setZ (BitVec.ofNat 16 (e % 2 ^ 24))).poke addrRampz (BitVec.ofNat 8 (e % 2 ^ 24 / 65536))

/-! ## Relative targets (spec R75, R203, R213) -/

/-- `pc + 1 + sext_N(k)`. -/
def relTarget {n : Nat} (s : State) (k : BitVec n) : Int := (s.pc : Int) + 1 + offset k

end Sys2Proof.Machine
end

