-- ==== Sys2Proof/Machine/Ops.lean ====
section
/-!
DEFINITION. The operations that instructions and the tick share: loads and stores, the stack, the
skip, taking an interrupt and returning from one.
-/

namespace Sys2Proof.Machine

/-! ## Loads and stores (spec R164, R373)

`n` is the instruction's cost and `p` its phase: its early cycles are added before the access. -/

/-- IN, LD, LDD and LDS of `words` words: `R[d] <- MemRead(a)`, then what `writeBack` does to the
pointer. -/
def load (p : Phase) (n words : Nat) (d : Reg) (a : Nat) (writeBack : State → State) (s : State) :
    Res State :=
  andThen (memRead a (s.addCycles (early p n))) fun (v, s1) =>
  .next ((writeBack (s1.setReg d v)).advance words (n - early p n))

/-- OUT, ST, STD and STS of `words` words: `MemWrite(a, v)`, then what `writeBack` does to the
pointer. -/
def store (p : Phase) (n words : Nat) (a : Nat) (v : Byte) (writeBack : State → State)
    (s : State) : Res State :=
  andThen (memWrite a v fullMask (s.addCycles (early p n))) fun s1 =>
  .next ((writeBack s1).advance words (n - early p n))

/-- An access at the displaced address `a` = Y + q. Every `a >= 65536` is out of range (spec R170,
D5), also where the data space goes on beyond it (log 30). -/
def atDisplaced (a : Nat) (access : Res State) : Res State :=
  if a < 65536 then access else .fault (.dataAddressOutOfRange a)

/-- A hooked read of `a` and then a hooked write to it of the byte that `f` makes of the byte read
and the state after the read; gives the byte read. -/
def readWrite (p : ReadWritePhase) (n : Nat) (a : Nat) (f : Byte → State → Byte) (mask : Byte)
    (s : State) : Res (Byte × State) :=
  andThen (memRead a (s.addCycles (earlyRead p n))) fun (old, s1) =>
  andThen (memWrite a (f old s1) mask (s1.addCycles (earlyWrite p n))) fun s2 => .next (old, s2)

/-- The read-modify-write through Z: `f` combines the register and the old byte into the byte that
is written, and the register gets the old byte (spec R183 to R186). -/
def exchangeZ (p : ReadWritePhase) (n : Nat) (d : Reg) (f : Byte → Byte → Byte) (s : State) :
    Res State :=
  andThen (readWrite p n s.z.toNat (fun old s1 => f (s1.reg d) old) fullMask s)
    fun (old, s1) => .next ((s1.setReg d old).advance 1 (lateCycles p n))

/-! ## The stack (spec R160, R161, R200, R201) -/

/-- `data[SP] <- v ; SP <- SP - 1`, raw (spec R160). -/
def pushByte (v : Byte) (s : State) : Res State :=
  andThen (rawWrite s.sp.toNat v s) fun s1 => .next (s1.setSp (s1.sp - 1))

/-- `SP <- SP + 1`, then `data[SP]`, raw (spec R161). -/
def popByte (s : State) : Res (Byte × State) :=
  let s1 := s.setSp (s.sp + 1)
  andThen (rawRead s1.sp.toNat s1) fun v => .next (v, s1)

/-- `PushRet(ret)`: the low byte at the highest address (spec R200). -/
def pushRet (ret : Nat) (s : State) : Res State :=
  let r := ret % s.progWords
  let sp := s.sp
  andThen (rawWrite sp.toNat (byteOf r 0) s) fun s1 =>
  andThen (rawWrite ((sp.toNat : Int) - 1) (byteOf r 1) s1) fun s2 =>
  andThen (if s.pc22 then rawWrite ((sp.toNat : Int) - 2) (byteOf r 2) s2 else .next s2) fun s3 =>
  .next (s3.setSp (sp - BitVec.ofNat 16 s.retBytes))

/-- `PopRet()` (spec R201). -/
def popRet (s : State) : Res (Nat × State) :=
  let i := s.sp + BitVec.ofNat 16 s.retBytes
  andThen (rawRead i.toNat s) fun b0 =>
  andThen (rawRead ((i.toNat : Int) - 1) s) fun b1 =>
  andThen (if s.pc22 then rawRead ((i.toNat : Int) - 2) s else .next 0) fun b2 =>
  .next (b0.toNat + 256 * b1.toNat + 65536 * b2.toNat, s.setSp i)

/-! ## Skips (spec R215) -/

/-- `Skip(cond)` with the costs `c`: the look-ahead word is read only when the condition holds. -/
def skip (c : SkipCost) (cond : Bool) (s : State) : Res State :=
  if cond then
    andThen (progWord (s.pc + 1) s) fun nxt =>
    let n := if isTwoWord nxt then 2 else 1
    .next (s.advance (1 + n) (skipCost c n))
  else .next (s.advance 1 (skipCost c 0))

/-! ## Taking an interrupt and returning from one (spec R317, R212) -/

/-- The interrupt entry for the descriptor `d` (spec R317): the return address is pushed, I is
cleared, the 2 cycles of `COST` are added, `pc` becomes the vector, and the interrupt is cleared
unless it is `constant`. Nothing else is saved. -/
def takeInterrupt (d : Descriptor) (s : State) : Res State :=
  if d.vector < s.progWords then
    andThen (pushRet s.pc s) fun s1 =>
    let s2 := ((s1.setFlag flagI false).addCycles s.params.cost.dispatch).setPc d.vector
    if d.constant then .next s2 else clearInterrupt d true s2
  else .fault (.progAddressOutOfRange d.vector)

/-- The return from an interrupt (spec R212): pops `pc` and sets I; it restores nothing else. -/
def returnFromInterrupt (s : State) : Res State :=
  andThen (popRet s) fun (v, s1) => .next ((s1.setPc v).setFlag flagI true)

end Sys2Proof.Machine
end

