-- ==== Sys2Proof/Machine/Arithmetic.lean ====
section
/-!
DEFINITION. The arithmetic and compare instructions (spec `40_arithmetic.md`).
-/

namespace Sys2Proof.Machine

/-- A register instruction of cost `n`: `R[d] <- v`, SREG by `flags`. -/
def writeResult (n : Nat) (d : Reg) (v : Byte) (flags : Byte → Byte) (s : State) : Res State :=
  .next (((s.setReg d v).updateSreg flags).advance 1 n)

/-- A compare of cost `n`: SREG by `flags`, no register written. -/
def writeFlags (n : Nat) (flags : Byte → Byte) (s : State) : Res State :=
  .next ((s.updateSreg flags).advance 1 n)

/-- A word instruction of cost `n` on the pair at `p`. -/
def writePair (n : Nat) (p : Reg) (v : Word) (flags : Byte → Byte) (s : State) : Res State :=
  .next (((s.setPair p.val v).updateSreg flags).advance 1 n)

/-- ADD (spec R103). -/
def execAdd (d r : Reg) (s : State) : Res State :=
  let a := s.reg d
  let b := s.reg r
  let R := a + b
  writeResult s.params.cost.add d R (addFlags a b R) s

/-- ADC (spec R104). -/
def execAdc (d r : Reg) (s : State) : Res State :=
  let a := s.reg d
  let b := s.reg r
  let R := a + b + bitByte (s.flag flagC)
  writeResult s.params.cost.adc d R (addFlags a b R) s

/-- ADIW (spec R105). -/
def execAdiw (p : Reg) (k : BitVec 6) (s : State) : Res State :=
  let v := s.pair p.val
  let R := v + k.setWidth 16
  writePair s.params.cost.adiw p R (adiwFlags v R) s

/-- SUB (spec R106). -/
def execSub (d r : Reg) (s : State) : Res State :=
  let a := s.reg d
  let b := s.reg r
  let R := a - b
  writeResult s.params.cost.sub d R (subFlags a b R false) s

/-- SUBI (spec R107). -/
def execSubi (d : Reg) (k : Byte) (s : State) : Res State :=
  let a := s.reg d
  let R := a - k
  writeResult s.params.cost.subi d R (subFlags a k R false) s

/-- SBC (spec R108). -/
def execSbc (d r : Reg) (s : State) : Res State :=
  let a := s.reg d
  let b := s.reg r
  let R := a - b - bitByte (s.flag flagC)
  writeResult s.params.cost.sbc d R (subFlags a b R true) s

/-- SBCI (spec R109). -/
def execSbci (d : Reg) (k : Byte) (s : State) : Res State :=
  let a := s.reg d
  let R := a - k - bitByte (s.flag flagC)
  writeResult s.params.cost.sbci d R (subFlags a k R true) s

/-- SBIW (spec R110). -/
def execSbiw (p : Reg) (k : BitVec 6) (s : State) : Res State :=
  let v := s.pair p.val
  let R := v - k.setWidth 16
  writePair s.params.cost.sbiw p R (sbiwFlags v R) s

/-- CP (spec R111). -/
def execCp (d r : Reg) (s : State) : Res State :=
  let a := s.reg d
  let b := s.reg r
  writeFlags s.params.cost.cp (subFlags a b (a - b) false) s

/-- CPC (spec R112). -/
def execCpc (d r : Reg) (s : State) : Res State :=
  let a := s.reg d
  let b := s.reg r
  writeFlags s.params.cost.cpc (subFlags a b (a - b - bitByte (s.flag flagC)) true) s

/-- CPI (spec R113). -/
def execCpi (d : Reg) (k : Byte) (s : State) : Res State :=
  let a := s.reg d
  writeFlags s.params.cost.cpi (subFlags a k (a - k) false) s

/-- NEG (spec R114). -/
def execNeg (d : Reg) (s : State) : Res State :=
  let a := s.reg d
  let R := 0 - a
  writeResult s.params.cost.neg d R (negFlags a R) s

/-- INC (spec R115). -/
def execInc (d : Reg) (s : State) : Res State :=
  let R := s.reg d + 1
  writeResult s.params.cost.inc d R (incFlags R) s

/-- DEC (spec R116). -/
def execDec (d : Reg) (s : State) : Res State :=
  let R := s.reg d - 1
  writeResult s.params.cost.dec d R (decFlags R) s

end Sys2Proof.Machine
end

