-- ==== Sys2Proof/Machine/BitOps.lean ====
section
/-!
DEFINITION. The bit and status-register instructions (spec `43_bit.md`).
-/

namespace Sys2Proof.Machine

/-- BSET (spec R145). -/
def execBset (f : BitNo) (s : State) : Res State :=
  .next ((s.setFlag f.val true).advance 1 s.params.cost.bset)

/-- BCLR (spec R146). -/
def execBclr (f : BitNo) (s : State) : Res State :=
  .next ((s.setFlag f.val false).advance 1 s.params.cost.bclr)

/-- BST (spec R147). -/
def execBst (d : Reg) (b : BitNo) (s : State) : Res State :=
  .next ((s.setFlag flagT (bit (s.reg d) b.val)).advance 1 s.params.cost.bst)

/-- BLD (spec R148). -/
def execBld (d : Reg) (b : BitNo) (s : State) : Res State :=
  .next ((s.setReg d (putBit (s.reg d) b.val (s.flag flagT))).advance 1 s.params.cost.bld)

/-- The read and the write of SBI and CBI: `f` makes the byte that is written from the byte read,
and the mask has bit `b` alone (spec R149, R150). -/
def modifyIo (p : ReadWritePhase) (n : Nat) (a : Fin 32) (b : BitNo) (f : Byte → Byte)
    (s : State) : Res State :=
  andThen (readWrite p n (ioAddress a.val) (fun v _ => f v) (oneBit b.val) s)
    fun (_, s1) => .next (s1.advance 1 (lateCycles p n))

/-- SBI (spec R149). -/
def execSbi (a : Fin 32) (b : BitNo) (s : State) : Res State :=
  modifyIo s.params.phase.sbi s.params.cost.sbi a b (fun v => v ||| oneBit b.val) s

/-- CBI (spec R150). -/
def execCbi (a : Fin 32) (b : BitNo) (s : State) : Res State :=
  modifyIo s.params.phase.cbi s.params.cost.cbi a b (fun v => v &&& ~~~ oneBit b.val) s

end Sys2Proof.Machine
end

