-- ==== Sys2Proof/Machine/Control.lean ====
section
/-!
DEFINITION. The control transfer instructions (spec `46_control_transfer.md`). The second word of
JMP and CALL is read with the fetch (log 12).
-/

namespace Sys2Proof.Machine

/-! ## Jumps -/

/-- RJMP (spec R203). -/
def execRjmp (k : BitVec 12) (s : State) : Res State :=
  .next (s.jump (relTarget s k) s.params.cost.rjmp)

/-- IJMP (spec R204). -/
def execIjmp (s : State) : Res State := .next (s.jump s.z.toNat s.params.cost.ijmp)

/-- EIJMP (spec R205). -/
def execEijmp (s : State) : Res State := .next (s.jump (eindTarget s) s.params.cost.eijmp)

/-- JMP (spec R206). -/
def execJmp (k : BitVec 22) (s : State) : Res State := .next (s.jump k.toNat s.params.cost.jmp)

/-! ## Calls and returns -/

/-- RCALL (spec R207). -/
def execRcall (k : BitVec 12) (s : State) : Res State :=
  andThen (pushRet (s.pc + 1) s) fun s1 =>
  .next (s1.jump (relTarget s1 k) (callCost s.params.cost.rcall s.pc22))

/-- ICALL: Z is read after the push (spec R208, log 9). -/
def execIcall (s : State) : Res State :=
  andThen (pushRet (s.pc + 1) s) fun s1 =>
  .next (s1.jump s1.z.toNat (callCost s.params.cost.icall s.pc22))

/-- EICALL: EIND and Z are read after the push (spec R209, log 9). -/
def execEicall (s : State) : Res State :=
  andThen (pushRet (s.pc + 1) s) fun s1 =>
  .next (s1.jump (eindTarget s1) (callCost s.params.cost.eicall s.pc22))

/-- CALL (spec R210). -/
def execCall (k : BitVec 22) (s : State) : Res State :=
  andThen (pushRet (s.pc + 2) s) fun s1 =>
  .next (s1.jump k.toNat (callCost s.params.cost.call s.pc22))

/-- RET (spec R211). -/
def execRet (s : State) : Res State :=
  andThen (popRet s) fun (v, s1) => .next (s1.jump v (callCost s.params.cost.ret s.pc22))

/-- RETI (spec R212). -/
def execReti (s : State) : Res State :=
  andThen (returnFromInterrupt s) fun s1 =>
  .next (s1.addCycles (callCost s.params.cost.reti s.pc22))

/-! ## Conditional branches -/

/-- The tail of BRBS and BRBC, with the costs `c` (spec R213, R214). -/
def branch (c : BranchCost) (taken : Bool) (k : BitVec 7) (s : State) : Res State :=
  .next (if taken then s.jump (relTarget s k) (branchCost c true)
    else s.advance 1 (branchCost c false))

/-- BRBS (spec R213). -/
def execBrbs (f : BitNo) (k : BitVec 7) (s : State) : Res State :=
  branch s.params.cost.brbs (s.flag f.val) k s

/-- BRBC (spec R214). -/
def execBrbc (f : BitNo) (k : BitVec 7) (s : State) : Res State :=
  branch s.params.cost.brbc (!s.flag f.val) k s

/-! ## Skips -/

/-- CPSE (spec R216). -/
def execCpse (d r : Reg) (s : State) : Res State := skip s.params.cost.cpse (s.reg d == s.reg r) s

/-- SBRC (spec R217). -/
def execSbrc (r : Reg) (b : BitNo) (s : State) : Res State :=
  skip s.params.cost.sbrc (!bit (s.reg r) b.val) s

/-- SBRS (spec R218). -/
def execSbrs (r : Reg) (b : BitNo) (s : State) : Res State :=
  skip s.params.cost.sbrs (bit (s.reg r) b.val) s

/-- SBIC: one hooked read, always made (spec R219). -/
def execSbic (a : Fin 32) (b : BitNo) (s : State) : Res State :=
  andThen (memRead (ioAddress a.val) s) fun (v, s1) => skip s.params.cost.sbic (!bit v b.val) s1

/-- SBIS (spec R220). -/
def execSbis (a : Fin 32) (b : BitNo) (s : State) : Res State :=
  andThen (memRead (ioAddress a.val) s) fun (v, s1) => skip s.params.cost.sbis (bit v b.val) s1

end Sys2Proof.Machine
end

