-- ==== Sys2Proof/Machine/Logic.lean ====
section
/-!
DEFINITION. The logical, shift and rotate instructions (spec `41_logic_shift.md`).
-/

namespace Sys2Proof.Machine

/-- AND (spec R121). -/
def execAnd (d r : Reg) (s : State) : Res State :=
  let R := s.reg d &&& s.reg r
  writeResult s.params.cost.and d R (logicFlags R) s

/-- ANDI (spec R122). -/
def execAndi (d : Reg) (k : Byte) (s : State) : Res State :=
  let R := s.reg d &&& k
  writeResult s.params.cost.andi d R (logicFlags R) s

/-- OR (spec R123). -/
def execOr (d r : Reg) (s : State) : Res State :=
  let R := s.reg d ||| s.reg r
  writeResult s.params.cost.or d R (logicFlags R) s

/-- ORI (spec R124). -/
def execOri (d : Reg) (k : Byte) (s : State) : Res State :=
  let R := s.reg d ||| k
  writeResult s.params.cost.ori d R (logicFlags R) s

/-- EOR (spec R125). -/
def execEor (d r : Reg) (s : State) : Res State :=
  let R := s.reg d ^^^ s.reg r
  writeResult s.params.cost.eor d R (logicFlags R) s

/-- COM (spec R126). -/
def execCom (d : Reg) (s : State) : Res State :=
  let R := 0xFF - s.reg d
  writeResult s.params.cost.com d R (comFlags R) s

/-- LSR (spec R128). -/
def execLsr (d : Reg) (s : State) : Res State :=
  let a := s.reg d
  let R := a >>> 1
  writeResult s.params.cost.lsr d R (shiftRightFlags a R) s

/-- ROR (spec R129). -/
def execRor (d : Reg) (s : State) : Res State :=
  let a := s.reg d
  let R := bitByte (s.flag flagC) <<< 7 ||| a >>> 1
  writeResult s.params.cost.ror d R (shiftRightFlags a R) s

/-- ASR (spec R130). -/
def execAsr (d : Reg) (s : State) : Res State :=
  let a := s.reg d
  let R := a &&& 0x80 ||| a >>> 1
  writeResult s.params.cost.asr d R (shiftRightFlags a R) s

/-- SWAP: no flag is written (spec R131). -/
def execSwap (d : Reg) (s : State) : Res State :=
  let a := s.reg d
  .next ((s.setReg d (a <<< 4 ||| a >>> 4)).advance 1 s.params.cost.swap)

end Sys2Proof.Machine
end

