-- ==== Sys2Proof/Machine/Multiply.lean ====
section
/-!
DEFINITION. The multiply instructions (spec `42_multiply.md`): the product is exact, then its low
16 bits (doubled in the fractional forms) go to R1:R0.
-/

namespace Sys2Proof.Machine

/-- A multiply of cost `n`: stores the low 16 bits of the exact product `P` (spec R135). -/
def writeProduct (n : Nat) (P : Int) (s : State) : Res State :=
  let W := BitVec.ofInt 16 P
  .next (((s.setPair 0 W).updateSreg (mulFlags W W)).advance 1 n)

/-- A fractional multiply of cost `n`: stores the low 16 bits of `2 * P`; C is bit 15 of the product
before the doubling (spec R135). -/
def writeFractional (n : Nat) (P : Int) (s : State) : Res State :=
  let W := BitVec.ofInt 16 (2 * P)
  .next (((s.setPair 0 W).updateSreg (mulFlags (BitVec.ofInt 16 P) W)).advance 1 n)

/-- MUL (spec R136). -/
def execMul (d r : Reg) (s : State) : Res State :=
  writeProduct s.params.cost.mul (unsigned8 (s.reg d) * unsigned8 (s.reg r)) s

/-- MULS (spec R137). -/
def execMuls (d r : Reg) (s : State) : Res State :=
  writeProduct s.params.cost.muls (signed8 (s.reg d) * signed8 (s.reg r)) s

/-- MULSU: Rd signed, Rr unsigned (spec R138). -/
def execMulsu (d r : Reg) (s : State) : Res State :=
  writeProduct s.params.cost.mulsu (signed8 (s.reg d) * unsigned8 (s.reg r)) s

/-- FMUL (spec R139). -/
def execFmul (d r : Reg) (s : State) : Res State :=
  writeFractional s.params.cost.fmul (unsigned8 (s.reg d) * unsigned8 (s.reg r)) s

/-- FMULS (spec R140). -/
def execFmuls (d r : Reg) (s : State) : Res State :=
  writeFractional s.params.cost.fmuls (signed8 (s.reg d) * signed8 (s.reg r)) s

/-- FMULSU: Rd signed, Rr unsigned (spec R141). -/
def execFmulsu (d r : Reg) (s : State) : Res State :=
  writeFractional s.params.cost.fmulsu (signed8 (s.reg d) * unsigned8 (s.reg r)) s

end Sys2Proof.Machine
end

