-- ==== Sys2Proof/Machine/ProgramMemory.lean ====
section
/-!
DEFINITION. The program-memory instructions (spec `45_program_memory.md`). Program memory has no
hooks (R190).
-/

namespace Sys2Proof.Machine

/-- LPM with implied operands (spec R191). -/
def execLpmR0 (s : State) : Res State :=
  andThen (progByte s.z.toNat s) fun v => .next ((s.setReg 0 v).advance 1 s.params.cost.lpmR0)

/-- LPM Rd, Z (spec R192). -/
def execLpmZ (d : Reg) (s : State) : Res State :=
  andThen (progByte s.z.toNat s) fun v => .next ((s.setReg d v).advance 1 s.params.cost.lpmZ)

/-- LPM Rd, Z+: the pointer is written last (spec R193). -/
def execLpmZInc (d : Reg) (s : State) : Res State :=
  let z := s.z
  andThen (progByte z.toNat s) fun v =>
  .next (((s.setReg d v).setZ (incremented z)).advance 1 s.params.cost.lpmZInc)

/-- ELPM with implied operands (spec R194). -/
def execElpmR0 (s : State) : Res State :=
  andThen (progByte (elpmAddress s) s) fun v =>
  .next ((s.setReg 0 v).advance 1 s.params.cost.elpmR0)

/-- ELPM Rd, Z (spec R195). -/
def execElpmZ (d : Reg) (s : State) : Res State :=
  andThen (progByte (elpmAddress s) s) fun v => .next ((s.setReg d v).advance 1 s.params.cost.elpmZ)

/-- ELPM Rd, Z+: RAMPZ:Z is written last (spec R196). -/
def execElpmZInc (d : Reg) (s : State) : Res State :=
  let e := elpmAddress s
  andThen (progByte e s) fun v =>
  .next ((setElpmAddress (e + 1) (s.setReg d v)).advance 1 s.params.cost.elpmZInc)

/-- SPM: a no-op in this core (spec R197). -/
def execSpm (s : State) : Res State := .next (s.advance 1 s.params.cost.spm)

/-- SPM Z+: a no-op in this core, Z is not incremented (spec R198). -/
def execSpmZInc (s : State) : Res State := .next (s.advance 1 s.params.cost.spmZInc)

end Sys2Proof.Machine
end

