-- ==== Sys2Proof/Machine/System.lean ====
section
/-!
DEFINITION. The system instructions and the unmatched first word (spec `47_system.md`).
-/

namespace Sys2Proof.Machine

/-- NOP (spec R225). -/
def execNop (s : State) : Res State := .next (s.advance 1 s.params.cost.nop)

/-- SLEEP: a no-op in this core (spec R226). -/
def execSleep (s : State) : Res State := .next (s.advance 1 s.params.cost.sleep)

/-- WDR: notifies the environment (spec R227). -/
def execWdr (s : State) : Res State :=
  andThen (notifyWatchdog s) fun s1 => .next (s1.advance 1 s.params.cost.wdr)

/-- BREAK: a no-op in this core (spec R228). -/
def execBrk (s : State) : Res State := .next (s.advance 1 s.params.cost.brk)

/-- A first word that matches no row (spec R229): a no-op, unless STRICT_DECODE is set. -/
def execUnmatched (op : Word) (s : State) : Res State :=
  if s.params.strictDecode then .fault (.unmatchedOpcode op)
  else .next (s.advance 1 s.params.cost.unmatched)

end Sys2Proof.Machine
end

