-- ==== Sys2Proof/Machine/Transfer.lean ====
section
/-!
DEFINITION. The data transfer instructions (spec `44_data_transfer.md`). The order of the effects
is that of the rules' pseudocode, also where the data register is half of the pointer (R164,
log 7).
-/

namespace Sys2Proof.Machine

/-! ## Register and immediate moves -/

/-- MOV (spec R155). -/
def execMov (d r : Reg) (s : State) : Res State :=
  .next ((s.setReg d (s.reg r)).advance 1 s.params.cost.mov)

/-- MOVW: both bytes are read before either is written (spec R156). -/
def execMovw (d r : Reg) (s : State) : Res State :=
  .next ((s.setPair d.val (s.pair r.val)).advance 1 s.params.cost.movw)

/-- LDI (spec R157). -/
def execLdi (d : Reg) (k : Byte) (s : State) : Res State :=
  .next ((s.setReg d k).advance 1 s.params.cost.ldi)

/-! ## I/O-addressed transfers -/

/-- IN (spec R158). -/
def execInp (d : Reg) (a : Fin 64) (s : State) : Res State :=
  load s.params.phase.inp s.params.cost.inp 1 d (ioAddress a.val) id s

/-- OUT (spec R159). -/
def execOut (a : Fin 64) (r : Reg) (s : State) : Res State :=
  store s.params.phase.out s.params.cost.out 1 (ioAddress a.val) (s.reg r) id s

/-! ## Stack -/

/-- PUSH (spec R160). -/
def execPush (r : Reg) (s : State) : Res State :=
  andThen (pushByte (s.reg r) s) fun s1 => .next (s1.advance 1 s.params.cost.push)

/-- POP (spec R161). -/
def execPop (d : Reg) (s : State) : Res State :=
  andThen (popByte s) fun (v, s1) => .next ((s1.setReg d v).advance 1 s.params.cost.pop)

/-! ## Direct load and store; the second word is read with the fetch (log 12) -/

/-- LDS (spec R162). -/
def execLds (d : Reg) (k : Word) (s : State) : Res State :=
  load s.params.phase.lds s.params.cost.lds 2 d k.toNat id s

/-- STS (spec R163). -/
def execSts (k : Word) (r : Reg) (s : State) : Res State :=
  store s.params.phase.sts s.params.cost.sts 2 k.toNat (s.reg r) id s

/-! ## Indirect loads -/

/-- LD Rd, X (spec R165). -/
def execLdX (d : Reg) (s : State) : Res State :=
  load s.params.phase.ldX s.params.cost.ldX 1 d s.x.toNat id s

/-- LD Rd, X+ (spec R166). -/
def execLdXInc (d : Reg) (s : State) : Res State :=
  let a := s.x
  load s.params.phase.ldXInc s.params.cost.ldXInc 1 d a.toNat (·.setX (incremented a)) s

/-- LD Rd, -X (spec R167). -/
def execLdXDec (d : Reg) (s : State) : Res State :=
  let a := decremented s.x
  load s.params.phase.ldXDec s.params.cost.ldXDec 1 d a.toNat id (s.setX a)

/-- LD Rd, Y+ (spec R168). -/
def execLdYInc (d : Reg) (s : State) : Res State :=
  let a := s.y
  load s.params.phase.ldYInc s.params.cost.ldYInc 1 d a.toNat (·.setY (incremented a)) s

/-- LD Rd, -Y (spec R169). -/
def execLdYDec (d : Reg) (s : State) : Res State :=
  let a := decremented s.y
  load s.params.phase.ldYDec s.params.cost.ldYDec 1 d a.toNat id (s.setY a)

/-- LDD Rd, Y+q (spec R170). -/
def execLddY (d : Reg) (q : Fin 64) (s : State) : Res State :=
  let a := displaced s.y q
  atDisplaced a (load s.params.phase.lddY s.params.cost.lddY 1 d a id s)

/-- LD Rd, Z+ (spec R171). -/
def execLdZInc (d : Reg) (s : State) : Res State :=
  let a := s.z
  load s.params.phase.ldZInc s.params.cost.ldZInc 1 d a.toNat (·.setZ (incremented a)) s

/-- LD Rd, -Z (spec R172). -/
def execLdZDec (d : Reg) (s : State) : Res State :=
  let a := decremented s.z
  load s.params.phase.ldZDec s.params.cost.ldZDec 1 d a.toNat id (s.setZ a)

/-- LDD Rd, Z+q (spec R173). -/
def execLddZ (d : Reg) (q : Fin 64) (s : State) : Res State :=
  load s.params.phase.lddZ s.params.cost.lddZ 1 d (displaced s.z q) id s

/-! ## Indirect stores -/

/-- ST X, Rr (spec R174). -/
def execStX (r : Reg) (s : State) : Res State :=
  store s.params.phase.stX s.params.cost.stX 1 s.x.toNat (s.reg r) id s

/-- ST X+, Rr (spec R175). -/
def execStXInc (r : Reg) (s : State) : Res State :=
  let a := s.x
  store s.params.phase.stXInc s.params.cost.stXInc 1 a.toNat (s.reg r) (·.setX (incremented a)) s

/-- ST -X, Rr: the register is read before the pointer changes (spec R176). -/
def execStXDec (r : Reg) (s : State) : Res State :=
  let a := decremented s.x
  store s.params.phase.stXDec s.params.cost.stXDec 1 a.toNat (s.reg r) id (s.setX a)

/-- ST Y+, Rr (spec R177). -/
def execStYInc (r : Reg) (s : State) : Res State :=
  let a := s.y
  store s.params.phase.stYInc s.params.cost.stYInc 1 a.toNat (s.reg r) (·.setY (incremented a)) s

/-- ST -Y, Rr (spec R178). -/
def execStYDec (r : Reg) (s : State) : Res State :=
  let a := decremented s.y
  store s.params.phase.stYDec s.params.cost.stYDec 1 a.toNat (s.reg r) id (s.setY a)

/-- STD Y+q, Rr (spec R179). -/
def execStdY (q : Fin 64) (r : Reg) (s : State) : Res State :=
  let a := displaced s.y q
  atDisplaced a (store s.params.phase.stdY s.params.cost.stdY 1 a (s.reg r) id s)

/-- ST Z+, Rr (spec R180). -/
def execStZInc (r : Reg) (s : State) : Res State :=
  let a := s.z
  store s.params.phase.stZInc s.params.cost.stZInc 1 a.toNat (s.reg r) (·.setZ (incremented a)) s

/-- ST -Z, Rr (spec R181). -/
def execStZDec (r : Reg) (s : State) : Res State :=
  let a := decremented s.z
  store s.params.phase.stZDec s.params.cost.stZDec 1 a.toNat (s.reg r) id (s.setZ a)

/-- STD Z+q, Rr (spec R182). -/
def execStdZ (q : Fin 64) (r : Reg) (s : State) : Res State :=
  store s.params.phase.stdZ s.params.cost.stdZ 1 (displaced s.z q) (s.reg r) id s

/-! ## Read-modify-write through Z -/

/-- XCH (spec R183). -/
def execXch (d : Reg) (s : State) : Res State :=
  exchangeZ s.params.phase.xch s.params.cost.xch d (fun v _ => v) s

/-- LAS (spec R184). -/
def execLas (d : Reg) (s : State) : Res State :=
  exchangeZ s.params.phase.las s.params.cost.las d (fun v old => v ||| old) s

/-- LAC (spec R185). -/
def execLac (d : Reg) (s : State) : Res State :=
  exchangeZ s.params.phase.lac s.params.cost.lac d (fun v old => (0xFF - v) &&& old) s

/-- LAT (spec R186). -/
def execLat (d : Reg) (s : State) : Res State :=
  exchangeZ s.params.phase.lat s.params.cost.lat d (fun v old => v ^^^ old) s

end Sys2Proof.Machine
end

