-- ==== Sys2Proof/Machine/Cycle.lean ====
section
/-!
DEFINITION. The two halves of a turn of the run loop: `step()` of the spec, which fetches, decodes
and executes one instruction (R88), and `tick()`, which serves at most one clock event and takes at
most one interrupt (R320).
-/

namespace Sys2Proof.Machine

/-- Runs `f` on a core that runs; an aborted core has no further operation (spec R28, R362). -/
def whenRunning {α : Type} (s : State) (f : State → Res α) : Res α :=
  match s.status with
  | .running => f s
  | .aborted _ => .refused .coreAborted

/-- The fetch: the first word at `pc` and, for an instruction of two words, the word after it, at
`pc + 1` unreduced (spec R52, R71, D4). -/
def fetch (s : State) : Res (Except DecodeReject Instr) :=
  andThen (progWord s.pc s) fun op =>
  if isTwoWord op then andThen (progWord (s.pc + 1) s) fun k => .next (decode op k)
  else .next (decode op 0)

/-- What the decoder's answer does: an instruction runs, an unmatched word is a no-op (spec R88,
R229). -/
def execDecoded (d : Except DecodeReject Instr) (s : State) : Res State :=
  match d with
  | .ok i => exec i s
  | .error (.unmatched op) => execUnmatched op s
  | .error .truncated => .next s

/-- `step()` (spec R88). -/
def stepInstr (s : State) : Res State :=
  whenRunning s fun s => andThen (fetch s) fun d => execDecoded d s

/-- `service_event()` (spec R334). The entry is taken off the list before its callback is called,
which R334 says cannot be told from taking it off afterwards (log 13). -/
def serviceEvent (s : State) : Res State :=
  match s.events with
  | [] => .next s
  | e :: rest =>
    if e.target ≤ s.cycles then
      andThen
        (callEnv (.callback e.handle) (.callback e.handle s.cycles) { s with events := rest })
        fun r => .next r.2
    else .next s

/-- `dispatch()` (spec R317). -/
def dispatchInterrupt (s : State) : Res State :=
  if s.flag flagI then
    match s.lowestPending with
    | none => .next s
    | some v =>
      match Table.find s.pending v with
      | none => .next s
      | some d => takeInterrupt d s
  else .next s

/-- `tick()` (spec R320). -/
def tick (s : State) : Res State :=
  whenRunning s fun s => andThen (serviceEvent s) dispatchInterrupt

/-- `s` with a first word at `pc` and a second after it; a second word that would lie beyond
program memory is dropped (log 20). -/
def placeWords (s : State) (w k : Word) : State :=
  let prog := Cells.write s.prog s.pc w
  { s with prog := if s.pc + 1 < s.progWords then Cells.write prog (s.pc + 1) k else prog }

end Sys2Proof.Machine
end

