-- ==== Sys2Proof/Machine/Step.lean ====
section
/-!
DEFINITION. One step of the machine: one turn of the canonical run loop, `step()` and then
`tick()` (spec R321, D32; log 4).
-/

namespace Sys2Proof.Machine

/-- One turn of the run loop (spec R321). -/
def step (s : State) : Host.Outcome State Fault Refusal := andThen (stepInstr s) tick

/-- `s` with the instruction whose bits are `w` stored where the next step fetches: the first word
is bits 15..0, the second bits 31..16, and bits from `nbits` up are 0. -/
def State.withFetchWord (s : State) (nbits w : Nat) : State :=
  let v := w % 2 ^ nbits
  placeWords s (BitVec.ofNat 16 v) (BitVec.ofNat 16 (v / 65536))

end Sys2Proof.Machine
end

