-- ==== Sys2Proof/Machine/HostInterface.lean ====
section
/-!
DEFINITION. What the host can do to the core between a tick and the next step (spec
`70_reset_and_hazards.md` R350 to R362, `60_exceptions.md` R321).
-/

namespace Sys2Proof.Machine

/-! ## Construction (spec R350) -/

/-- A program as the host gives it: words, or bytes with the low byte of each word first. -/
inductive ProgramImage where
  | words (ws : List Word)
  | bytes (bs : List Byte)
  deriving DecidableEq, Repr

/-- The words of a list of bytes; an odd number of bytes makes none (spec R350, D30). -/
def wordsOfBytes : List Byte → Option (List Word)
  | [] => some []
  | [_] => none
  | lo :: hi :: bs => (wordsOfBytes bs).map (word lo hi :: ·)

/-- The words of an image (spec R350). -/
def ProgramImage.toWords : ProgramImage → Res (List Word)
  | .words ws => .next ws
  | .bytes bs =>
    match wordsOfBytes bs with
    | some ws => .next ws
    | none => .fault (.configError .oddProgramBytes)

/-- The parameters of R3 that `construct` does not name, with the spec's defaults: `MAX_VECTORS`
(D21), `STRICT_DECODE` (D22), `COST` (D9), `HOOK_PHASE` (D8), and `INIT_DATA` (D1), the bytes of the
data space from address 0, with zeros after them. DESIGN CHOICE (log 31): bytes of `initData` beyond
the data space are ignored. -/
structure Options where
  maxVectors : Nat := 128
  strictDecode : Bool := false
  cost : CostTable := .standard
  phase : HookPhase := .standard
  initData : List Byte := []
  deriving DecidableEq, Repr

/-- The first rule for the parameters that they break: the length of the program (spec R3, R350),
`MAX_VECTORS` (R3, log 16), the cycles of an instruction (R20, log 27). -/
def paramsError (p : Params) : Option ConfigKind :=
  if ¬ (1 ≤ p.progWords ∧ p.progWords ≤ 2 ^ 22) then some .programLength
  else if p.maxVectors < 128 then some .maxVectorsTooSmall
  else if ¬ p.cost.Positive then some .costBelowOne
  else none

/-- `construct(program, SRAM_BYTES)` for any value of the parameters (spec R3, R350). -/
def constructWith (image : ProgramImage) (sramBytes : Nat) (o : Options) : Res State :=
  andThen image.toWords fun ws =>
  let params : Params :=
    { sramBytes := sramBytes, progWords := ws.length, maxVectors := o.maxVectors,
      strictDecode := o.strictDecode, cost := o.cost, phase := o.phase }
  match paramsError params with
  | some kind => .fault (.configError kind)
  | none =>
    .next { State.reset with
      params := params
      data := Cells.ofList 0 (o.initData.take params.dataSize)
      prog := Cells.ofList 0 ws }

/-- `construct(program, SRAM_BYTES)` with the spec's defaults (spec R350). -/
def construct (image : ProgramImage) (sramBytes : Nat) : Res State :=
  constructWith image sramBytes {}

/-! ## Reset (spec R352) -/

/-- `reset()`. `highest_bound` is unspecified afterwards (R30, D33): the caller gives any value
(log 11). Nothing but the five fields changes. -/
def resetOp (bound : Nat) (s : State) : State :=
  { s with pc := 0, pending := [], lowestPending := none, highestBound := bound, events := [] }

/-! ## Program loading (spec R357) -/

/-- `load_program(p)`: the length must not change (D23). -/
def loadProgram (image : ProgramImage) (s : State) : Res State :=
  andThen image.toWords fun ws =>
  if ws.length = s.progWords then .next { s with prog := Cells.ofList 0 ws }
  else .fault (.configError .programLength)

/-- `set_program_word(i, w)`, `w` reduced modulo 65536. DESIGN CHOICE (log 32): `i` is a natural
number, so a negative index, which R357 rules out by `0 <= i`, cannot be given. -/
def setProgramWord (i w : Nat) (s : State) : Res State :=
  if i < s.progWords then .next { s with prog := Cells.write s.prog i (BitVec.ofNat 16 w) }
  else .fault (.progAddressOutOfRange i)

/-- `set_program_byte(b, v)`, `v` reduced modulo 256: the low byte of a word is at the even
address. `b` is a natural number (log 32). -/
def setProgramByte (b v : Nat) (s : State) : Res State :=
  if b < s.params.progBytes then
    let old : Word := Cells.read s.prog (b / 2)
    let byte := BitVec.ofNat 8 v
    let new := if b % 2 = 0 then word byte (highByte old) else word (lowByte old) byte
    .next { s with prog := Cells.write s.prog (b / 2) new }
  else .fault (.progAddressOutOfRange b)

/-! ## Properties (spec R358) -/

/-- Setting `pc` (D24); `v` is a natural number (log 32). -/
def setPcProperty (v : Nat) (s : State) : Res State :=
  if v < s.progWords then .next { s with pc := v } else .fault (.configError .pcOutOfRange)

/-! ## All host operations -/

/-- What the host calls (spec R7, R356). Its numbers are natural numbers (log 32). -/
inductive HostOp where
  | step
  | tick
  | reset (bound : Nat)
  | loadProgram (image : ProgramImage)
  | setProgramWord (i w : Nat)
  | setProgramByte (b v : Nat)
  | setPc (v : Nat)
  | setCycles (v : Nat)
  | setSp (v : Nat)
  | setSreg (v : Nat)
  | setInterruptsEnabled (b : Bool)
  | readData (a : Nat)
  | writeData (a : Nat) (v mask : Byte)
  | device (op : DeviceOp)
  | attachWatchdog (h : Option Handle)
  deriving DecidableEq, Repr

/-- The effect of a host operation on a core that runs (spec R352, R357 to R360). -/
def hostEffect : HostOp → State → Res State
  | .step, s => stepInstr s
  | .tick, s => Machine.tick s
  | .reset bound, s => .next (resetOp bound s)
  | .loadProgram image, s => Machine.loadProgram image s
  | .setProgramWord i w, s => Machine.setProgramWord i w s
  | .setProgramByte b v, s => Machine.setProgramByte b v s
  | .setPc v, s => setPcProperty v s
  | .setCycles v, s => .next { s with cycles := v }
  | .setSp v, s => .next (s.setSp (BitVec.ofNat 16 v))
  | .setSreg v, s => .next (s.setSreg (BitVec.ofNat 8 v))
  | .setInterruptsEnabled b, s => .next (s.setFlag flagI b)
  | .readData a, s => andThen (memRead a s) fun r => .next r.2
  | .writeData a v mask, s => memWrite a v mask s
  | .device op, s => deviceOp op s
  | .attachWatchdog h, s => .next { s with watchdog := h }

/-- One host operation; none is defined on an aborted core (spec R362). -/
def hostDo (op : HostOp) (s : State) : Res State := whenRunning s (hostEffect op)

/-- A sequence of host operations: every run of the core is one of these (spec R356).

DESIGN CHOICE (log 26): R5 and R356 let the host act only between a tick and the next step, and do
not say what an operation called after a step and before its tick does. Here it does what it does
anywhere else, and so does a step without a tick after it. -/
def hostRun : List HostOp → State → Res State
  | [], s => .next s
  | op :: ops, s => andThen (hostDo op s) (hostRun ops)

/-- The canonical loop `run(budget)`, at most `fuel` turns of it, while the core runs and up to the
absolute cycle count `target` (spec R321). -/
def runUntil (target : Nat) : Nat → State → Res State
  | 0, s => .next s
  | fuel + 1, s =>
    if s.status = .running ∧ s.cycles < target then andThen (step s) (runUntil target fuel)
    else .next s

/-- `run(budget)` (spec R321). On a core that has already aborted it makes no turn; where a turn
aborts, its outcome is that abort (log 14). A turn adds at least one cycle (R20), so `budget` turns
are enough. -/
def run (budget : Nat) (s : State) : Res State := runUntil (s.cycles + budget) budget s

/-- The core as the host sees it after an operation: the next state, or the same core marked as
aborted with the reason (spec R28, R300). The memory of an aborted core is not to be looked at
(R362).

DESIGN CHOICE (log 29): the spec says that a run whose environment breaks its contract or does not
return is refused (U15, U16, U30), and not what the core is afterwards. Here it is the core of
before the operation, with its status as it was: still running, unless it had already aborted. -/
def recordOutcome (s : State) : Res State → State
  | .next t => t
  | .fault r => { s with status := .aborted r }
  | .refused _ => s

end Sys2Proof.Machine
end

