-- ==== Sys2Proof/Safety.lean ====
section
/-!
DEFINITION. The terms that claims are stated in: the invariants that the spec gives the core (R4,
R18, R24, R27, R30, R305, R330), what an instruction leaves unchanged, the flags in arithmetic form
(R100, R101), the cycles of `COST`, the addresses that loads and stores compute, and when an access
is a plain one.
-/

namespace Sys2Proof.Machine

/-- The two memories are in canonical form inside their spaces (spec R40). -/
structure MemoryInv (s : State) : Prop where
  data_wf : Memory.wf s.dataSize s.data
  prog_wf : Cells.wf s.progWords s.prog

/-- `0 <= pc < PROG_WORDS`, and the parameters are in range (spec R3, R18). -/
structure PcInv (s : State) : Prop where
  params_legal : s.params.Legal
  pc_lt : s.pc < s.progWords

/-- The pending table is inside its capacity, each descriptor stands at its own vector,
`lowest_pending` is the least pending vector or none, and `highest_bound` bounds them all
(spec R24, R305). -/
structure PendingInv (s : State) : Prop where
  sorted : Table.Sorted s.pending
  entry : ∀ e ∈ s.pending, e.2.vector = e.1 ∧ e.1 < s.params.maxVectors
  lowest : s.lowestPending = (s.pending.map (·.1)).head?
  bounded : ∀ e ∈ s.pending, e.1 ≤ s.highestBound

/-- The clock events stand in non-decreasing order of target (spec R330). -/
def EventsInv (s : State) : Prop := s.events.Pairwise fun a b => a.target ≤ b.target

/-- At most one hook for each address and direction (spec R27). -/
structure HooksInv (s : State) : Prop where
  read_sorted : Table.Sorted s.readHooks
  write_sorted : Table.Sorted s.writeHooks

/-- The invariant of the core. -/
structure CoreInv (s : State) : Prop where
  memory : MemoryInv s
  pc : PcInv s
  pending : PendingInv s
  events : EventsInv s
  hooks : HooksInv s

/-! ## What is left unchanged -/

/-- Everything but the data space, `pc` and `cycles` is the same. -/
structure SameBeyond (s t : State) : Prop where
  params : t.params = s.params
  prog : t.prog = s.prog
  pending : t.pending = s.pending
  lowestPending : t.lowestPending = s.lowestPending
  highestBound : t.highestBound = s.highestBound
  events : t.events = s.events
  readHooks : t.readHooks = s.readHooks
  writeHooks : t.writeHooks = s.writeHooks
  status : t.status = s.status
  watchdog : t.watchdog = s.watchdog
  envIn : t.envIn = s.envIn
  envOut : t.envOut = s.envOut

/-- Apart from `pc` and `cycles`, only bytes of the data space at the addresses in `written` can
differ. The registers are the bytes 0 to 31, RAMPZ is byte 91, EIND 92, SP 93 and 94, SREG 95. -/
structure OnlyWrites (s t : State) (written : Nat → Prop) : Prop where
  beyond : SameBeyond s t
  data : ∀ a, ¬ written a → t.peek a = s.peek a

/-- Only `pc` and `cycles` can differ. -/
abbrev WritesNothing (s t : State) : Prop := OnlyWrites s t fun _ => False

/-- Every bit of SREG outside `changed` is the same. -/
def FlagsKept (s t : State) (changed : List Nat) : Prop :=
  ∀ i, i ∉ changed → t.flag i = s.flag i

/-- The next instruction follows `words` words further on, and `n` cycles have passed. -/
structure Follows (s t : State) (words n : Nat) : Prop where
  pc : t.pc = (s.pc + words) % s.progWords
  cycles : t.cycles = s.cycles + n

/-! ## Cycles (spec R372, R373) -/

/-- The core has the `COST` and `HOOK_PHASE` tables that R372 and R373 give this core. -/
structure ThisCore (s : State) : Prop where
  cost : s.params.cost = .standard
  phase : s.params.phase = .standard

/-- The entry of `COST` for an instruction; for a branch or skip the one for not branching and not
skipping. -/
def costOf (s : State) : Instr → Nat
  | .add _ _ => s.params.cost.add
  | .adc _ _ => s.params.cost.adc
  | .adiw _ _ => s.params.cost.adiw
  | .sub _ _ => s.params.cost.sub
  | .subi _ _ => s.params.cost.subi
  | .sbc _ _ => s.params.cost.sbc
  | .sbci _ _ => s.params.cost.sbci
  | .sbiw _ _ => s.params.cost.sbiw
  | .cp _ _ => s.params.cost.cp
  | .cpc _ _ => s.params.cost.cpc
  | .cpi _ _ => s.params.cost.cpi
  | .neg _ => s.params.cost.neg
  | .inc _ => s.params.cost.inc
  | .dec _ => s.params.cost.dec
  | .and _ _ => s.params.cost.and
  | .andi _ _ => s.params.cost.andi
  | .or _ _ => s.params.cost.or
  | .ori _ _ => s.params.cost.ori
  | .eor _ _ => s.params.cost.eor
  | .com _ => s.params.cost.com
  | .lsr _ => s.params.cost.lsr
  | .ror _ => s.params.cost.ror
  | .asr _ => s.params.cost.asr
  | .swap _ => s.params.cost.swap
  | .mul _ _ => s.params.cost.mul
  | .muls _ _ => s.params.cost.muls
  | .mulsu _ _ => s.params.cost.mulsu
  | .fmul _ _ => s.params.cost.fmul
  | .fmuls _ _ => s.params.cost.fmuls
  | .fmulsu _ _ => s.params.cost.fmulsu
  | .bset _ => s.params.cost.bset
  | .bclr _ => s.params.cost.bclr
  | .bst _ _ => s.params.cost.bst
  | .bld _ _ => s.params.cost.bld
  | .sbi _ _ => s.params.cost.sbi
  | .cbi _ _ => s.params.cost.cbi
  | .mov _ _ => s.params.cost.mov
  | .movw _ _ => s.params.cost.movw
  | .ldi _ _ => s.params.cost.ldi
  | .inp _ _ => s.params.cost.inp
  | .out _ _ => s.params.cost.out
  | .push _ => s.params.cost.push
  | .pop _ => s.params.cost.pop
  | .lds _ _ => s.params.cost.lds
  | .sts _ _ => s.params.cost.sts
  | .ldX _ => s.params.cost.ldX
  | .ldXInc _ => s.params.cost.ldXInc
  | .ldXDec _ => s.params.cost.ldXDec
  | .ldYInc _ => s.params.cost.ldYInc
  | .ldYDec _ => s.params.cost.ldYDec
  | .lddY _ _ => s.params.cost.lddY
  | .ldZInc _ => s.params.cost.ldZInc
  | .ldZDec _ => s.params.cost.ldZDec
  | .lddZ _ _ => s.params.cost.lddZ
  | .stX _ => s.params.cost.stX
  | .stXInc _ => s.params.cost.stXInc
  | .stXDec _ => s.params.cost.stXDec
  | .stYInc _ => s.params.cost.stYInc
  | .stYDec _ => s.params.cost.stYDec
  | .stdY _ _ => s.params.cost.stdY
  | .stZInc _ => s.params.cost.stZInc
  | .stZDec _ => s.params.cost.stZDec
  | .stdZ _ _ => s.params.cost.stdZ
  | .xch _ => s.params.cost.xch
  | .las _ => s.params.cost.las
  | .lac _ => s.params.cost.lac
  | .lat _ => s.params.cost.lat
  | .lpmR0 => s.params.cost.lpmR0
  | .lpmZ _ => s.params.cost.lpmZ
  | .lpmZInc _ => s.params.cost.lpmZInc
  | .elpmR0 => s.params.cost.elpmR0
  | .elpmZ _ => s.params.cost.elpmZ
  | .elpmZInc _ => s.params.cost.elpmZInc
  | .spm => s.params.cost.spm
  | .spmZInc => s.params.cost.spmZInc
  | .rjmp _ => s.params.cost.rjmp
  | .ijmp => s.params.cost.ijmp
  | .eijmp => s.params.cost.eijmp
  | .jmp _ => s.params.cost.jmp
  | .rcall _ => callCost s.params.cost.rcall s.pc22
  | .icall => callCost s.params.cost.icall s.pc22
  | .eicall => callCost s.params.cost.eicall s.pc22
  | .call _ => callCost s.params.cost.call s.pc22
  | .ret => callCost s.params.cost.ret s.pc22
  | .reti => callCost s.params.cost.reti s.pc22
  | .brbs _ _ => s.params.cost.brbs.notTaken
  | .brbc _ _ => s.params.cost.brbc.notTaken
  | .cpse _ _ => s.params.cost.cpse.noSkip
  | .sbrc _ _ => s.params.cost.sbrc.noSkip
  | .sbrs _ _ => s.params.cost.sbrs.noSkip
  | .sbic _ _ => s.params.cost.sbic.noSkip
  | .sbis _ _ => s.params.cost.sbis.noSkip
  | .nop => s.params.cost.nop
  | .sleep => s.params.cost.sleep
  | .wdr => s.params.cost.wdr
  | .brk => s.params.cost.brk

/-- The other entries of `COST` for a branch or a skip. -/
def extraCosts (s : State) : Instr → List Nat
  | .brbs _ _ => [s.params.cost.brbs.taken]
  | .brbc _ _ => [s.params.cost.brbc.taken]
  | .cpse _ _ => [s.params.cost.cpse.oneWord, s.params.cost.cpse.twoWords]
  | .sbrc _ _ => [s.params.cost.sbrc.oneWord, s.params.cost.sbrc.twoWords]
  | .sbrs _ _ => [s.params.cost.sbrs.oneWord, s.params.cost.sbrs.twoWords]
  | .sbic _ _ => [s.params.cost.sbic.oneWord, s.params.cost.sbic.twoWords]
  | .sbis _ _ => [s.params.cost.sbis.oneWord, s.params.cost.sbis.twoWords]
  | _ => []

/-- On this core `COST` has the entry `n` for `i`: the number of R372. -/
def Costs (s : State) (i : Instr) (n : Nat) : Prop := ThisCore s → costOf s i = n

/-- After `i` the next instruction follows `words` words further on, and the cycles of `COST` have
passed, which on this core are `n`. -/
structure Retires (s t : State) (i : Instr) (words n : Nat) : Prop where
  follows : Follows s t words (costOf s i)
  costs : Costs s i n

/-- The cycles an instruction has added when it makes its hooked read. -/
def cyclesAtRead (s : State) : Instr → Nat
  | .sbi _ _ => earlyRead s.params.phase.sbi s.params.cost.sbi
  | .cbi _ _ => earlyRead s.params.phase.cbi s.params.cost.cbi
  | .inp _ _ => early s.params.phase.inp s.params.cost.inp
  | .lds _ _ => early s.params.phase.lds s.params.cost.lds
  | .ldX _ => early s.params.phase.ldX s.params.cost.ldX
  | .ldXInc _ => early s.params.phase.ldXInc s.params.cost.ldXInc
  | .ldXDec _ => early s.params.phase.ldXDec s.params.cost.ldXDec
  | .ldYInc _ => early s.params.phase.ldYInc s.params.cost.ldYInc
  | .ldYDec _ => early s.params.phase.ldYDec s.params.cost.ldYDec
  | .lddY _ _ => early s.params.phase.lddY s.params.cost.lddY
  | .ldZInc _ => early s.params.phase.ldZInc s.params.cost.ldZInc
  | .ldZDec _ => early s.params.phase.ldZDec s.params.cost.ldZDec
  | .lddZ _ _ => early s.params.phase.lddZ s.params.cost.lddZ
  | .xch _ => earlyRead s.params.phase.xch s.params.cost.xch
  | .las _ => earlyRead s.params.phase.las s.params.cost.las
  | .lac _ => earlyRead s.params.phase.lac s.params.cost.lac
  | .lat _ => earlyRead s.params.phase.lat s.params.cost.lat
  | _ => 0

/-- The cycles an instruction has added when it makes its hooked write. -/
def cyclesAtWrite (s : State) : Instr → Nat
  | .sbi _ _ => beforeWrite s.params.phase.sbi s.params.cost.sbi
  | .cbi _ _ => beforeWrite s.params.phase.cbi s.params.cost.cbi
  | .out _ _ => early s.params.phase.out s.params.cost.out
  | .sts _ _ => early s.params.phase.sts s.params.cost.sts
  | .stX _ => early s.params.phase.stX s.params.cost.stX
  | .stXInc _ => early s.params.phase.stXInc s.params.cost.stXInc
  | .stXDec _ => early s.params.phase.stXDec s.params.cost.stXDec
  | .stYInc _ => early s.params.phase.stYInc s.params.cost.stYInc
  | .stYDec _ => early s.params.phase.stYDec s.params.cost.stYDec
  | .stdY _ _ => early s.params.phase.stdY s.params.cost.stdY
  | .stZInc _ => early s.params.phase.stZInc s.params.cost.stZInc
  | .stZDec _ => early s.params.phase.stZDec s.params.cost.stZDec
  | .stdZ _ _ => early s.params.phase.stdZ s.params.cost.stdZ
  | .xch _ => beforeWrite s.params.phase.xch s.params.cost.xch
  | .las _ => beforeWrite s.params.phase.las s.params.cost.las
  | .lac _ => beforeWrite s.params.phase.lac s.params.cost.lac
  | .lat _ => beforeWrite s.params.phase.lat s.params.cost.lat
  | _ => 0

/-! ## Flags in arithmetic form (spec R100, R101) -/

/-- The six flags after the 8-bit addition `a + b + c`. -/
structure SumFlags (a b : Byte) (c : Bool) (t : State) : Prop where
  half : t.flag flagH = decide (16 ≤ a.toNat % 16 + b.toNat % 16 + c.toNat)
  overflow : t.flag flagV =
    decide (a.toInt + b.toInt + c.toNat < -128 ∨ 127 < a.toInt + b.toInt + c.toNat)
  negative : t.flag flagN = decide (128 ≤ (a.toNat + b.toNat + c.toNat) % 256)
  zero : t.flag flagZ = decide ((a.toNat + b.toNat + c.toNat) % 256 = 0)
  carry : t.flag flagC = decide (256 ≤ a.toNat + b.toNat + c.toNat)
  sign : t.flag flagS = (t.flag flagN ^^ t.flag flagV)

/-- The six flags after the 8-bit subtraction `a - b - c`; Z also needs `z` (the Z of before, where
it is kept, and otherwise `true`). -/
structure DifferenceFlags (a b : Byte) (c z : Bool) (t : State) : Prop where
  half : t.flag flagH = decide (a.toNat % 16 < b.toNat % 16 + c.toNat)
  overflow : t.flag flagV =
    decide (a.toInt - b.toInt - c.toNat < -128 ∨ 127 < a.toInt - b.toInt - c.toNat)
  negative : t.flag flagN = decide (128 ≤ ((a.toNat : Int) - b.toNat - c.toNat) % 256)
  zero : t.flag flagZ = (decide (((a.toNat : Int) - b.toNat - c.toNat) % 256 = 0) && z)
  carry : t.flag flagC = decide (a.toNat < b.toNat + c.toNat)
  sign : t.flag flagS = (t.flag flagN ^^ t.flag flagV)

/-- N, Z, V and S of a result of the logical instructions (spec R120). -/
structure LogicFlagsOf (R : Byte) (t : State) : Prop where
  overflow : t.flag flagV = false
  negative : t.flag flagN = decide (128 ≤ R.toNat)
  zero : t.flag flagZ = decide (R.toNat = 0)
  sign : t.flag flagS = decide (128 ≤ R.toNat)

/-- The five flags of a right shift of `a` by one that gives `R` (spec R127). -/
structure ShiftFlagsOf (a R : Byte) (t : State) : Prop where
  carry : t.flag flagC = decide (a.toNat % 2 = 1)
  negative : t.flag flagN = decide (128 ≤ R.toNat)
  zero : t.flag flagZ = decide (R.toNat = 0)
  overflow : t.flag flagV = (t.flag flagN ^^ t.flag flagC)
  sign : t.flag flagS = (t.flag flagN ^^ t.flag flagV)

/-! ## Addresses and plain accesses -/

/-- The data address that an instruction reads by `MemRead` first, if it is one that does. -/
def readAddress (s : State) : Instr → Option Nat
  | .inp _ a => some (ioAddress a.val)
  | .sbi a _ | .cbi a _ | .sbic a _ | .sbis a _ => some (ioAddress a.val)
  | .lds _ k => some k.toNat
  | .ldX _ | .ldXInc _ => some s.x.toNat
  | .ldYInc _ => some s.y.toNat
  | .ldZInc _ => some s.z.toNat
  | .ldXDec _ => some (decremented s.x).toNat
  | .ldYDec _ => some (decremented s.y).toNat
  | .ldZDec _ => some (decremented s.z).toNat
  | .lddY _ q => some (displaced s.y q)
  | .lddZ _ q => some (displaced s.z q)
  | .xch _ | .las _ | .lac _ | .lat _ => some s.z.toNat
  | _ => none

/-- The data address that a store writes by `MemWrite`. -/
def storeAddress (s : State) : Instr → Option Nat
  | .out a _ => some (ioAddress a.val)
  | .sts k _ => some k.toNat
  | .stX _ | .stXInc _ => some s.x.toNat
  | .stYInc _ => some s.y.toNat
  | .stZInc _ => some s.z.toNat
  | .stXDec _ => some (decremented s.x).toNat
  | .stYDec _ => some (decremented s.y).toNat
  | .stZDec _ => some (decremented s.z).toNat
  | .stdY q _ => some (displaced s.y q)
  | .stdZ q _ => some (displaced s.z q)
  | _ => none

/-- The instructions that make a hooked read and then a hooked write of one address. -/
def ReadsAndWrites : Instr → Prop
  | .sbi _ _ | .cbi _ _ | .xch _ | .las _ | .lac _ | .lat _ => True
  | _ => False

/-- A hooked read of `a` finds an address of the data space and no hook (spec R47). -/
structure ReadPlain (s : State) (a : Nat) : Prop where
  inside : a < s.dataSize
  unhooked : 31 < a → Table.find s.readHooks a = none

/-- A hooked write of `a` finds an address of the data space and no hook (spec R48). -/
structure WritePlain (s : State) (a : Nat) : Prop where
  inside : a < s.dataSize
  unhooked : Table.find s.writeHooks a = none

/-- The bytes of a return address that is pushed at SP lie in the data space (spec R200). -/
structure PushRoom (s : State) : Prop where
  bottom : s.retBytes ≤ s.sp.toNat + 1
  top : s.sp.toNat < s.dataSize

/-- The address of the first byte of a return address that is popped (spec R201). -/
def popTop (s : State) : Word := s.sp + BitVec.ofNat 16 s.retBytes

/-- The bytes of a return address that is popped lie in the data space (spec R201). -/
structure PopRoom (s : State) : Prop where
  bottom : s.retBytes ≤ (popTop s).toNat + 1
  top : (popTop s).toNat < s.dataSize

/-- The program byte at byte address `b` (spec R53). -/
def programByte (s : State) (b : Nat) : Byte :=
  if b % 2 = 0 then lowByte (Cells.read s.prog (b / 2)) else highByte (Cells.read s.prog (b / 2))

/-! ## Outcomes -/

/-- An outcome that is no abort (spec R300). -/
def Safe (o : Host.Outcome State Fault Refusal) : Prop := ∀ r, o ≠ .fault r

/-- A next state is reached. -/
def Completes (o : Host.Outcome State Fault Refusal) : Prop := ∃ t, o = .next t

end Sys2Proof.Machine
end

