-- ==== Sys2Proof/Certificates/Slice0/Obligations.lean ====
section
/-!
DEFINITION. The statements about this machine. Each names the rule of the spec that it puts into
Lean; the terms are those of `Safety.lean`. `∃ t, exec i s = .next t ∧ …` says that the instruction
completes and what the state after it is: the destination's new value, the flags, `pc` and `cycles`
(`Retires`, `Follows`), and that nothing else changed (`OnlyWrites`, `FlagsKept`).

The cycles are those of the core's `COST` and `HOOK_PHASE` tables, which are parameters (R3); each
statement also gives the numbers that the rules and R372, R373 give them on this core.
-/

open Sys2Proof Sys2Proof.Machine

/-! ## Arithmetic and compare (spec `40_arithmetic.md`) -/

/-- R100, R103, R104: the sum modulo 256, the six flags in the arithmetic form of R100. -/
def Obligations.AdditionWritesSumAndFlags : Prop :=
  ∀ (s : State) (d r : Reg) (i : Instr) (c : Bool),
    (i, c) ∈ [(.add d r, false), (.adc d r, s.flag flagC)] →
    ∃ t, exec i s = .next t ∧
      (t.reg d).toNat = ((s.reg d).toNat + (s.reg r).toNat + c.toNat) % 256 ∧
      SumFlags (s.reg d) (s.reg r) c t ∧
      Retires s t i 1 1 ∧
      OnlyWrites s t (fun a => a = d.val ∨ a = addrSreg) ∧
      FlagsKept s t [flagH, flagS, flagV, flagN, flagZ, flagC]

/-- R101, R106 to R109, R111 to R113: the difference modulo 256 and the flags of R101; SBC, SBCI and
CPC can clear Z but not set it. The compares write no register. -/
def Obligations.SubtractionAndCompare : Prop :=
  ∀ (s : State) (d r : Reg) (k : Byte),
    (∀ (i : Instr) (b : Byte) (c z : Bool),
      (i, b, c, z) ∈
        [(.sub d r, s.reg r, false, true), (.subi d k, k, false, true),
          (.sbc d r, s.reg r, s.flag flagC, s.flag flagZ),
          (.sbci d k, k, s.flag flagC, s.flag flagZ)] →
      ∃ t, exec i s = .next t ∧
        ((t.reg d).toNat : Int) = (((s.reg d).toNat : Int) - b.toNat - c.toNat) % 256 ∧
        DifferenceFlags (s.reg d) b c z t ∧
        Retires s t i 1 1 ∧
        OnlyWrites s t (fun a => a = d.val ∨ a = addrSreg) ∧
        FlagsKept s t [flagH, flagS, flagV, flagN, flagZ, flagC]) ∧
    (∀ (i : Instr) (b : Byte) (c z : Bool),
      (i, b, c, z) ∈
        [(.cp d r, s.reg r, false, true), (.cpc d r, s.reg r, s.flag flagC, s.flag flagZ),
          (.cpi d k, k, false, true)] →
      ∃ t, exec i s = .next t ∧
        DifferenceFlags (s.reg d) b c z t ∧
        Retires s t i 1 1 ∧
        OnlyWrites s t (fun a => a = addrSreg) ∧
        FlagsKept s t [flagH, flagS, flagV, flagN, flagZ, flagC])

/-- R105, R110: 16-bit arithmetic on a register pair, low byte in the lower register; H is kept. -/
def Obligations.WordImmediateArithmetic : Prop :=
  ∀ (s : State) (p : Reg) (k : BitVec 6),
    let v := s.pair p.val
    (∃ t, exec (.adiw p k) s = .next t ∧
      (t.peek p.val).toNat + 256 * (t.peek (p.val + 1)).toNat = (v.toNat + k.toNat) % 65536 ∧
      t.flag flagC = decide (65536 ≤ v.toNat + k.toNat) ∧
      t.flag flagV = decide (32767 < v.toInt + k.toNat) ∧
      t.flag flagN = decide (32768 ≤ (v.toNat + k.toNat) % 65536) ∧
      t.flag flagZ = decide ((v.toNat + k.toNat) % 65536 = 0) ∧
      t.flag flagS = (t.flag flagN ^^ t.flag flagV) ∧
      Retires s t (.adiw p k) 1 2 ∧
      OnlyWrites s t (fun a => a = p.val ∨ a = p.val + 1 ∨ a = addrSreg) ∧
      FlagsKept s t [flagS, flagV, flagN, flagZ, flagC]) ∧
    (∃ t, exec (.sbiw p k) s = .next t ∧
      (((t.peek p.val).toNat + 256 * (t.peek (p.val + 1)).toNat : Nat) : Int) =
        ((v.toNat : Int) - k.toNat) % 65536 ∧
      t.flag flagC = decide (v.toNat < k.toNat) ∧
      t.flag flagV = decide (v.toInt - k.toNat < -32768) ∧
      t.flag flagN = decide (32768 ≤ ((v.toNat : Int) - k.toNat) % 65536) ∧
      t.flag flagZ = decide (v.toNat = k.toNat) ∧
      t.flag flagS = (t.flag flagN ^^ t.flag flagV) ∧
      Retires s t (.sbiw p k) 1 2 ∧
      OnlyWrites s t (fun a => a = p.val ∨ a = p.val + 1 ∨ a = addrSreg) ∧
      FlagsKept s t [flagS, flagV, flagN, flagZ, flagC])

/-- R114 to R116. INC and DEC keep C and H. -/
def Obligations.NegateIncrementDecrement : Prop :=
  ∀ (s : State) (d : Reg),
    let a := (s.reg d).toNat
    (∃ t, exec (.neg d) s = .next t ∧
      (t.reg d).toNat = (256 - a) % 256 ∧
      t.flag flagC = decide (a ≠ 0) ∧ t.flag flagH = decide (a % 16 ≠ 0) ∧
      t.flag flagV = decide (a = 128) ∧ t.flag flagN = decide (128 ≤ (256 - a) % 256) ∧
      t.flag flagZ = decide (a = 0) ∧ t.flag flagS = (t.flag flagN ^^ t.flag flagV) ∧
      Retires s t (.neg d) 1 1 ∧
      OnlyWrites s t (fun x => x = d.val ∨ x = addrSreg) ∧
      FlagsKept s t [flagH, flagS, flagV, flagN, flagZ, flagC]) ∧
    (∃ t, exec (.inc d) s = .next t ∧
      (t.reg d).toNat = (a + 1) % 256 ∧
      t.flag flagV = decide (a = 127) ∧ t.flag flagN = decide (128 ≤ (a + 1) % 256) ∧
      t.flag flagZ = decide (a = 255) ∧ t.flag flagS = (t.flag flagN ^^ t.flag flagV) ∧
      Retires s t (.inc d) 1 1 ∧
      OnlyWrites s t (fun x => x = d.val ∨ x = addrSreg) ∧
      FlagsKept s t [flagS, flagV, flagN, flagZ]) ∧
    (∃ t, exec (.dec d) s = .next t ∧
      (t.reg d).toNat = (a + 255) % 256 ∧
      t.flag flagV = decide (a = 128) ∧ t.flag flagN = decide (128 ≤ (a + 255) % 256) ∧
      t.flag flagZ = decide (a = 1) ∧ t.flag flagS = (t.flag flagN ^^ t.flag flagV) ∧
      Retires s t (.dec d) 1 1 ∧
      OnlyWrites s t (fun x => x = d.val ∨ x = addrSreg) ∧
      FlagsKept s t [flagS, flagV, flagN, flagZ])

/-! ## Logic and shifts (spec `41_logic_shift.md`) -/

/-- R120 to R126, R131: each bit of the result from the same bits of the operands, C and H kept; COM
complements and sets C; SWAP exchanges the nibbles and writes no flag. -/
def Obligations.LogicalOperations : Prop :=
  ∀ (s : State) (d r : Reg) (k : Byte),
    (∀ (i : Instr) (b : Byte) (f : Bool → Bool → Bool),
      (i, b, f) ∈
        [(.and d r, s.reg r, (· && ·)), (.andi d k, k, (· && ·)), (.or d r, s.reg r, (· || ·)),
          (.ori d k, k, (· || ·)), (.eor d r, s.reg r, (· ^^ ·))] →
      ∃ t, exec i s = .next t ∧
        (∀ n, n < 8 → bit (t.reg d) n = f (bit (s.reg d) n) (bit b n)) ∧
        LogicFlagsOf (t.reg d) t ∧
        Retires s t i 1 1 ∧
        OnlyWrites s t (fun a => a = d.val ∨ a = addrSreg) ∧
        FlagsKept s t [flagS, flagV, flagN, flagZ]) ∧
    (∃ t, exec (.com d) s = .next t ∧
      (t.reg d).toNat = 255 - (s.reg d).toNat ∧
      LogicFlagsOf (t.reg d) t ∧ t.flag flagC = true ∧
      Retires s t (.com d) 1 1 ∧
      OnlyWrites s t (fun x => x = d.val ∨ x = addrSreg) ∧
      FlagsKept s t [flagS, flagV, flagN, flagZ, flagC]) ∧
    (∃ t, exec (.swap d) s = .next t ∧
      (t.reg d).toNat = (s.reg d).toNat % 16 * 16 + (s.reg d).toNat / 16 ∧
      Retires s t (.swap d) 1 1 ∧
      OnlyWrites s t (fun x => x = d.val))

/-- R127 to R130: the shifts by one and the rotate through C; H is kept. -/
def Obligations.RightShiftsAndRotate : Prop :=
  ∀ (s : State) (d : Reg) (i : Instr) (R : Nat),
    (i, R) ∈
      [(.lsr d, (s.reg d).toNat / 2),
        (.ror d, 128 * (s.flag flagC).toNat + (s.reg d).toNat / 2),
        (.asr d, if 128 ≤ (s.reg d).toNat then 128 + (s.reg d).toNat / 2
          else (s.reg d).toNat / 2)] →
    ∃ t, exec i s = .next t ∧
      (t.reg d).toNat = R ∧
      ShiftFlagsOf (s.reg d) (t.reg d) t ∧
      Retires s t i 1 1 ∧
      OnlyWrites s t (fun a => a = d.val ∨ a = addrSreg) ∧
      FlagsKept s t [flagS, flagV, flagN, flagZ, flagC]

/-! ## Multiply (spec `42_multiply.md`) -/

/-- R135 to R141: the low 16 bits of the exact product, or of its double, in R1:R0; C is bit 15 of
the product before any doubling, Z tests all 16 bits stored. -/
def Obligations.MultiplyStoresProduct : Prop :=
  ∀ (s : State) (d r : Reg) (i : Instr) (P : Int) (m : Int),
    (i, P, m) ∈
      [(.mul d r, ((s.reg d).toNat : Int) * (s.reg r).toNat, 1),
        (.muls d r, (s.reg d).toInt * (s.reg r).toInt, 1),
        (.mulsu d r, (s.reg d).toInt * (s.reg r).toNat, 1),
        (.fmul d r, ((s.reg d).toNat : Int) * (s.reg r).toNat, 2),
        (.fmuls d r, (s.reg d).toInt * (s.reg r).toInt, 2),
        (.fmulsu d r, (s.reg d).toInt * (s.reg r).toNat, 2)] →
    ∃ t, exec i s = .next t ∧
      (((t.reg 0).toNat + 256 * (t.reg 1).toNat : Nat) : Int) = m * P % 65536 ∧
      t.flag flagC = decide (32768 ≤ P % 65536) ∧
      t.flag flagZ = decide (m * P % 65536 = 0) ∧
      Retires s t i 1 2 ∧
      OnlyWrites s t (fun a => a = 0 ∨ a = 1 ∨ a = addrSreg) ∧
      FlagsKept s t [flagZ, flagC]

/-- The corner cases of R139 and R141: Z and C are never both set, and Z is set only when an operand
is 0. -/
def Obligations.FractionalMultiplyZeroExcludesCarry : Prop :=
  ∀ (s : State) (d r : Reg) (i : Instr),
    i ∈ [.fmul d r, .fmuls d r, .fmulsu d r] →
    ∃ t, exec i s = .next t ∧
      (t.flag flagZ && t.flag flagC) = false ∧
      (t.flag flagZ = true ↔ s.reg d = 0 ∨ s.reg r = 0)

/-! ## Bits (spec `43_bit.md`) -/

/-- R145 to R148: BSET, BCLR and BST write one bit of SREG; BLD writes one bit of the register from
T, and no flag. -/
def Obligations.SingleBitInstructions : Prop :=
  ∀ (s : State) (d : Reg) (f b : BitNo),
    (∀ (i : Instr) (n : Nat) (v : Bool),
      (i, n, v) ∈
        [(.bset f, f.val, true), (.bclr f, f.val, false),
          (.bst d b, flagT, decide ((s.reg d).toNat / 2 ^ b.val % 2 = 1))] →
      ∃ t, exec i s = .next t ∧
        t.flag n = v ∧
        Retires s t i 1 1 ∧
        OnlyWrites s t (fun a => a = addrSreg) ∧
        FlagsKept s t [n]) ∧
    (∃ t, exec (.bld d b) s = .next t ∧
      (∀ n, n < 8 → bit (t.reg d) n = if n = b.val then s.flag flagT else bit (s.reg d) n) ∧
      Retires s t (.bld d b) 1 1 ∧
      OnlyWrites s t (fun a => a = d.val))

/-- R149, R150: one hooked read, then one hooked write of the whole byte with the one-bit mask; both
cycles are counted after them (R373), whatever the hooks did. At an address without hooks just bit
`b` changes. -/
def Obligations.IoBitSetAndClear : Prop :=
  ∀ (s : State) (a : Fin 32) (b : BitNo) (i : Instr) (v : Bool),
    (i, v) ∈ [(.sbi a b, true), (.cbi a b, false)] →
    Costs s i 2 ∧ (ThisCore s → cyclesAtRead s i = 0 ∧ cyclesAtWrite s i = 0) ∧
    (∀ old u w, memRead (a.val + 32) (s.addCycles (cyclesAtRead s i)) = .next (old, u) →
      memWrite (a.val + 32) (putBit old b.val v) (BitVec.ofNat 8 (2 ^ b.val))
          (u.addCycles (cyclesAtWrite s i - cyclesAtRead s i)) = .next w →
      exec i s =
        .next { w with pc := (s.pc + 1) % s.progWords, cycles := s.cycles + costOf s i }) ∧
    (ReadPlain s (a.val + 32) → WritePlain s (a.val + 32) →
      ∃ t, exec i s = .next t ∧
        (∀ n, n < 8 → bit (t.peek (a.val + 32)) n =
          if n = b.val then v else bit (s.peek (a.val + 32)) n) ∧
        Retires s t i 1 2 ∧
        OnlyWrites s t (fun x => x = a.val + 32))

/-! ## Data transfer (spec `44_data_transfer.md`) -/

/-- R155 to R157. MOVW reads both bytes before it writes either. -/
def Obligations.RegisterMoves : Prop :=
  ∀ (s : State) (d r : Reg) (k : Byte),
    (∃ t, exec (.mov d r) s = .next t ∧ t.reg d = s.reg r ∧ Retires s t (.mov d r) 1 1 ∧
      OnlyWrites s t (fun a => a = d.val)) ∧
    (∃ t, exec (.ldi d k) s = .next t ∧ t.reg d = k ∧ Retires s t (.ldi d k) 1 1 ∧
      OnlyWrites s t (fun a => a = d.val)) ∧
    (∃ t, exec (.movw d r) s = .next t ∧
      t.peek d.val = s.peek r.val ∧ t.peek (d.val + 1) = s.peek (r.val + 1) ∧
      Retires s t (.movw d r) 1 1 ∧
      OnlyWrites s t (fun a => a = d.val ∨ a = d.val + 1))

/-- R158, R164 to R173 (and LDS, whose second word the fetch reads): a load is one `MemRead`, before
which LD, LDD and LDS count a cycle (R373); the environment may do in it anything that R49 allows. A
post-increment stores the pointer read at the start plus 1 after the access; a pre-decrement stores
the pointer minus 1 before it. (LDD from Y + q above 65535:
`DataAddressOutsideAborts`.) -/
def Obligations.LoadsAreOneMemRead : Prop :=
  ∀ (s : State) (d : Reg) (A : Fin 64) (q : Fin 64) (k : Word),
    (∀ (i : Instr) (a before words cost : Nat),
      (i, a, before, words, cost) ∈
        [(.inp d A, A.val + 32, 0, 1, 1), (.lds d k, k.toNat, 1, 2, 2),
          (.ldX d, s.x.toNat, 1, 1, 2), (.lddY d q, s.y.toNat + q.val, 1, 1, 2),
          (.lddZ d q, s.z.toNat + q.val, 1, 1, 2)] →
      Costs s i cost ∧ (ThisCore s → cyclesAtRead s i = before) ∧
      ∀ v u, (i = .lddY d q → a < 65536) →
        memRead a (s.addCycles (cyclesAtRead s i)) = .next (v, u) →
        exec i s =
          .next { u.setReg d v with
                  pc := (s.pc + words) % s.progWords, cycles := s.cycles + costOf s i }) ∧
    (∀ (lo : Nat) (inc dec : Instr),
      (lo, inc, dec) ∈
        [(26, .ldXInc d, .ldXDec d), (28, .ldYInc d, .ldYDec d), (30, .ldZInc d, .ldZDec d)] →
      (∀ i ∈ [inc, dec], Costs s i 2 ∧ (ThisCore s → cyclesAtRead s i = 1)) ∧
      (∀ v u, memRead (s.pair lo).toNat (s.addCycles (cyclesAtRead s inc)) = .next (v, u) →
        exec inc s =
          .next { (u.setReg d v).setPair lo (s.pair lo + 1) with
                  pc := (s.pc + 1) % s.progWords, cycles := s.cycles + costOf s inc }) ∧
      (∀ v u, memRead (s.pair lo - 1).toNat
            ((s.setPair lo (s.pair lo - 1)).addCycles (cyclesAtRead s dec)) = .next (v, u) →
        exec dec s =
          .next { u.setReg d v with
                  pc := (s.pc + 1) % s.progWords, cycles := s.cycles + costOf s dec }))

/-- Loads of a byte without a hook: the byte goes to the register and nothing else changes. An address
above 65535 is out of range for LDD at Y + q, and only for it (log 30). -/
def Obligations.PlainLoads : Prop :=
  ∀ (s : State) (d : Reg) (A : Fin 64) (q : Fin 64) (k : Word) (i : Instr) (a words cost : Nat),
    (i, a, words, cost) ∈
      [(.inp d A, A.val + 32, 1, 1), (.lds d k, k.toNat, 2, 2), (.ldX d, s.x.toNat, 1, 2),
        (.lddY d q, s.y.toNat + q.val, 1, 2), (.lddZ d q, s.z.toNat + q.val, 1, 2)] →
    (i = .lddY d q → a < 65536) → ReadPlain s a →
    ∃ t, exec i s = .next t ∧ t.reg d = s.peek a ∧ Retires s t i words cost ∧
      OnlyWrites s t (fun x => x = d.val)

/-- Plain loads with write-back. A post-increment writes the pointer last, so it wins over a
destination that is half of it; a pre-decrement writes it first, so the load sees it and wins. -/
def Obligations.PlainLoadsWithWriteBack : Prop :=
  ∀ (s : State) (d : Reg) (lo : Nat) (inc dec : Instr),
    (lo, inc, dec) ∈
      [(26, .ldXInc d, .ldXDec d), (28, .ldYInc d, .ldYDec d), (30, .ldZInc d, .ldZDec d)] →
    (ReadPlain s (s.pair lo).toNat →
      ∃ t, exec inc s = .next t ∧
        (t.pair lo).toNat = ((s.pair lo).toNat + 1) % 65536 ∧
        (d.val ≠ lo → d.val ≠ lo + 1 → t.reg d = s.peek (s.pair lo).toNat) ∧
        Retires s t inc 1 2 ∧
        OnlyWrites s t (fun x => x = d.val ∨ x = lo ∨ x = lo + 1)) ∧
    (∀ p, p = s.pair lo - 1 → ReadPlain s p.toNat →
      ∃ t, exec dec s = .next t ∧
        t.reg d = (if p.toNat = lo then lowByte p else if p.toNat = lo + 1 then highByte p
          else s.peek p.toNat) ∧
        (d.val ≠ lo → t.peek lo = lowByte p) ∧
        (d.val ≠ lo + 1 → t.peek (lo + 1) = highByte p) ∧
        Retires s t dec 1 2 ∧
        OnlyWrites s t (fun x => x = d.val ∨ x = lo ∨ x = lo + 1))

/-- R159, R164, R174 to R182 (and STS, whose second word the fetch reads): a store is one `MemWrite`
with the full mask, after which its cycles are counted (R373). The data register is read before the
pointer changes. (STD to Y + q above 65535: `DataAddressOutsideAborts`.) -/
def Obligations.StoresAreOneMemWrite : Prop :=
  ∀ (s : State) (r : Reg) (A : Fin 64) (q : Fin 64) (k : Word),
    (∀ (i : Instr) (a words cost : Nat),
      (i, a, words, cost) ∈
        [(.out A r, A.val + 32, 1, 1), (.sts k r, k.toNat, 2, 2), (.stX r, s.x.toNat, 1, 2),
          (.stdY q r, s.y.toNat + q.val, 1, 2), (.stdZ q r, s.z.toNat + q.val, 1, 2)] →
      Costs s i cost ∧ (ThisCore s → cyclesAtWrite s i = 0) ∧
      ∀ u, (i = .stdY q r → a < 65536) →
        memWrite a (s.reg r) 0xFF (s.addCycles (cyclesAtWrite s i)) = .next u →
        exec i s =
          .next { u with
                  pc := (s.pc + words) % s.progWords, cycles := s.cycles + costOf s i }) ∧
    (∀ (lo : Nat) (inc dec : Instr),
      (lo, inc, dec) ∈
        [(26, .stXInc r, .stXDec r), (28, .stYInc r, .stYDec r), (30, .stZInc r, .stZDec r)] →
      (∀ i ∈ [inc, dec], Costs s i 2 ∧ (ThisCore s → cyclesAtWrite s i = 0)) ∧
      (∀ u, memWrite (s.pair lo).toNat (s.reg r) 0xFF (s.addCycles (cyclesAtWrite s inc)) =
          .next u →
        exec inc s =
          .next { u.setPair lo (s.pair lo + 1) with
                  pc := (s.pc + 1) % s.progWords, cycles := s.cycles + costOf s inc }) ∧
      (∀ u, memWrite (s.pair lo - 1).toNat (s.reg r) 0xFF
            ((s.setPair lo (s.pair lo - 1)).addCycles (cyclesAtWrite s dec)) = .next u →
        exec dec s =
          .next { u with pc := (s.pc + 1) % s.progWords, cycles := s.cycles + costOf s dec }))

/-- Stores to a byte without a hook, at the address that the form gives: that byte gets the register
as it was at the start, and besides it only the pointer changes, by 1 modulo 65536, before the store
or after it. An address above 65535 is out of range for STD at Y + q, and only for it (log 30). -/
def Obligations.PlainStores : Prop :=
  ∀ (s : State) (r : Reg) (A : Fin 64) (q : Fin 64) (k : Word),
    (∀ (i : Instr) (a words cost : Nat),
      (i, a, words, cost) ∈
        [(.out A r, A.val + 32, 1, 1), (.sts k r, k.toNat, 2, 2), (.stX r, s.x.toNat, 1, 2),
          (.stdY q r, s.y.toNat + q.val, 1, 2), (.stdZ q r, s.z.toNat + q.val, 1, 2)] →
      (i = .stdY q r → a < 65536) → WritePlain s a →
      ∃ t, exec i s = .next t ∧ t.peek a = s.reg r ∧ Retires s t i words cost ∧
        OnlyWrites s t (fun x => x = a)) ∧
    (∀ (lo : Nat) (inc dec : Instr),
      (lo, inc, dec) ∈
        [(26, .stXInc r, .stXDec r), (28, .stYInc r, .stYDec r), (30, .stZInc r, .stZDec r)] →
      (WritePlain s (s.pair lo).toNat →
        ∃ t, exec inc s = .next t ∧
          t.pair lo = s.pair lo + 1 ∧
          ((s.pair lo).toNat ≠ lo → (s.pair lo).toNat ≠ lo + 1 →
            t.peek (s.pair lo).toNat = s.reg r) ∧
          Retires s t inc 1 2 ∧
          OnlyWrites s t (fun x => x = (s.pair lo).toNat ∨ x = lo ∨ x = lo + 1)) ∧
      (WritePlain s (s.pair lo - 1).toNat →
        ∃ t, exec dec s = .next t ∧
          t.peek (s.pair lo - 1).toNat = s.reg r ∧
          ((s.pair lo - 1).toNat ≠ lo → t.peek lo = lowByte (s.pair lo - 1)) ∧
          ((s.pair lo - 1).toNat ≠ lo + 1 → t.peek (lo + 1) = highByte (s.pair lo - 1)) ∧
          Retires s t dec 1 2 ∧
          OnlyWrites s t (fun x => x = (s.pair lo - 1).toNat ∨ x = lo ∨ x = lo + 1)))

/-- R183 to R186: one hooked read at Z, one hooked write of the combined byte, and the old byte in
the register; at an address without hooks also when that address is the register itself. -/
def Obligations.ReadModifyWriteThroughZ : Prop :=
  ∀ (s : State) (d : Reg) (i : Instr) (f : Byte → Byte → Byte),
    (i, f) ∈
      [(.xch d, fun v _ => v), (.las d, fun v old => v ||| old),
        (.lac d, fun v old => (0xFF - v) &&& old), (.lat d, fun v old => v ^^^ old)] →
    let z := s.z.toNat
    Costs s i 2 ∧ (ThisCore s → cyclesAtRead s i = 0 ∧ cyclesAtWrite s i = 0) ∧
    (∀ old u w, memRead z (s.addCycles (cyclesAtRead s i)) = .next (old, u) →
      memWrite z (f (u.reg d) old) 0xFF
          (u.addCycles (cyclesAtWrite s i - cyclesAtRead s i)) = .next w →
      exec i s =
        .next { w.setReg d old with
                pc := (s.pc + 1) % s.progWords, cycles := s.cycles + costOf s i }) ∧
    (ReadPlain s z → WritePlain s z →
      ∃ t, exec i s = .next t ∧
        t.reg d = s.peek z ∧
        (z ≠ d.val → t.peek z = f (s.reg d) (s.peek z)) ∧
        Retires s t i 1 2 ∧
        OnlyWrites s t (fun x => x = z ∨ x = d.val))

/-- R44, R170: an access outside the data space aborts with the address the instruction computed,
which is not reduced modulo 65536, and so does LDD or STD at Y + q above 65535 (log 30). The check
comes before any hook is called. -/
def Obligations.DataAddressOutsideAborts : Prop :=
  ∀ (s : State) (i : Instr) (a : Nat),
    readAddress s i = some a ∨ storeAddress s i = some a →
    s.dataSize ≤ a ∨ (65536 ≤ a ∧ ∃ r q, i = .lddY r q ∨ i = .stdY q r) →
    exec i s = .fault (.dataAddressOutOfRange a)

/-! ## The stack (spec `44_data_transfer.md` section 3, `46_control_transfer.md` section 1) -/

/-- R160: the byte goes to the address SP held, raw, and SP goes down by 1 modulo 65536. (Where SP
addresses itself, see `PushOverItsOwnPointer`.) That a push at 0xFFFF completes on a core whose
`DATA_SIZE` is above 65536 is the model's reading of R160 (log 30). -/
def Obligations.PushStoresThenDecrements : Prop :=
  ∀ (s : State) (r : Reg),
    (s.sp.toNat < s.dataSize → s.sp ≠ 93 → s.sp ≠ 94 →
      ∃ t, exec (.push r) s = .next t ∧
        t.peek s.sp.toNat = s.reg r ∧
        (t.sp.toNat : Int) = ((s.sp.toNat : Int) - 1) % 65536 ∧
        Retires s t (.push r) 1 2 ∧
        OnlyWrites s t (fun a => a = s.sp.toNat ∨ a = 93 ∨ a = 94)) ∧
    (s.dataSize ≤ s.sp.toNat →
      exec (.push r) s = .fault (.dataAddressOutOfRange s.sp.toNat))

/-- The model's reading (log 8) where the pushed byte is itself half of SP: the decrement reads SP
after the store. -/
def Obligations.PushOverItsOwnPointer : Prop :=
  ∀ (s : State) (r : Reg), s.sp = 93 ∨ s.sp = 94 →
    ∃ t, exec (.push r) s = .next t ∧
      t.sp = (if s.sp = 93 then word (s.reg r) (highByte s.sp)
        else word (lowByte s.sp) (s.reg r)) - 1 ∧
      Retires s t (.push r) 1 2 ∧
      OnlyWrites s t (fun a => a = 93 ∨ a = 94)

/-- R161: SP goes up by 1 modulo 65536, and the byte at the new SP goes to the register. -/
def Obligations.PopIncrementsThenLoads : Prop :=
  ∀ (s : State) (d : Reg),
    let p := s.sp + 1
    (p.toNat < s.dataSize →
      ∃ t, exec (.pop d) s = .next t ∧
        t.sp.toNat = (s.sp.toNat + 1) % 65536 ∧
        t.reg d = (if p.toNat = 93 then lowByte p else if p.toNat = 94 then highByte p
          else s.peek p.toNat) ∧
        Retires s t (.pop d) 1 2 ∧
        OnlyWrites s t (fun a => a = d.val ∨ a = 93 ∨ a = 94)) ∧
    (s.dataSize ≤ p.toNat → exec (.pop d) s = .fault (.dataAddressOutOfRange p.toNat))

/-- A POP gives back what a PUSH stored, and SP is what it was. That the PUSH completes at 0xFFFF on a
core whose `DATA_SIZE` is above 65536 is the model's reading of R160 (log 30). -/
def Obligations.PopReturnsWhatPushStored : Prop :=
  ∀ (s : State) (r d : Reg),
    s.sp.toNat < s.dataSize → s.sp ≠ 93 → s.sp ≠ 94 →
    ∃ t u, exec (.push r) s = .next t ∧ exec (.pop d) t = .next u ∧
      u.reg d = s.reg r ∧ u.sp = s.sp ∧
      u.cycles = s.cycles + costOf s (.push r) + costOf s (.pop d)

/-- R200: two bytes, or three with `PC22`, the low byte at the highest address, of the return
address reduced modulo `PROG_WORDS`; an address below 0 aborts and does not wrap. -/
def Obligations.ReturnAddressPushed : Prop :=
  ∀ (s : State) (ret : Nat),
    (PushRoom s →
      ∃ t, pushRet ret s = .next t ∧
        t.sp = s.sp - BitVec.ofNat 16 s.retBytes ∧
        (∀ n, n < s.retBytes → s.sp.toNat - n ≠ 93 → s.sp.toNat - n ≠ 94 →
          (t.peek (s.sp.toNat - n)).toNat = ret % s.progWords / 256 ^ n % 256) ∧
        t.pc = s.pc ∧ t.cycles = s.cycles ∧
        OnlyWrites s t (fun a =>
          (a ≤ s.sp.toNat ∧ s.sp.toNat < a + s.retBytes) ∨ a = 93 ∨ a = 94)) ∧
    (s.dataSize ≤ s.sp.toNat →
      pushRet ret s = .fault (.dataAddressOutOfRange s.sp.toNat)) ∧
    (s.sp.toNat < s.dataSize → s.sp.toNat + 1 < s.retBytes →
      pushRet ret s = .fault (.dataAddressOutOfRange (-1)))

/-- R201: after `PushRet(r)` with `r < PROG_WORDS`, `PopRet()` gives `r` and SP is restored, where
no pushed byte is SP itself. -/
def Obligations.PopRetInvertsPushRet : Prop :=
  ∀ (s : State) (ret : Nat),
    PushRoom s → s.progWords ≤ 2 ^ 22 → ret < s.progWords →
    (∀ n, n < s.retBytes → s.sp.toNat - n ≠ 93 ∧ s.sp.toNat - n ≠ 94) →
    ∃ t u, pushRet ret s = .next t ∧ popRet t = .next (ret, u) ∧ u.sp = s.sp ∧
      ∀ a, a ≠ 93 → a ≠ 94 → u.peek a = t.peek a

/-! ## Program memory (spec `45_program_memory.md`) -/

/-- R191 to R196: the byte of program memory at Z, or at RAMPZ:Z; the post-increment of LPM leaves
RAMPZ alone, that of ELPM carries into it; an address beyond program memory aborts. -/
def Obligations.LoadProgramMemory : Prop :=
  ∀ (s : State) (d : Reg) (b : Nat) (implied plain inc : Instr),
    (b, implied, plain, inc) ∈
      [(s.z.toNat, .lpmR0, .lpmZ d, .lpmZInc d),
        ((s.peek 91).toNat * 65536 + s.z.toNat, .elpmR0, .elpmZ d, .elpmZInc d)] →
    (b < s.params.progBytes →
      (∃ t, exec implied s = .next t ∧ t.reg 0 = programByte s b ∧ Retires s t implied 1 3 ∧
        OnlyWrites s t (fun a => a = 0)) ∧
      (∃ t, exec plain s = .next t ∧ t.reg d = programByte s b ∧ Retires s t plain 1 3 ∧
        OnlyWrites s t (fun a => a = d.val)) ∧
      (∃ t, exec inc s = .next t ∧
        (d.val ≠ 30 → d.val ≠ 31 → t.reg d = programByte s b) ∧
        (inc = .lpmZInc d → t.z.toNat = (b + 1) % 65536 ∧ t.peek 91 = s.peek 91) ∧
        (inc = .elpmZInc d → (t.peek 91).toNat * 65536 + t.z.toNat = (b + 1) % 2 ^ 24) ∧
        Retires s t inc 1 3 ∧
        OnlyWrites s t (fun a => a = d.val ∨ a = 30 ∨ a = 31 ∨ a = 91))) ∧
    (s.params.progBytes ≤ b →
      ∀ i ∈ [implied, plain, inc], exec i s = .fault (.progAddressOutOfRange b))

/-! ## Control transfer (spec `46_control_transfer.md`) -/

/-- R203 to R205 (and JMP, whose second word the fetch reads): the target modulo `PROG_WORDS`, also
when it is negative. -/
def Obligations.JumpsReduceTheirTarget : Prop :=
  ∀ (s : State) (k : BitVec 12) (k22 : BitVec 22), 0 < s.progWords →
    (∃ t, exec (.rjmp k) s = .next t ∧
      (t.pc : Int) =
        ((s.pc : Int) + 1 + (if k.toNat < 2048 then (k.toNat : Int) else k.toNat - 4096)) %
          s.progWords ∧
      t.cycles = s.cycles + costOf s (.rjmp k) ∧ Costs s (.rjmp k) 2 ∧ WritesNothing s t) ∧
    (∃ t, exec .ijmp s = .next t ∧ t.pc = s.z.toNat % s.progWords ∧
      t.cycles = s.cycles + costOf s .ijmp ∧ Costs s .ijmp 2 ∧ WritesNothing s t) ∧
    (∃ t, exec .eijmp s = .next t ∧
      t.pc = ((s.peek 92).toNat * 65536 + s.z.toNat) % s.progWords ∧
      t.cycles = s.cycles + costOf s .eijmp ∧ Costs s .eijmp 2 ∧ WritesNothing s t) ∧
    (∃ t, exec (.jmp k22) s = .next t ∧ t.pc = k22.toNat % s.progWords ∧
      t.cycles = s.cycles + costOf s (.jmp k22) ∧ Costs s (.jmp k22) 3 ∧ WritesNothing s t)

/-- The calls of R207 to R210: the return address is pushed, then control goes to the target, which
ICALL and EICALL read after the push (log 9); one more cycle with `PC22`. -/
def Obligations.CallsPushThenTransfer : Prop :=
  ∀ (s : State) (k : BitVec 12) (k22 : BitVec 22), 0 < s.progWords → PushRoom s →
    (∃ u, pushRet (s.pc + 1) s = .next u ∧
      ∃ t, exec (.rcall k) s = .next t ∧
        (t.pc : Int) =
          ((s.pc : Int) + 1 + (if k.toNat < 2048 then (k.toNat : Int) else k.toNat - 4096)) %
            s.progWords ∧
        t.cycles = s.cycles + costOf s (.rcall k) ∧
        Costs s (.rcall k) (if s.pc22 then 4 else 3) ∧
        WritesNothing u t) ∧
    (∃ u, pushRet (s.pc + 1) s = .next u ∧
      (∃ t, exec .icall s = .next t ∧ t.pc = u.z.toNat % s.progWords ∧
        t.cycles = s.cycles + costOf s .icall ∧
        Costs s .icall (if s.pc22 then 4 else 3) ∧
        WritesNothing u t) ∧
      (∃ t, exec .eicall s = .next t ∧
        t.pc = ((u.peek 92).toNat * 65536 + u.z.toNat) % s.progWords ∧
        t.cycles = s.cycles + costOf s .eicall ∧
        Costs s .eicall (if s.pc22 then 4 else 3) ∧
        WritesNothing u t)) ∧
    (∃ u, pushRet (s.pc + 2) s = .next u ∧
      ∃ t, exec (.call k22) s = .next t ∧ t.pc = k22.toNat % s.progWords ∧
        t.cycles = s.cycles + costOf s (.call k22) ∧
        Costs s (.call k22) (if s.pc22 then 5 else 4) ∧
        WritesNothing u t)

/-- R211, R212: the popped value modulo `PROG_WORDS` goes to `pc`; RETI also sets I and restores
nothing else. -/
def Obligations.ReturnsPopThenTransfer : Prop :=
  ∀ (s : State),
    let i := (popTop s).toNat
    let v := (s.peek i).toNat + 256 * (s.peek (i - 1)).toNat +
      (if s.pc22 then 65536 * (s.peek (i - 2)).toNat else 0)
    (PopRoom s →
      (∃ t, exec .ret s = .next t ∧ t.pc = v % s.progWords ∧ t.sp = popTop s ∧
        t.cycles = s.cycles + costOf s .ret ∧ Costs s .ret (if s.pc22 then 5 else 4) ∧
        OnlyWrites s t (fun a => a = 93 ∨ a = 94)) ∧
      (∃ t, exec .reti s = .next t ∧ t.pc = v % s.progWords ∧ t.sp = popTop s ∧
        t.flag flagI = true ∧
        t.cycles = s.cycles + costOf s .reti ∧ Costs s .reti (if s.pc22 then 5 else 4) ∧
        OnlyWrites s t (fun a => a = 93 ∨ a = 94 ∨ a = addrSreg) ∧
        FlagsKept s t [flagI])) ∧
    (s.dataSize ≤ i → ∀ r ∈ [Instr.ret, .reti], exec r s = .fault (.dataAddressOutOfRange i)) ∧
    (i < s.dataSize → i + 1 < s.retBytes →
      ∀ r ∈ [Instr.ret, .reti], exec r s = .fault (.dataAddressOutOfRange (-1)))

/-- R213, R214: the extra cycle and the 7-bit offset only when the branch is taken. -/
def Obligations.BranchesOnOneStatusBit : Prop :=
  ∀ (s : State) (f : BitNo) (k : BitVec 7) (i : Instr) (taken : Bool) (c : BranchCost),
    0 < s.progWords →
    (i, taken, c) ∈
      [(.brbs f k, s.flag f.val, s.params.cost.brbs),
        (.brbc f k, !s.flag f.val, s.params.cost.brbc)] →
    (ThisCore s → c = ⟨1, 2⟩) ∧
    ∃ t, exec i s = .next t ∧
      (taken = true →
        (t.pc : Int) =
          ((s.pc : Int) + 1 + (if k.toNat < 64 then (k.toNat : Int) else k.toNat - 128)) %
            s.progWords ∧
        t.cycles = s.cycles + c.taken) ∧
      (taken = false → Follows s t 1 c.notTaken) ∧
      WritesNothing s t

/-- R215 to R218: a skip looks at the next word only when its condition holds, skips one or two
words, and aborts when there is no next word. -/
def Obligations.SkipsOnRegisters : Prop :=
  ∀ (s : State) (d r : Reg) (b : BitNo) (i : Instr) (cond : Bool) (c : SkipCost),
    (i, cond, c) ∈
      [(.cpse d r, decide (s.reg d = s.reg r), s.params.cost.cpse),
        (.sbrc r b, decide ((s.reg r).toNat / 2 ^ b.val % 2 = 0), s.params.cost.sbrc),
        (.sbrs r b, decide ((s.reg r).toNat / 2 ^ b.val % 2 = 1), s.params.cost.sbrs)] →
    let two := isTwoWord (Cells.read s.prog (s.pc + 1))
    (ThisCore s → c = ⟨1, 2, 3⟩) ∧
    (cond = false → ∃ t, exec i s = .next t ∧ Follows s t 1 c.noSkip ∧ WritesNothing s t) ∧
    (cond = true → s.pc + 1 < s.progWords →
      ∃ t, exec i s = .next t ∧
        (two = false → Follows s t 2 c.oneWord) ∧ (two = true → Follows s t 3 c.twoWords) ∧
        WritesNothing s t) ∧
    (cond = true → s.progWords ≤ s.pc + 1 →
      exec i s = .fault (.progAddressOutOfRange (s.pc + 1)))

/-- R219, R220: one hooked read, always made, before any cycle is counted; then as the other skips.
At an address without a hook nothing but `pc` and `cycles` changes. -/
def Obligations.SkipsOnIoBits : Prop :=
  ∀ (s : State) (a : Fin 32) (b : BitNo) (i : Instr) (want : Nat) (c : SkipCost),
    (i, want, c) ∈ [(.sbic a b, 0, s.params.cost.sbic), (.sbis a b, 1, s.params.cost.sbis)] →
    let n := if isTwoWord (Cells.read s.prog (s.pc + 1)) then 2 else 1
    let skipped := if isTwoWord (Cells.read s.prog (s.pc + 1)) then c.twoWords else c.oneWord
    (ThisCore s → c = ⟨1, 2, 3⟩) ∧
    (∀ v u, memRead (a.val + 32) s = .next (v, u) →
      (v.toNat / 2 ^ b.val % 2 ≠ want →
        exec i s =
          .next { u with pc := (s.pc + 1) % s.progWords, cycles := s.cycles + c.noSkip }) ∧
      (v.toNat / 2 ^ b.val % 2 = want → s.pc + 1 < s.progWords →
        exec i s =
          .next { u with
                  pc := (s.pc + (1 + n)) % s.progWords, cycles := s.cycles + skipped }) ∧
      (v.toNat / 2 ^ b.val % 2 = want → s.progWords ≤ s.pc + 1 →
        exec i s = .fault (.progAddressOutOfRange (s.pc + 1)))) ∧
    (ReadPlain s (a.val + 32) → s.pc + 1 < s.progWords →
      ∃ t, exec i s = .next t ∧
        ((s.peek (a.val + 32)).toNat / 2 ^ b.val % 2 = want →
          Follows s t (1 + n) skipped) ∧
        ((s.peek (a.val + 32)).toNat / 2 ^ b.val % 2 ≠ want → Follows s t 1 c.noSkip) ∧
        WritesNothing s t)

/-! ## System (spec `47_system.md`) -/

/-- R197, R198, R225, R226, R228: only `pc` and `cycles` change. -/
def Obligations.NoOperations : Prop :=
  ∀ (s : State) (i : Instr), i ∈ [.nop, .sleep, .brk, .spm, .spmZInc] →
    ∃ t, exec i s = .next t ∧ Retires s t i 1 1 ∧ WritesNothing s t

/-- R227: WDR tells the environment, and that is its only effect besides `pc` and `cycles`. An
attached watchdog may only move its own clock event (log 6): what it does is an operation on the
scheduler with that handle, any number of them, until it returns, and a run in which it does
anything else is refused. -/
def Obligations.WatchdogResetNotifies : Prop :=
  ∀ (s : State),
    Costs s .wdr 1 ∧
    (s.watchdog = none →
      exec .wdr s =
        .next { s with
                pc := (s.pc + 1) % s.progWords, cycles := s.cycles + costOf s .wdr,
                envOut := .watchdogReset s.cycles :: s.envOut }) ∧
    (∀ h rel v b rest, s.watchdog = some h →
      s.envIn = [.device (.updateClockEvent h rel), .ret v b] ++ rest →
      exec .wdr s =
        .next { s with
                pc := (s.pc + 1) % s.progWords, cycles := s.cycles + costOf s .wdr,
                events := (updateClockEvent h rel s).events,
                envOut := .watchdogReset s.cycles :: s.envOut, envIn := rest }) ∧
    (∀ h t, s.watchdog = some h → exec .wdr s = .next t →
      t = { s with
            pc := (s.pc + 1) % s.progWords, cycles := s.cycles + costOf s .wdr,
            events := t.events, envIn := t.envIn,
            envOut := .watchdogReset s.cycles :: s.envOut }) ∧
    (∀ h acts act rest, s.watchdog = some h → s.envIn = acts ++ act :: rest →
      (∀ x ∈ acts, ∃ rel, x ∈ [.device (.addClockEvent h rel), .device (.clearClockEvent h),
        .device (.updateClockEvent h rel)]) →
      (∀ v b, act ≠ .ret v b) → (∀ rel, act ≠ .device (.addClockEvent h rel)) →
      act ≠ .device (.clearClockEvent h) → (∀ rel, act ≠ .device (.updateClockEvent h rel)) →
      exec .wdr s = .refused .environmentBreaksContract)

/-- R229: a first word that matches no row is a no-op of one word and one cycle, and with
STRICT_DECODE it aborts. -/
def Obligations.UnmatchedWordIsNoOperation : Prop :=
  ∀ (s : State) (r : DecodeReject),
    s.status = .running → s.pc < s.progWords →
    decode (Cells.read s.prog s.pc) 0 = .error r →
    (ThisCore s → s.params.cost.unmatched = 1) ∧
    (s.params.strictDecode = false →
      stepInstr s =
        .next { s with
                pc := (s.pc + 1) % s.progWords,
                cycles := s.cycles + s.params.cost.unmatched }) ∧
    (s.params.strictDecode = true →
      stepInstr s = .fault (.unmatchedOpcode (Cells.read s.prog s.pc)))

/-! ## Decoding (spec `30_encoding.md`) and the step -/

/-- Every well-formed instruction is what its words decode to, whatever word follows the one-word
instructions; and so from bytes, the low byte of each word first, with what follows given back. -/
def Obligations.DecodeInvertsEncode : Prop :=
  ∀ (i : Instr), i.wellFormed = true →
    (∀ k, decode ((encode i).getD 0 0) ((encode i).getD 1 k) = .ok i) ∧
    (∀ rest, decodeBytes ((encode i).flatMap (fun w => [lowByte w, highByte w]) ++ rest) =
      .ok (i, rest))

/-- Every word that decodes to an instruction is the word of that instruction, so no two encodings
share a meaning and no bit is dropped; the instruction is well formed. -/
def Obligations.EncodeInvertsDecode : Prop :=
  ∀ (w k : Word) (i : Instr), decode w k = .ok i →
    i.wellFormed = true ∧ encode i = if isTwoWord w then [w, k] else [w]

/-- R70, R80: the instructions of two words are LDS, STS, JMP and CALL, and `isTwoWord` tells them
from the first word alone. -/
def Obligations.TwoWordInstructions : Prop :=
  ∀ (w k : Word),
    isTwoWord w = true ↔
      (∃ d, decode w k = .ok (.lds d k)) ∨ (∃ r, decode w k = .ok (.sts k r)) ∨
      (∃ x, decode w k = .ok (.jmp x) ∧ x.toNat % 65536 = k.toNat) ∨
      (∃ x, decode w k = .ok (.call x) ∧ x.toNat % 65536 = k.toNat)

/-- Words of each family, from the examples of the spec's rules. -/
def Obligations.ExampleWordsDecode : Prop :=
  decode 0x0C01 0 = .ok (.add 0 1) ∧ decode 0x4F1F 0 = .ok (.sbci 17 0xFF) ∧
  decode 0x9601 0 = .ok (.adiw 24 1) ∧ decode 0x6820 0 = .ok (.ori 18 0x80) ∧
  decode 0x0389 0 = .ok (.fmulsu 16 17) ∧ decode 0x9828 0 = .ok (.cbi 5 0) ∧
  decode 0x01DC 0 = .ok (.movw 26 24) ∧ decode 0xB65D 0 = .ok (.inp 5 0x3D) ∧
  decode 0x9240 0x0100 = .ok (.sts 0x0100 4) ∧ decode 0xAC4F 0 = .ok (.lddY 4 63) ∧
  decode 0x9077 0 = .ok (.elpmZInc 7) ∧ decode 0x940D 0x2345 = .ok (.jmp 0x12345) ∧
  decode 0xF7F8 0 = .ok (.brbc 0 0x7F) ∧ decode 0x95A8 0 = .ok .wdr ∧
  decode 0x940B 0 = .error (.unmatched 0x940B)

/-- R88, R321: one step is the instruction that the word (or the two words) at `pc` decode to, and
then the tick. In the last place of program memory a two-word instruction has no second word, and
the step aborts (R52). -/
def Obligations.StepRunsTheDecodedInstruction : Prop :=
  ∀ (s : State), s.status = .running → s.pc < s.progWords →
    (∀ i, (isTwoWord (Cells.read s.prog s.pc) = true → s.pc + 1 < s.progWords) →
      decode (Cells.read s.prog s.pc) (Cells.read s.prog (s.pc + 1)) = .ok i →
      step s = andThen (exec i s) tick) ∧
    (isTwoWord (Cells.read s.prog s.pc) = true → s.pc + 1 = s.progWords →
      step s = .fault (.progAddressOutOfRange s.progWords))

/-! ## Whole-machine rules -/

/-- A step keeps the memories in canonical form and in their spaces, `pc` inside program memory, the
caches of the interrupt controller right, the clock events in order and the hooks unique (R18, R24,
R27, R330). -/
def Obligations.StepKeepsInvariant : Prop :=
  ∀ s t, CoreInv s → step s = .next t → CoreInv t

/-- The state after construction meets the invariant. -/
def Obligations.ResetMeetsInvariant : Prop := CoreInv State.reset

/-- No step writes program memory, the parameters or the run status (R21, R60). -/
def Obligations.StepKeepsProgramMemory : Prop :=
  ∀ s t, step s = .next t →
    t.prog = s.prog ∧ t.params = s.params ∧ t.status = .running ∧ t.watchdog = s.watchdog

/-- R20, R372: an instruction adds exactly its entry of `COST`, whatever the environment does in it
and wherever `HOOK_PHASE` places the cycles: a branch or skip one of its entries. The tick after it
adds nothing, or the 2 cycles of a dispatch. A step adds at least 1 cycle on every core, and 1 to 7 on
this one. -/
def Obligations.CyclesAdvanceByCost : Prop :=
  (∀ s i t, exec i s = .next t → ∃ n ∈ costOf s i :: extraCosts s i, t.cycles = s.cycles + n) ∧
  (∀ s t, tick s = .next t →
    t.cycles = s.cycles ∨ t.cycles = s.cycles + s.params.cost.dispatch) ∧
  (∀ s t, s.params.Legal → step s = .next t → s.cycles + 1 ≤ t.cycles) ∧
  (∀ s t, ThisCore s → step s = .next t →
    ∃ u, stepInstr s = .next u ∧ s.cycles + 1 ≤ u.cycles ∧ u.cycles ≤ s.cycles + 5 ∧
      (t.cycles = u.cycles ∨ t.cycles = u.cycles + 2))

/-- R15: of the instructions that reach the data space only through their registers and SREG, just
BSET 7, BCLR 7 and RETI change I, and just BST, BSET 6 and BCLR 6 change T. -/
def Obligations.InterruptFlagWriters : Prop :=
  ∀ s i t, exec i s = .next t →
    readAddress s i = none → storeAddress s i = none →
    (∀ r, i ≠ .push r) → (∀ k, i ≠ .rcall k) → i ≠ .icall → i ≠ .eicall →
    (∀ k, i ≠ .call k) → i ≠ .wdr →
    (t.flag flagI ≠ s.flag flagI → i ∈ [.bset 7, .bclr 7, .reti]) ∧
    (t.flag flagT ≠ s.flag flagT → i ∈ [.bset 6, .bclr 6] ∨ ∃ d b, i = .bst d b)

/-! ## Hooks (spec `20_memory.md`) -/

/-- R47: the bounds check, then the read hook if the address is above 31 and has one, whose answer
modulo 256 stands for the byte, and otherwise the byte. Whatever the hook does before it answers is
done; where its run aborts or is refused, so is the read. -/
def Obligations.MemReadConsultsItsHook : Prop :=
  ∀ (s : State) (a : Nat),
    (s.dataSize ≤ a → memRead a s = .fault (.dataAddressOutOfRange a)) ∧
    (a < s.dataSize → a ≤ 31 ∨ Table.find s.readHooks a = none →
      memRead a s = .next (s.peek a, s)) ∧
    (∀ h, a < s.dataSize → 31 < a → Table.find s.readHooks a = some h →
      (∀ r t, callEnv .hook (.readHook h a s.cycles) s = .next (r, t) →
        ∃ x, memRead a s = .next (x, t) ∧ x.toNat = r.value % 256) ∧
      (∀ e, callEnv .hook (.readHook h a s.cycles) s = .fault e → memRead a s = .fault e) ∧
      (∀ e, callEnv .hook (.readHook h a s.cycles) s = .refused e → memRead a s = .refused e) ∧
      (∀ v b rest, s.envIn = .ret v b :: rest →
        ∃ x, x.toNat = v % 256 ∧
          memRead a s =
            .next (x, { s with
                        envIn := rest, envOut := .readHook h a s.cycles :: s.envOut })))

/-- R48: the write hook is called with the new value, the value stored, the address and the mask;
unless it handled the write, the value as it was passed is stored afterwards, whatever the hook did
to the byte meanwhile and whatever the mask. Where the hook's run aborts or is refused, so is the
write. -/
def Obligations.MemWriteConsultsItsHook : Prop :=
  ∀ (s : State) (a : Nat) (v m : Byte),
    (s.dataSize ≤ a → memWrite a v m s = .fault (.dataAddressOutOfRange a)) ∧
    (a < s.dataSize → Table.find s.writeHooks a = none →
      memWrite a v m s = .next (s.poke a v)) ∧
    (∀ h, a < s.dataSize → Table.find s.writeHooks a = some h →
      let call := callEnv .hook (.writeHook h v (s.peek a) a m s.cycles) s
      (∀ r t, call = .next (r, t) → r.handled = true → memWrite a v m s = .next t) ∧
      (∀ r t, call = .next (r, t) → r.handled = false →
        ∃ u, memWrite a v m s = .next u ∧ u = { t with data := u.data } ∧
          ∀ c, u.peek c = if c = a then v else t.peek c) ∧
      (∀ e, call = .fault e → memWrite a v m s = .fault e) ∧
      (∀ e, call = .refused e → memWrite a v m s = .refused e) ∧
      (∀ x handled rest, s.envIn = .ret x handled :: rest →
        ∃ t, memWrite a v m s = .next t ∧
          (∀ c, t.peek c = if c = a ∧ handled = false then v else s.peek c) ∧
          t.envIn = rest ∧
          t.envOut = .writeHook h v (s.peek a) a m s.cycles :: s.envOut) ∧
      (∀ c w x handled rest, c < s.dataSize → Table.find s.writeHooks c = none →
        s.envIn = [.writeData c w 0xFF, .ret x handled] ++ rest →
        ∃ t, memWrite a v m s = .next t ∧
          (∀ e, t.peek e =
            if e = a ∧ handled = false then v else if e = c then w else s.peek e)) ∧
      (∀ w x y handled rest,
        s.envIn = [.writeData a w 0xFF, .ret x false, .ret y handled] ++ rest →
        ∃ t, memWrite a v m s = .next t ∧
          (∀ e, t.peek e = if e = a then (if handled then w else v) else s.peek e)))

/-- R373: the `cycles` that a hook sees. On this core LD, LDD and LDS have added one cycle before
their hooked read; every other access, the write of SBI, CBI, XCH, LAS, LAC and LAT included, comes
before its instruction's cycles. The hooks here answer at once. -/
def Obligations.HookSeesCyclesOfItsPhase : Prop :=
  ∀ (s : State) (i : Instr) (a : Nat),
    a < s.dataSize →
    (∀ t h v b rest, readAddress s i = some a → 31 < a → Table.find s.readHooks a = some h →
      Table.find s.writeHooks a = none → s.envIn = .ret v b :: rest → exec i s = .next t →
      t.envOut = .readHook h a (s.cycles + cyclesAtRead s i) :: s.envOut) ∧
    (∀ t h v b rest, storeAddress s i = some a → Table.find s.writeHooks a = some h →
      s.envIn = .ret v b :: rest → exec i s = .next t →
      ∃ x old, t.envOut =
        .writeHook h x old a 0xFF (s.cycles + cyclesAtWrite s i) :: s.envOut) ∧
    (∀ t h v b rest, readAddress s i = some a → ReadsAndWrites i →
      a ≤ 31 ∨ Table.find s.readHooks a = none →
      Table.find s.writeHooks a = some h → s.envIn = .ret v b :: rest → exec i s = .next t →
      ∃ x old m, t.envOut =
        .writeHook h x old a m (s.cycles + cyclesAtWrite s i) :: s.envOut) ∧
    (∀ t g h v b w c rest, readAddress s i = some a → ReadsAndWrites i → 31 < a →
      Table.find s.readHooks a = some g → Table.find s.writeHooks a = some h →
      s.envIn = [.ret v b, .ret w c] ++ rest → exec i s = .next t →
      ∃ x old m, t.envOut =
        .writeHook h x old a m (s.cycles + cyclesAtWrite s i) ::
          .readHook g a (s.cycles + cyclesAtRead s i) :: s.envOut) ∧
    (ThisCore s →
      cyclesAtWrite s i = 0 ∧
      (readAddress s i = some a →
        cyclesAtRead s i =
          (match i with
            | .inp _ _ | .sbi _ _ | .cbi _ _ | .sbic _ _ | .sbis _ _
            | .xch _ | .las _ | .lac _ | .lat _ => 0
            | _ => 1)))

/-- R49, R336: a run in which the environment does what a hook or callback must not do is refused;
so is one in which a callback clears or moves the event that is firing. It makes no difference what
the environment did before it (`acts`, after which its call has not returned), nor in how many hook
calls that it made itself it stands (`frames`). No operation is defined on an aborted core (R28,
R362). -/
def Obligations.ForbiddenRunsAreRefused : Prop :=
  ∀ (s : State),
    (∀ (c : Contract) (act : EnvAct),
      (∃ x, act = .forbidden x) ∨
        (∃ h, c = .callback h ∧
          (act = .device (.clearClockEvent h) ∨
            ∃ rel, act = .device (.updateClockEvent h rel))) →
      (∀ acts frames rest,
        envRun c acts frames s = .refused .environmentDidNotReturn →
        envRun c (acts ++ act :: rest) frames s = .refused .environmentBreaksContract) ∧
      (∀ k acts rest, s.envIn = acts ++ act :: rest →
        envRun c acts [] (s.logCall k) = .refused .environmentDidNotReturn →
        callEnv c k s = .refused .environmentBreaksContract)) ∧
    (∀ r op, s.status = .aborted r →
      step s = .refused .coreAborted ∧ hostDo op s = .refused .coreAborted)

/-! ## Interrupts (spec `60_exceptions.md`) -/

/-- R312: the descriptor is stored at its vector, `lowest_pending` goes down to it, `highest_bound`
goes up to it, and nothing else changes; a vector outside the table is a ConfigError. -/
def Obligations.QueueMakesVectorPending : Prop :=
  ∀ (s : State) (d : Descriptor),
    (d.vector < s.params.maxVectors →
      ∃ t, queueInterrupt d s = .next t ∧
        (∀ v, Table.find t.pending v =
          if v = d.vector then some d else Table.find s.pending v) ∧
        (s.lowestPending = none → t.lowestPending = some d.vector) ∧
        (∀ v, s.lowestPending = some v → t.lowestPending = some (min v d.vector)) ∧
        t.highestBound = max s.highestBound d.vector ∧
        t = { s with
              pending := t.pending, lowestPending := t.lowestPending,
              highestBound := t.highestBound }) ∧
    (s.params.maxVectors ≤ d.vector →
      queueInterrupt d s = .fault (.configError .vectorOutOfTable))

/-- R313: the flag bits go to 0 if asked, the entry goes away, and `lowest_pending` is the least
vector that is left. -/
def Obligations.ClearRemovesEntryAndRescans : Prop :=
  ∀ (s : State) (d : Descriptor) (clearFlag : Bool), CoreInv s →
    (clearFlag = true → d.flagReg < s.dataSize) →
    ∃ t, clearInterrupt d clearFlag s = .next t ∧
      (∀ v, Table.find t.pending v = if v = d.vector then none else Table.find s.pending v) ∧
      (∀ v, t.lowestPending = some v ↔
        (Table.find t.pending v).isSome ∧ ∀ w, w < v → Table.find t.pending w = none) ∧
      t.highestBound = s.highestBound ∧
      (∀ a, t.peek a =
        if clearFlag = true ∧ a = d.flagReg then s.peek a &&& ~~~ d.flagMask else s.peek a) ∧
      t.pc = s.pc ∧ t.cycles = s.cycles ∧ t.events = s.events ∧
      t.readHooks = s.readHooks ∧ t.writeHooks = s.writeHooks

/-- R310, R311, R314 in terms of R312 and R313: setting the flag, reporting an enable bit, and
clearing by a written flag. -/
def Obligations.FlagAndEnableOperations : Prop :=
  ∀ (s : State) (d : Descriptor) (n : Byte),
    d.flagReg < s.dataSize → d.enableReg < s.dataSize →
    let set := s.poke d.flagReg
      (if d.inverseFlag then s.peek d.flagReg &&& ~~~ d.flagMask
        else s.peek d.flagReg ||| d.flagMask)
    (set.peek d.enableReg &&& d.enableMask ≠ 0 →
      setInterruptFlag d s = queueInterrupt d set) ∧
    (set.peek d.enableReg &&& d.enableMask = 0 → setInterruptFlag d s = .next set) ∧
    (n &&& d.enableMask ≠ 0 →
      ((s.peek d.flagReg &&& d.flagMask ≠ 0 ↔ d.inverseFlag = false) →
        updateInterruptEnable d n s = queueInterrupt d s) ∧
      ((s.peek d.flagReg &&& d.flagMask ≠ 0 ↔ d.inverseFlag = true) →
        updateInterruptEnable d n s = .next s)) ∧
    (n &&& d.enableMask = 0 → updateInterruptEnable d n s = clearInterrupt d false s) ∧
    (n &&& d.flagMask ≠ 0 → clearInterruptByFlag d n s = clearInterrupt d true s) ∧
    (n &&& d.flagMask = 0 → clearInterruptByFlag d n s = .next s)

/-- R317: taking an interrupt saves the return address on the stack and nothing else, clears I, adds
2 cycles, and goes to the vector; unless the descriptor is constant the entry and its flag bits are
cleared (R318). Stated where the stack bytes, SP, SREG and the flag register are different bytes. -/
def Obligations.InterruptEntry : Prop :=
  ∀ (s : State) (v : Nat) (d : Descriptor),
    CoreInv s → s.flag flagI = true → s.lowestPending = some v →
    Table.find s.pending v = some d → v < s.progWords → PushRoom s →
    d.flagReg < s.dataSize → d.flagReg < 93 ∨ 95 < d.flagReg →
    (∀ n, n < s.retBytes → s.sp.toNat - n ≠ d.flagReg ∧
      (s.sp.toNat - n < 93 ∨ 95 < s.sp.toNat - n)) →
    ∃ t, dispatchInterrupt s = .next t ∧
      t.pc = v ∧ t.cycles = s.cycles + s.params.cost.dispatch ∧
      (ThisCore s → s.params.cost.dispatch = 2) ∧
      t.sp = s.sp - BitVec.ofNat 16 s.retBytes ∧
      (∀ n, n < s.retBytes → (t.peek (s.sp.toNat - n)).toNat = s.pc / 256 ^ n % 256) ∧
      t.flag flagI = false ∧ FlagsKept s t [flagI] ∧
      t.peek d.flagReg = (if d.constant then s.peek d.flagReg
        else s.peek d.flagReg &&& ~~~ d.flagMask) ∧
      (∀ w, Table.find t.pending w =
        if w = v ∧ d.constant = false then none else Table.find s.pending w) ∧
      (∀ a, a ≠ 93 → a ≠ 94 → a ≠ 95 → a ≠ d.flagReg →
        (a ≤ s.sp.toNat → a + s.retBytes ≤ s.sp.toNat) → t.peek a = s.peek a) ∧
      t.prog = s.prog ∧ t.params = s.params ∧ t.events = s.events ∧
      t.readHooks = s.readHooks ∧ t.writeHooks = s.writeHooks

/-- R315: the vector that is taken is the least one pending. After it, unless the descriptor is
constant, the table is without it, and `lowest_pending` is the least vector that is left, or none
if none is left; a constant one stays. The order in which two vectors were queued leaves no
trace. -/
def Obligations.LowestVectorTakenFirst : Prop :=
  (∀ (s t : State), CoreInv s → s.flag flagI = true → s.pending ≠ [] →
    dispatchInterrupt s = .next t →
    ∃ d, (t.pc, d) ∈ s.pending ∧ (∀ e ∈ s.pending, t.pc ≤ e.1) ∧
      (d.constant = true → t.pending = s.pending ∧ t.lowestPending = s.lowestPending) ∧
      (d.constant = false →
        (∀ w, Table.find t.pending w =
          if w = t.pc then none else Table.find s.pending w) ∧
        (∀ v, t.lowestPending = some v ↔
          v ≠ t.pc ∧ (∃ e, (v, e) ∈ s.pending) ∧
            ∀ e ∈ s.pending, e.1 ≠ t.pc → v ≤ e.1) ∧
        (t.lowestPending = none ↔ ∀ e ∈ s.pending, e.1 = t.pc))) ∧
  (∀ (s : State) (d e : Descriptor), CoreInv s → d.vector ≠ e.vector →
    andThen (queueInterrupt d s) (queueInterrupt e) =
      andThen (queueInterrupt e s) (queueInterrupt d))

/-- R145, R146, R364, R365: the tick after SEI or RETI already sees I set, and the tick after CLI
sees it clear. -/
def Obligations.InterruptEnableActsAtOnce : Prop :=
  ∀ (s t : State) (v : Nat) (d : Descriptor),
    s.lowestPending = some v → Table.find s.pending v = some d →
    ((exec (.bset 7) s = .next t ∨ exec .reti s = .next t) →
      dispatchInterrupt t = takeInterrupt d t) ∧
    (exec (.bclr 7) s = .next t → dispatchInterrupt t = .next t)

/-- A tick with no event due and with interrupts disabled or none pending changes nothing; a vector
at or beyond the end of program memory aborts and pushes nothing (R317, R320). -/
def Obligations.IdleTickAndBadVector : Prop :=
  ∀ (s : State), s.status = .running →
    (∀ e, s.events.head? = some e → s.cycles < e.target) →
    (s.flag flagI = false ∨ s.lowestPending = none → tick s = .next s) ∧
    (∀ v d, s.flag flagI = true → s.lowestPending = some v →
      Table.find s.pending v = some d → s.progWords ≤ d.vector →
      tick s = .fault (.progAddressOutOfRange d.vector))

/-! ## The event scheduler (spec `60_exceptions.md` section 6) -/

/-- R331 to R333: a new entry has its target at least one cycle ahead and goes in front of the first
one whose target is not less; a clear removes the first entry of the handle; an update adds it again
relative to the present `cycles`; with no such entry nothing changes. -/
def Obligations.SchedulerListOperations : Prop :=
  ∀ (s : State) (h : Handle) (rel : Int),
    (∃ (e : Event) (front back : List Event),
      e.handle = h ∧ (e.target : Int) = s.cycles + max 1 rel ∧
      s.events = front ++ back ∧
      (∀ x ∈ front, x.target < e.target) ∧
      (∀ x, back.head? = some x → e.target ≤ x.target) ∧
      addClockEvent h rel s = { s with events := front ++ e :: back }) ∧
    ((∀ x ∈ s.events, x.handle ≠ h) →
      hasEvent h s.events = false ∧ clearClockEvent h s = s ∧ updateClockEvent h rel s = s) ∧
    (∀ front e back, s.events = front ++ e :: back → e.handle = h →
      (∀ x ∈ front, x.handle ≠ h) →
      hasEvent h s.events = true ∧
      clearClockEvent h s = { s with events := front ++ back } ∧
      updateClockEvent h rel s = addClockEvent h rel { s with events := front ++ back })

/-- R334, R335: an event that is due has its callback called once, on the list without it; the state
is what the callback leaves, and where its run aborts or is refused, so is the service. A tick serves
no second event, and none that is not due. Whatever the callback does, an event that it adds lies in
the future, so that no event fires in the tick in which it was added. That the entry is taken off
before the call is the model's choice, which R334 allows (log 13). -/
def Obligations.OneDueEventPerTick : Prop :=
  ∀ (s : State),
    (s.events = [] → serviceEvent s = .next s) ∧
    (∀ e rest, s.events = e :: rest → s.cycles < e.target → serviceEvent s = .next s) ∧
    (∀ e rest, s.events = e :: rest → e.target ≤ s.cycles →
      let call :=
        callEnv (.callback e.handle) (.callback e.handle s.cycles) { s with events := rest }
      (∀ r t, call = .next (r, t) → serviceEvent s = .next t) ∧
      (∀ x, call = .fault x → serviceEvent s = .fault x) ∧
      (∀ x, call = .refused x → serviceEvent s = .refused x)) ∧
    (∀ e rest v b more, s.events = e :: rest → e.target ≤ s.cycles →
      s.envIn = .ret v b :: more →
      serviceEvent s =
        .next { s with
                events := rest, envIn := more,
                envOut := .callback e.handle s.cycles :: s.envOut }) ∧
    (∀ t, serviceEvent s = .next t →
      t.cycles = s.cycles ∧ ∀ e ∈ t.events, e ∈ s.events ∨ s.cycles < e.target)

/-! ## Reset, construction and the host (spec `70_reset_and_hazards.md`) -/

/-- R352: what `reset()` sets, and that it keeps memory, `cycles`, the hooks and the program. -/
def Obligations.ResetKeepsMemoryAndCycles : Prop :=
  ∀ (s : State) (bound : Nat), s.status = .running →
    ∃ t, hostDo (.reset bound) s = .next t ∧
      t.pc = 0 ∧ t.pending = [] ∧ t.lowestPending = none ∧ t.events = [] ∧
      t.data = s.data ∧ t.cycles = s.cycles ∧ t.prog = s.prog ∧ t.params = s.params ∧
      t.readHooks = s.readHooks ∧ t.writeHooks = s.writeHooks ∧ t.status = .running

/-- R30, R350: a constructed core holds the program and zeros everywhere else, has the spec's
parameters, and bytes are taken low byte first. With the parameters of R3 given, it has those, and
its data space begins with `INIT_DATA`. Parameters outside their ranges are a ConfigError: the
model's choice of an outcome (log 16, log 27). -/
def Obligations.ConstructedCore : Prop :=
  ∀ (ws : List Word) (sramBytes : Nat), 1 ≤ ws.length → ws.length ≤ 2 ^ 22 →
    (∃ t, construct (.words ws) sramBytes = .next t ∧
      construct (.bytes (ws.flatMap fun w => [lowByte w, highByte w])) sramBytes = .next t ∧
      (∀ i, Cells.read t.prog i = ws.getD i 0) ∧ (∀ a, t.peek a = 0) ∧
      t.progWords = ws.length ∧ t.dataSize = sramBytes + 256 ∧
      t.pc22 = decide (0x20000 < 2 * ws.length) ∧
      t.params.maxVectors = 128 ∧ t.params.strictDecode = false ∧ ThisCore t ∧
      t.pc = 0 ∧ t.cycles = 0 ∧ t.pending = [] ∧ t.lowestPending = none ∧ t.events = [] ∧
      t.readHooks = [] ∧ t.writeHooks = [] ∧ t.status = .running ∧ CoreInv t) ∧
    (∀ o : Options, 128 ≤ o.maxVectors → o.cost.Positive →
      ∃ t, constructWith (.words ws) sramBytes o = .next t ∧
        t.params =
          { sramBytes := sramBytes, progWords := ws.length, maxVectors := o.maxVectors,
            strictDecode := o.strictDecode, cost := o.cost, phase := o.phase } ∧
        (∀ a, a < t.dataSize → t.peek a = o.initData.getD a 0) ∧
        (∀ i, Cells.read t.prog i = ws.getD i 0) ∧ CoreInv t) ∧
    (∀ o : Options, o.maxVectors < 128 ∨ ¬ o.cost.Positive →
      ∃ k, constructWith (.words ws) sramBytes o = .fault (.configError k))

/-- R16, R50: 16-bit values are two bytes. SP is what two OUT instructions wrote, low byte and then
high byte. A 16-bit accessor writes the two bytes at `a` and `a + 1` in the order asked for and
nothing else, and reads back what was written; one that does not fit aborts (R44). That the
accessors call no hook and that the abort names the lower address where both lie outside is the
model's reading (log 28). -/
def Obligations.SixteenBitValuesAreTwoBytes : Prop :=
  ∀ (s : State),
    (∀ (l h : Reg), WritePlain s 93 → WritePlain s 94 →
      ∃ t u, exec (.out 0x3D l) s = .next t ∧ exec (.out 0x3E h) t = .next u ∧
        u.sp.toNat = (s.reg l).toNat + 256 * (s.reg h).toNat ∧
        OnlyWrites s u (fun a => a = 93 ∨ a = 94)) ∧
    (∀ (a : Nat) (v : Word), a + 1 < s.dataSize →
      (∃ t, writeWord .little a v s = .next t ∧ readWord .little a t = .next v ∧
        (t.peek a).toNat = v.toNat % 256 ∧ (t.peek (a + 1)).toNat = v.toNat / 256 ∧
        t.pc = s.pc ∧ t.cycles = s.cycles ∧ OnlyWrites s t (fun x => x = a ∨ x = a + 1)) ∧
      (∃ t, writeWord .big a v s = .next t ∧ readWord .big a t = .next v ∧
        (t.peek a).toNat = v.toNat / 256 ∧ (t.peek (a + 1)).toNat = v.toNat % 256 ∧
        t.pc = s.pc ∧ t.cycles = s.cycles ∧ OnlyWrites s t (fun x => x = a ∨ x = a + 1))) ∧
    (∀ (o : ByteOrder) (a : Nat) (v : Word), s.dataSize ≤ a + 1 →
      ∃ e, (s.dataSize ≤ a → e = a) ∧ (a < s.dataSize → e = a + 1) ∧
        readWord o a s = .fault (.dataAddressOutOfRange e) ∧
        writeWord o a v s = .fault (.dataAddressOutOfRange e))
end

