-- ==== Sys2Proof/Laws/Decode.lean ====
section
/-!
SUPPORT. The opcode table is unambiguous, so that a word is decoded by any row that selects it
(spec R72).
-/

namespace Sys2Proof

/-- Two rows that differ in a bit that both of them fix. -/
def Row.apart (a b : Row) : Bool := (a.bits ^^^ b.bits) &&& (a.mask &&& b.mask) != 0

/-- The rows of R77 are mutually exclusive (spec R72). -/
theorem opcodeTable_apart : opcodeTable.Pairwise fun a b => a.apart b = true := by decide +kernel

theorem Row.not_both {a b : Row} {w : Word} (h : a.apart b = true) (ha : a.selects w = true)
    (hb : b.selects w = true) : False := by
  have ha : w.toNat &&& a.mask = a.bits := Nat.eq_of_beq_eq_true ha
  have hb : w.toNat &&& b.mask = b.bits := Nat.eq_of_beq_eq_true hb
  have h : (a.bits ^^^ b.bits) &&& (a.mask &&& b.mask) ≠ 0 := by simpa [Row.apart] using h
  apply h
  apply Nat.eq_of_testBit_eq
  intro i
  rw [← ha, ← hb]
  simp only [Nat.testBit_and, Nat.testBit_xor, Nat.zero_testBit]
  cases w.toNat.testBit i <;> cases a.mask.testBit i <;> cases b.mask.testBit i <;> rfl

theorem find_of_selects {rows : List Row} (h : rows.Pairwise fun a b => a.apart b = true)
    {row : Row} (hm : row ∈ rows) {w : Word} (hs : row.selects w = true) :
    rows.find? (·.selects w) = some row := by
  induction rows with
  | nil => cases hm
  | cons r rows ih =>
    obtain ⟨hr, ht⟩ := List.pairwise_cons.1 h
    rcases List.mem_cons.1 hm with rfl | hm
    · simp [hs]
    · have : r.selects w = false := by
        cases hsel : r.selects w
        · rfl
        · exact (Row.not_both (hr row hm) hsel hs).elim
      rw [List.find?_cons, this]
      exact ih ht hm

/-- A word is decoded by the row that selects it, wherever that row stands in the table. -/
theorem decode_row {row : Row} (hm : row ∈ opcodeTable) {w : Word} (k : Word)
    (hs : row.selects w = true) : decode w k = .ok (row.build w k) := by
  rw [decode, find_of_selects opcodeTable_apart hm hs]

/-- What a decoded instruction comes from. -/
theorem decode_eq_ok {w k : Word} {i : Instr} (h : decode w k = .ok i) :
    ∃ row ∈ opcodeTable, row.selects w = true ∧ i = row.build w k := by
  unfold decode at h
  split at h
  · rename_i row hf
    cases h
    exact ⟨row, List.mem_of_find?_eq_some hf, by simpa using List.find?_some hf, rfl⟩
  · cases h

/-- A word is rejected exactly if no row selects it, and the rejection names it (spec R79). -/
theorem decode_eq_error {w k : Word} {r : DecodeReject} :
    decode w k = .error r ↔
      (∀ row ∈ opcodeTable, row.selects w = false) ∧ r = .unmatched w := by
  unfold decode
  constructor
  · intro h
    split at h
    · cases h
    · rename_i hf
      cases h
      exact ⟨fun row hm => by simpa using List.find?_eq_none.1 hf row hm, rfl⟩
  · rintro ⟨h, rfl⟩
    rw [List.find?_eq_none.2 (by simpa using h)]

end Sys2Proof
end

