-- ==== Sys2Proof/Laws/Table.lean ====
section
/-!
SUPPORT. Read after write for tables and memories, their canonical form, and that equal contents are
equal lists.
-/

namespace Sys2Proof.Machine

variable {α : Type} {w : Nat}

/-! ## Reading what was written -/

@[simp] theorem Table.find_nil (k : Nat) : Table.find ([] : List (Nat × α)) k = none := rfl

theorem Table.find_put (t : List (Nat × α)) (a b : Nat) (v : α) :
    Table.find (Table.put t a v) b = if b = a then some v else Table.find t b := by
  induction t with
  | nil => simp [Table.put, Table.find, eq_comm]
  | cons e t ih =>
    obtain ⟨k, u⟩ := e
    unfold Table.put
    split
    · by_cases h : b = a
      · subst h; simp [Table.find]
      · simp [Table.find, h, Ne.symm h]
    · split
      · rename_i h1 h2
        subst h2
        by_cases h : b = a
        · subst h; simp [Table.find]
        · simp [Table.find, h, Ne.symm h]
      · rename_i h1 h2
        by_cases h : b = a
        · subst h; simp [Table.find, ih, Ne.symm h2]
        · simp [Table.find, ih, h]

theorem Table.erase_cons (t : List (Nat × α)) (e : Nat × α) (k : Nat) :
    Table.erase (e :: t) k = if e.1 = k then Table.erase t k else e :: Table.erase t k := by
  by_cases h : e.1 = k <;> simp [Table.erase, h]

theorem Table.find_erase (t : List (Nat × α)) (a b : Nat) :
    Table.find (Table.erase t a) b = if b = a then none else Table.find t b := by
  induction t with
  | nil => simp [Table.erase]
  | cons e t ih =>
    obtain ⟨k, u⟩ := e
    rw [Table.erase_cons]
    by_cases h : b = a
    · subst h
      by_cases hk : k = b
      · simpa [hk] using ih
      · simpa [hk, Table.find] using ih
    · by_cases hk : k = a
      · have : ¬ a = b := fun hab => h hab.symm
        simp [hk, ih, h, Table.find, this]
      · simp [hk, ih, h, Table.find]

/-- Read after write, of a memory that need not be in canonical form. -/
theorem Cells.read_write (m : List (Nat × BitVec w)) (a b : Nat) (v : BitVec w) :
    Cells.read (Cells.write m a v) b = if b = a then v else Cells.read m b := by
  unfold Cells.read Cells.write
  split
  · rename_i hv
    by_cases h : b = a <;> simp [Table.find_erase, h, hv]
  · by_cases h : b = a <;> simp [Table.find_put, h]

/-! ## The canonical form -/

theorem Table.mem_put {t : List (Nat × α)} {k : Nat} {v : α} {e : Nat × α}
    (h : e ∈ Table.put t k v) : e = (k, v) ∨ e ∈ t := by
  induction t with
  | nil => simpa [Table.put] using h
  | cons c t ih =>
    obtain ⟨j, u⟩ := c
    unfold Table.put at h
    split at h
    · rcases List.mem_cons.1 h with h | h
      · exact .inl h
      · exact .inr h
    · split at h
      · rcases List.mem_cons.1 h with h | h
        · exact .inl h
        · exact .inr (List.mem_cons_of_mem _ h)
      · rcases List.mem_cons.1 h with h | h
        · exact .inr (by rw [h]; exact List.mem_cons_self)
        · exact (ih h).imp id (List.mem_cons_of_mem _)

theorem Table.put_sorted {t : List (Nat × α)} (k : Nat) (v : α) (h : Table.Sorted t) :
    Table.Sorted (Table.put t k v) := by
  induction t with
  | nil => simp [Table.put, Table.Sorted]
  | cons e t ih =>
    obtain ⟨j, u⟩ := e
    obtain ⟨hj, ht⟩ := List.pairwise_cons.1 h
    unfold Table.put
    split
    · rename_i hlt
      refine List.pairwise_cons.2 ⟨fun x hx => ?_, h⟩
      rcases List.mem_cons.1 hx with rfl | hx
      · exact hlt
      · exact Nat.lt_trans hlt (hj x hx)
    · split
      · rename_i hnlt heq
        subst heq
        exact List.pairwise_cons.2 ⟨fun x hx => hj x hx, ht⟩
      · rename_i hnlt hne
        refine List.pairwise_cons.2 ⟨fun x hx => ?_, ih ht⟩
        rcases Table.mem_put hx with rfl | hx
        · show j < k
          omega
        · exact hj x hx

theorem Table.erase_sorted {t : List (Nat × α)} (k : Nat) (h : Table.Sorted t) :
    Table.Sorted (Table.erase t k) := List.Pairwise.filter _ h

theorem Table.mem_erase {t : List (Nat × α)} {k : Nat} {e : Nat × α} :
    e ∈ Table.erase t k ↔ e ∈ t ∧ e.1 ≠ k := by simp [Table.erase]

/-- A write inside the memory keeps its canonical form. -/
theorem Cells.write_wf {size : Nat} {m : List (Nat × BitVec w)} {a : Nat} (v : BitVec w)
    (h : Cells.wf size m) (ha : a < size) : Cells.wf size (Cells.write m a v) := by
  unfold Cells.write
  split
  · exact ⟨Table.erase_sorted a h.1, fun c hc => h.2 c (Table.mem_erase.1 hc).1⟩
  · rename_i hv
    refine ⟨Table.put_sorted a v h.1, fun c hc => ?_⟩
    rcases Table.mem_put hc with rfl | hc
    · exact ⟨ha, hv⟩
    · exact h.2 c hc

theorem Cells.nil_wf (size : Nat) : Cells.wf size ([] : List (Nat × BitVec w)) :=
  ⟨List.Pairwise.nil, by simp⟩

theorem Cells.ofList_lower (a : Nat) (vs : List (BitVec w)) :
    ∀ c ∈ Cells.ofList a vs, a ≤ c.1 ∧ c.1 < a + vs.length ∧ c.2 ≠ 0 := by
  induction vs generalizing a with
  | nil => simp [Cells.ofList]
  | cons v vs ih =>
    intro c hc
    unfold Cells.ofList at hc
    split at hc
    · have := ih (a + 1) c hc
      exact ⟨by omega, by simp; omega, this.2.2⟩
    · rename_i hv
      rcases List.mem_cons.1 hc with rfl | hc
      · exact ⟨Nat.le_refl _, by simp, hv⟩
      · have := ih (a + 1) c hc
        exact ⟨by omega, by simp; omega, this.2.2⟩

/-- The memory of a list of values is in canonical form. -/
theorem Cells.ofList_wf (vs : List (BitVec w)) : Cells.wf vs.length (Cells.ofList 0 vs) := by
  refine ⟨?_, fun c hc => ?_⟩
  · generalize 0 = a
    induction vs generalizing a with
    | nil => simp [Cells.ofList, Table.Sorted]
    | cons v vs ih =>
      unfold Cells.ofList
      split
      · exact ih (a + 1)
      · exact List.pairwise_cons.2
          ⟨fun x hx => (Cells.ofList_lower (a + 1) vs x hx).1, ih (a + 1)⟩
  · have := Cells.ofList_lower 0 vs c hc
    exact ⟨by omega, this.2.2⟩

theorem Table.find_none_of_lt {t : List (Nat × α)} {a : Nat} (h : ∀ c ∈ t, a < c.1) :
    Table.find t a = none := by
  induction t with
  | nil => rfl
  | cons e t ih =>
    have he := h e List.mem_cons_self
    unfold Table.find
    rw [if_neg (by omega)]
    exact ih fun c hc => h c (List.mem_cons_of_mem _ hc)

theorem Table.mem_of_find {t : List (Nat × α)} {k : Nat} {v : α} (h : Table.find t k = some v) :
    (k, v) ∈ t := by
  induction t with
  | nil => simp at h
  | cons e t ih =>
    obtain ⟨j, u⟩ := e
    unfold Table.find at h
    split at h
    · rename_i hj
      cases h
      subst hj
      exact List.mem_cons_self
    · exact List.mem_cons_of_mem _ (ih h)

theorem Table.find_of_mem {t : List (Nat × α)} {k : Nat} {v : α} (hs : Table.Sorted t)
    (h : (k, v) ∈ t) : Table.find t k = some v := by
  induction t with
  | nil => simp at h
  | cons e t ih =>
    obtain ⟨j, u⟩ := e
    obtain ⟨hj, ht⟩ := List.pairwise_cons.1 hs
    rcases List.mem_cons.1 h with h | h
    · cases h; simp [Table.find]
    · have := hj _ h
      unfold Table.find
      rw [if_neg (by simp at this; omega)]
      exact ih ht h

/-- The values of a list read back at their addresses. -/
theorem Cells.read_ofList (a : Nat) (vs : List (BitVec w)) (i : Nat) :
    Cells.read (Cells.ofList a vs) (a + i) = vs.getD i 0 := by
  induction vs generalizing a i with
  | nil => simp [Cells.ofList, Cells.read]
  | cons v vs ih =>
    unfold Cells.ofList
    cases i with
    | zero =>
      split
      · rename_i hv
        have : Table.find (Cells.ofList (a + 1) vs) a = none :=
          Table.find_none_of_lt fun c hc => (Cells.ofList_lower (a + 1) vs c hc).1
        simp [Cells.read, this, hv]
      · simp [Cells.read, Table.find]
    | succ i =>
      have h := ih (a + 1) i
      rw [show a + 1 + i = a + (i + 1) by omega] at h
      split
      · simpa using h
      · rename_i hv
        have : Cells.read ((a, v) :: Cells.ofList (a + 1) vs) (a + (i + 1))
            = Cells.read (Cells.ofList (a + 1) vs) (a + (i + 1)) := by
          unfold Cells.read
          rw [Table.find, if_neg (by omega)]
        rw [this, h]
        simp

/-- Memories in canonical form that read alike are equal. -/
theorem Cells.ext {size : Nat} {m n : List (Nat × BitVec w)} (hm : Cells.wf size m)
    (hn : Cells.wf size n) (h : ∀ a, Cells.read m a = Cells.read n a) : m = n := by
  induction m generalizing n with
  | nil =>
    cases n with
    | nil => rfl
    | cons c n =>
      have := h c.1
      simp [Cells.read, Table.find] at this
      exact absurd this.symm (hn.2 c List.mem_cons_self).2
  | cons c m ih =>
    cases n with
    | nil =>
      have := h c.1
      simp [Cells.read, Table.find] at this
      exact absurd this (hm.2 c List.mem_cons_self).2
    | cons d n =>
      obtain ⟨a, u⟩ := c
      obtain ⟨b, v⟩ := d
      obtain ⟨hma, hmt⟩ := List.pairwise_cons.1 hm.1
      obtain ⟨hnb, hnt⟩ := List.pairwise_cons.1 hn.1
      have hu := (hm.2 _ List.mem_cons_self).2
      have hv := (hn.2 _ List.mem_cons_self).2
      have low : ∀ {k j : Nat} {x : BitVec w} {l : List (Nat × BitVec w)},
          (∀ y ∈ l, j < y.1) → k < j → Cells.read ((j, x) :: l) k = 0 := by
        intro k j x l hl hk
        unfold Cells.read
        rw [Table.find_none_of_lt]
        · rfl
        · intro y hy
          rcases List.mem_cons.1 hy with rfl | hy
          · exact hk
          · exact Nat.lt_trans hk (hl y hy)
      rcases Nat.lt_trichotomy a b with hab | hab | hab
      · have h1 := h a
        rw [low hnb hab] at h1
        simp [Cells.read, Table.find] at h1
        exact absurd h1 hu
      · subst hab
        have h1 := h a
        simp [Cells.read, Table.find] at h1
        subst h1
        refine congrArg _ (ih ⟨hmt, fun y hy => hm.2 y (List.mem_cons_of_mem _ hy)⟩
          ⟨hnt, fun y hy => hn.2 y (List.mem_cons_of_mem _ hy)⟩ fun k => ?_)
        by_cases hk : a = k
        · subst hk
          unfold Cells.read
          rw [Table.find_none_of_lt hma, Table.find_none_of_lt hnb]
        · have := h k
          simpa [Cells.read, Table.find, hk] using this
      · have h1 := h b
        rw [low hma hab] at h1
        simp [Cells.read, Table.find] at h1
        exact absurd h1.symm hv

end Sys2Proof.Machine
end

