-- ==== Sys2Proof/Laws/State.lean ====
section
/-!
SUPPORT. The fields of the state through each of its updates: one lemma for each field and update,
and reading a byte back after each write.
-/

namespace Sys2Proof.Machine

variable (s : State)

/-! ## `State.poke` -/

@[simp] theorem State.poke_params (a : Nat) (v : Byte) : (s.poke a v).params = s.params := rfl
@[simp] theorem State.poke_prog (a : Nat) (v : Byte) : (s.poke a v).prog = s.prog := rfl
@[simp] theorem State.poke_pc (a : Nat) (v : Byte) : (s.poke a v).pc = s.pc := rfl
@[simp] theorem State.poke_cycles (a : Nat) (v : Byte) : (s.poke a v).cycles = s.cycles := rfl
@[simp] theorem State.poke_pending (a : Nat) (v : Byte) : (s.poke a v).pending = s.pending := rfl
@[simp] theorem State.poke_lowestPending (a : Nat) (v : Byte) :
    (s.poke a v).lowestPending = s.lowestPending := rfl
@[simp] theorem State.poke_highestBound (a : Nat) (v : Byte) :
    (s.poke a v).highestBound = s.highestBound := rfl
@[simp] theorem State.poke_events (a : Nat) (v : Byte) : (s.poke a v).events = s.events := rfl
@[simp] theorem State.poke_readHooks (a : Nat) (v : Byte) :
    (s.poke a v).readHooks = s.readHooks := rfl
@[simp] theorem State.poke_writeHooks (a : Nat) (v : Byte) :
    (s.poke a v).writeHooks = s.writeHooks := rfl
@[simp] theorem State.poke_status (a : Nat) (v : Byte) : (s.poke a v).status = s.status := rfl
@[simp] theorem State.poke_watchdog (a : Nat) (v : Byte) : (s.poke a v).watchdog = s.watchdog := rfl
@[simp] theorem State.poke_envIn (a : Nat) (v : Byte) : (s.poke a v).envIn = s.envIn := rfl
@[simp] theorem State.poke_envOut (a : Nat) (v : Byte) : (s.poke a v).envOut = s.envOut := rfl
@[simp] theorem State.poke_dataSize (a : Nat) (v : Byte) : (s.poke a v).dataSize = s.dataSize := rfl
@[simp] theorem State.poke_progWords (a : Nat) (v : Byte) :
    (s.poke a v).progWords = s.progWords := rfl
@[simp] theorem State.poke_pc22 (a : Nat) (v : Byte) : (s.poke a v).pc22 = s.pc22 := rfl
@[simp] theorem State.poke_retBytes (a : Nat) (v : Byte) : (s.poke a v).retBytes = s.retBytes := rfl

/-! ## `State.setReg` -/

@[simp] theorem State.setReg_params (r : Reg) (v : Byte) : (s.setReg r v).params = s.params := rfl
@[simp] theorem State.setReg_prog (r : Reg) (v : Byte) : (s.setReg r v).prog = s.prog := rfl
@[simp] theorem State.setReg_pc (r : Reg) (v : Byte) : (s.setReg r v).pc = s.pc := rfl
@[simp] theorem State.setReg_cycles (r : Reg) (v : Byte) : (s.setReg r v).cycles = s.cycles := rfl
@[simp] theorem State.setReg_pending (r : Reg) (v : Byte) :
    (s.setReg r v).pending = s.pending := rfl
@[simp] theorem State.setReg_lowestPending (r : Reg) (v : Byte) :
    (s.setReg r v).lowestPending = s.lowestPending := rfl
@[simp] theorem State.setReg_highestBound (r : Reg) (v : Byte) :
    (s.setReg r v).highestBound = s.highestBound := rfl
@[simp] theorem State.setReg_events (r : Reg) (v : Byte) : (s.setReg r v).events = s.events := rfl
@[simp] theorem State.setReg_readHooks (r : Reg) (v : Byte) :
    (s.setReg r v).readHooks = s.readHooks := rfl
@[simp] theorem State.setReg_writeHooks (r : Reg) (v : Byte) :
    (s.setReg r v).writeHooks = s.writeHooks := rfl
@[simp] theorem State.setReg_status (r : Reg) (v : Byte) : (s.setReg r v).status = s.status := rfl
@[simp] theorem State.setReg_watchdog (r : Reg) (v : Byte) :
    (s.setReg r v).watchdog = s.watchdog := rfl
@[simp] theorem State.setReg_envIn (r : Reg) (v : Byte) : (s.setReg r v).envIn = s.envIn := rfl
@[simp] theorem State.setReg_envOut (r : Reg) (v : Byte) : (s.setReg r v).envOut = s.envOut := rfl
@[simp] theorem State.setReg_dataSize (r : Reg) (v : Byte) :
    (s.setReg r v).dataSize = s.dataSize := rfl
@[simp] theorem State.setReg_progWords (r : Reg) (v : Byte) :
    (s.setReg r v).progWords = s.progWords := rfl
@[simp] theorem State.setReg_pc22 (r : Reg) (v : Byte) : (s.setReg r v).pc22 = s.pc22 := rfl
@[simp] theorem State.setReg_retBytes (r : Reg) (v : Byte) :
    (s.setReg r v).retBytes = s.retBytes := rfl

/-! ## `State.setPair` -/

@[simp] theorem State.setPair_params (a : Nat) (v : Word) : (s.setPair a v).params = s.params := rfl
@[simp] theorem State.setPair_prog (a : Nat) (v : Word) : (s.setPair a v).prog = s.prog := rfl
@[simp] theorem State.setPair_pc (a : Nat) (v : Word) : (s.setPair a v).pc = s.pc := rfl
@[simp] theorem State.setPair_cycles (a : Nat) (v : Word) : (s.setPair a v).cycles = s.cycles := rfl
@[simp] theorem State.setPair_pending (a : Nat) (v : Word) :
    (s.setPair a v).pending = s.pending := rfl
@[simp] theorem State.setPair_lowestPending (a : Nat) (v : Word) :
    (s.setPair a v).lowestPending = s.lowestPending := rfl
@[simp] theorem State.setPair_highestBound (a : Nat) (v : Word) :
    (s.setPair a v).highestBound = s.highestBound := rfl
@[simp] theorem State.setPair_events (a : Nat) (v : Word) : (s.setPair a v).events = s.events := rfl
@[simp] theorem State.setPair_readHooks (a : Nat) (v : Word) :
    (s.setPair a v).readHooks = s.readHooks := rfl
@[simp] theorem State.setPair_writeHooks (a : Nat) (v : Word) :
    (s.setPair a v).writeHooks = s.writeHooks := rfl
@[simp] theorem State.setPair_status (a : Nat) (v : Word) : (s.setPair a v).status = s.status := rfl
@[simp] theorem State.setPair_watchdog (a : Nat) (v : Word) :
    (s.setPair a v).watchdog = s.watchdog := rfl
@[simp] theorem State.setPair_envIn (a : Nat) (v : Word) : (s.setPair a v).envIn = s.envIn := rfl
@[simp] theorem State.setPair_envOut (a : Nat) (v : Word) : (s.setPair a v).envOut = s.envOut := rfl
@[simp] theorem State.setPair_dataSize (a : Nat) (v : Word) :
    (s.setPair a v).dataSize = s.dataSize := rfl
@[simp] theorem State.setPair_progWords (a : Nat) (v : Word) :
    (s.setPair a v).progWords = s.progWords := rfl
@[simp] theorem State.setPair_pc22 (a : Nat) (v : Word) : (s.setPair a v).pc22 = s.pc22 := rfl
@[simp] theorem State.setPair_retBytes (a : Nat) (v : Word) :
    (s.setPair a v).retBytes = s.retBytes := rfl

/-! ## `State.setSreg` -/

@[simp] theorem State.setSreg_params (v : Byte) : (s.setSreg v).params = s.params := rfl
@[simp] theorem State.setSreg_prog (v : Byte) : (s.setSreg v).prog = s.prog := rfl
@[simp] theorem State.setSreg_pc (v : Byte) : (s.setSreg v).pc = s.pc := rfl
@[simp] theorem State.setSreg_cycles (v : Byte) : (s.setSreg v).cycles = s.cycles := rfl
@[simp] theorem State.setSreg_pending (v : Byte) : (s.setSreg v).pending = s.pending := rfl
@[simp] theorem State.setSreg_lowestPending (v : Byte) :
    (s.setSreg v).lowestPending = s.lowestPending := rfl
@[simp] theorem State.setSreg_highestBound (v : Byte) :
    (s.setSreg v).highestBound = s.highestBound := rfl
@[simp] theorem State.setSreg_events (v : Byte) : (s.setSreg v).events = s.events := rfl
@[simp] theorem State.setSreg_readHooks (v : Byte) : (s.setSreg v).readHooks = s.readHooks := rfl
@[simp] theorem State.setSreg_writeHooks (v : Byte) : (s.setSreg v).writeHooks = s.writeHooks := rfl
@[simp] theorem State.setSreg_status (v : Byte) : (s.setSreg v).status = s.status := rfl
@[simp] theorem State.setSreg_watchdog (v : Byte) : (s.setSreg v).watchdog = s.watchdog := rfl
@[simp] theorem State.setSreg_envIn (v : Byte) : (s.setSreg v).envIn = s.envIn := rfl
@[simp] theorem State.setSreg_envOut (v : Byte) : (s.setSreg v).envOut = s.envOut := rfl
@[simp] theorem State.setSreg_dataSize (v : Byte) : (s.setSreg v).dataSize = s.dataSize := rfl
@[simp] theorem State.setSreg_progWords (v : Byte) : (s.setSreg v).progWords = s.progWords := rfl
@[simp] theorem State.setSreg_pc22 (v : Byte) : (s.setSreg v).pc22 = s.pc22 := rfl
@[simp] theorem State.setSreg_retBytes (v : Byte) : (s.setSreg v).retBytes = s.retBytes := rfl

/-! ## `State.updateSreg` -/

@[simp] theorem State.updateSreg_params (f : Byte → Byte) :
    (s.updateSreg f).params = s.params := rfl
@[simp] theorem State.updateSreg_prog (f : Byte → Byte) : (s.updateSreg f).prog = s.prog := rfl
@[simp] theorem State.updateSreg_pc (f : Byte → Byte) : (s.updateSreg f).pc = s.pc := rfl
@[simp] theorem State.updateSreg_cycles (f : Byte → Byte) :
    (s.updateSreg f).cycles = s.cycles := rfl
@[simp] theorem State.updateSreg_pending (f : Byte → Byte) :
    (s.updateSreg f).pending = s.pending := rfl
@[simp] theorem State.updateSreg_lowestPending (f : Byte → Byte) :
    (s.updateSreg f).lowestPending = s.lowestPending := rfl
@[simp] theorem State.updateSreg_highestBound (f : Byte → Byte) :
    (s.updateSreg f).highestBound = s.highestBound := rfl
@[simp] theorem State.updateSreg_events (f : Byte → Byte) :
    (s.updateSreg f).events = s.events := rfl
@[simp] theorem State.updateSreg_readHooks (f : Byte → Byte) :
    (s.updateSreg f).readHooks = s.readHooks := rfl
@[simp] theorem State.updateSreg_writeHooks (f : Byte → Byte) :
    (s.updateSreg f).writeHooks = s.writeHooks := rfl
@[simp] theorem State.updateSreg_status (f : Byte → Byte) :
    (s.updateSreg f).status = s.status := rfl
@[simp] theorem State.updateSreg_watchdog (f : Byte → Byte) :
    (s.updateSreg f).watchdog = s.watchdog := rfl
@[simp] theorem State.updateSreg_envIn (f : Byte → Byte) : (s.updateSreg f).envIn = s.envIn := rfl
@[simp] theorem State.updateSreg_envOut (f : Byte → Byte) :
    (s.updateSreg f).envOut = s.envOut := rfl
@[simp] theorem State.updateSreg_dataSize (f : Byte → Byte) :
    (s.updateSreg f).dataSize = s.dataSize := rfl
@[simp] theorem State.updateSreg_progWords (f : Byte → Byte) :
    (s.updateSreg f).progWords = s.progWords := rfl
@[simp] theorem State.updateSreg_pc22 (f : Byte → Byte) : (s.updateSreg f).pc22 = s.pc22 := rfl
@[simp] theorem State.updateSreg_retBytes (f : Byte → Byte) :
    (s.updateSreg f).retBytes = s.retBytes := rfl

/-! ## `State.setFlag` -/

@[simp] theorem State.setFlag_params (i : Nat) (b : Bool) : (s.setFlag i b).params = s.params := rfl
@[simp] theorem State.setFlag_prog (i : Nat) (b : Bool) : (s.setFlag i b).prog = s.prog := rfl
@[simp] theorem State.setFlag_pc (i : Nat) (b : Bool) : (s.setFlag i b).pc = s.pc := rfl
@[simp] theorem State.setFlag_cycles (i : Nat) (b : Bool) : (s.setFlag i b).cycles = s.cycles := rfl
@[simp] theorem State.setFlag_pending (i : Nat) (b : Bool) :
    (s.setFlag i b).pending = s.pending := rfl
@[simp] theorem State.setFlag_lowestPending (i : Nat) (b : Bool) :
    (s.setFlag i b).lowestPending = s.lowestPending := rfl
@[simp] theorem State.setFlag_highestBound (i : Nat) (b : Bool) :
    (s.setFlag i b).highestBound = s.highestBound := rfl
@[simp] theorem State.setFlag_events (i : Nat) (b : Bool) : (s.setFlag i b).events = s.events := rfl
@[simp] theorem State.setFlag_readHooks (i : Nat) (b : Bool) :
    (s.setFlag i b).readHooks = s.readHooks := rfl
@[simp] theorem State.setFlag_writeHooks (i : Nat) (b : Bool) :
    (s.setFlag i b).writeHooks = s.writeHooks := rfl
@[simp] theorem State.setFlag_status (i : Nat) (b : Bool) : (s.setFlag i b).status = s.status := rfl
@[simp] theorem State.setFlag_watchdog (i : Nat) (b : Bool) :
    (s.setFlag i b).watchdog = s.watchdog := rfl
@[simp] theorem State.setFlag_envIn (i : Nat) (b : Bool) : (s.setFlag i b).envIn = s.envIn := rfl
@[simp] theorem State.setFlag_envOut (i : Nat) (b : Bool) : (s.setFlag i b).envOut = s.envOut := rfl
@[simp] theorem State.setFlag_dataSize (i : Nat) (b : Bool) :
    (s.setFlag i b).dataSize = s.dataSize := rfl
@[simp] theorem State.setFlag_progWords (i : Nat) (b : Bool) :
    (s.setFlag i b).progWords = s.progWords := rfl
@[simp] theorem State.setFlag_pc22 (i : Nat) (b : Bool) : (s.setFlag i b).pc22 = s.pc22 := rfl
@[simp] theorem State.setFlag_retBytes (i : Nat) (b : Bool) :
    (s.setFlag i b).retBytes = s.retBytes := rfl

/-! ## `State.setSp` -/

@[simp] theorem State.setSp_params (v : Word) : (s.setSp v).params = s.params := rfl
@[simp] theorem State.setSp_prog (v : Word) : (s.setSp v).prog = s.prog := rfl
@[simp] theorem State.setSp_pc (v : Word) : (s.setSp v).pc = s.pc := rfl
@[simp] theorem State.setSp_cycles (v : Word) : (s.setSp v).cycles = s.cycles := rfl
@[simp] theorem State.setSp_pending (v : Word) : (s.setSp v).pending = s.pending := rfl
@[simp] theorem State.setSp_lowestPending (v : Word) :
    (s.setSp v).lowestPending = s.lowestPending := rfl
@[simp] theorem State.setSp_highestBound (v : Word) :
    (s.setSp v).highestBound = s.highestBound := rfl
@[simp] theorem State.setSp_events (v : Word) : (s.setSp v).events = s.events := rfl
@[simp] theorem State.setSp_readHooks (v : Word) : (s.setSp v).readHooks = s.readHooks := rfl
@[simp] theorem State.setSp_writeHooks (v : Word) : (s.setSp v).writeHooks = s.writeHooks := rfl
@[simp] theorem State.setSp_status (v : Word) : (s.setSp v).status = s.status := rfl
@[simp] theorem State.setSp_watchdog (v : Word) : (s.setSp v).watchdog = s.watchdog := rfl
@[simp] theorem State.setSp_envIn (v : Word) : (s.setSp v).envIn = s.envIn := rfl
@[simp] theorem State.setSp_envOut (v : Word) : (s.setSp v).envOut = s.envOut := rfl
@[simp] theorem State.setSp_dataSize (v : Word) : (s.setSp v).dataSize = s.dataSize := rfl
@[simp] theorem State.setSp_progWords (v : Word) : (s.setSp v).progWords = s.progWords := rfl
@[simp] theorem State.setSp_pc22 (v : Word) : (s.setSp v).pc22 = s.pc22 := rfl
@[simp] theorem State.setSp_retBytes (v : Word) : (s.setSp v).retBytes = s.retBytes := rfl

/-! ## `State.setX` -/

@[simp] theorem State.setX_params (v : Word) : (s.setX v).params = s.params := rfl
@[simp] theorem State.setX_prog (v : Word) : (s.setX v).prog = s.prog := rfl
@[simp] theorem State.setX_pc (v : Word) : (s.setX v).pc = s.pc := rfl
@[simp] theorem State.setX_cycles (v : Word) : (s.setX v).cycles = s.cycles := rfl
@[simp] theorem State.setX_pending (v : Word) : (s.setX v).pending = s.pending := rfl
@[simp] theorem State.setX_lowestPending (v : Word) :
    (s.setX v).lowestPending = s.lowestPending := rfl
@[simp] theorem State.setX_highestBound (v : Word) : (s.setX v).highestBound = s.highestBound := rfl
@[simp] theorem State.setX_events (v : Word) : (s.setX v).events = s.events := rfl
@[simp] theorem State.setX_readHooks (v : Word) : (s.setX v).readHooks = s.readHooks := rfl
@[simp] theorem State.setX_writeHooks (v : Word) : (s.setX v).writeHooks = s.writeHooks := rfl
@[simp] theorem State.setX_status (v : Word) : (s.setX v).status = s.status := rfl
@[simp] theorem State.setX_watchdog (v : Word) : (s.setX v).watchdog = s.watchdog := rfl
@[simp] theorem State.setX_envIn (v : Word) : (s.setX v).envIn = s.envIn := rfl
@[simp] theorem State.setX_envOut (v : Word) : (s.setX v).envOut = s.envOut := rfl
@[simp] theorem State.setX_dataSize (v : Word) : (s.setX v).dataSize = s.dataSize := rfl
@[simp] theorem State.setX_progWords (v : Word) : (s.setX v).progWords = s.progWords := rfl
@[simp] theorem State.setX_pc22 (v : Word) : (s.setX v).pc22 = s.pc22 := rfl
@[simp] theorem State.setX_retBytes (v : Word) : (s.setX v).retBytes = s.retBytes := rfl

/-! ## `State.setY` -/

@[simp] theorem State.setY_params (v : Word) : (s.setY v).params = s.params := rfl
@[simp] theorem State.setY_prog (v : Word) : (s.setY v).prog = s.prog := rfl
@[simp] theorem State.setY_pc (v : Word) : (s.setY v).pc = s.pc := rfl
@[simp] theorem State.setY_cycles (v : Word) : (s.setY v).cycles = s.cycles := rfl
@[simp] theorem State.setY_pending (v : Word) : (s.setY v).pending = s.pending := rfl
@[simp] theorem State.setY_lowestPending (v : Word) :
    (s.setY v).lowestPending = s.lowestPending := rfl
@[simp] theorem State.setY_highestBound (v : Word) : (s.setY v).highestBound = s.highestBound := rfl
@[simp] theorem State.setY_events (v : Word) : (s.setY v).events = s.events := rfl
@[simp] theorem State.setY_readHooks (v : Word) : (s.setY v).readHooks = s.readHooks := rfl
@[simp] theorem State.setY_writeHooks (v : Word) : (s.setY v).writeHooks = s.writeHooks := rfl
@[simp] theorem State.setY_status (v : Word) : (s.setY v).status = s.status := rfl
@[simp] theorem State.setY_watchdog (v : Word) : (s.setY v).watchdog = s.watchdog := rfl
@[simp] theorem State.setY_envIn (v : Word) : (s.setY v).envIn = s.envIn := rfl
@[simp] theorem State.setY_envOut (v : Word) : (s.setY v).envOut = s.envOut := rfl
@[simp] theorem State.setY_dataSize (v : Word) : (s.setY v).dataSize = s.dataSize := rfl
@[simp] theorem State.setY_progWords (v : Word) : (s.setY v).progWords = s.progWords := rfl
@[simp] theorem State.setY_pc22 (v : Word) : (s.setY v).pc22 = s.pc22 := rfl
@[simp] theorem State.setY_retBytes (v : Word) : (s.setY v).retBytes = s.retBytes := rfl

/-! ## `State.setZ` -/

@[simp] theorem State.setZ_params (v : Word) : (s.setZ v).params = s.params := rfl
@[simp] theorem State.setZ_prog (v : Word) : (s.setZ v).prog = s.prog := rfl
@[simp] theorem State.setZ_pc (v : Word) : (s.setZ v).pc = s.pc := rfl
@[simp] theorem State.setZ_cycles (v : Word) : (s.setZ v).cycles = s.cycles := rfl
@[simp] theorem State.setZ_pending (v : Word) : (s.setZ v).pending = s.pending := rfl
@[simp] theorem State.setZ_lowestPending (v : Word) :
    (s.setZ v).lowestPending = s.lowestPending := rfl
@[simp] theorem State.setZ_highestBound (v : Word) : (s.setZ v).highestBound = s.highestBound := rfl
@[simp] theorem State.setZ_events (v : Word) : (s.setZ v).events = s.events := rfl
@[simp] theorem State.setZ_readHooks (v : Word) : (s.setZ v).readHooks = s.readHooks := rfl
@[simp] theorem State.setZ_writeHooks (v : Word) : (s.setZ v).writeHooks = s.writeHooks := rfl
@[simp] theorem State.setZ_status (v : Word) : (s.setZ v).status = s.status := rfl
@[simp] theorem State.setZ_watchdog (v : Word) : (s.setZ v).watchdog = s.watchdog := rfl
@[simp] theorem State.setZ_envIn (v : Word) : (s.setZ v).envIn = s.envIn := rfl
@[simp] theorem State.setZ_envOut (v : Word) : (s.setZ v).envOut = s.envOut := rfl
@[simp] theorem State.setZ_dataSize (v : Word) : (s.setZ v).dataSize = s.dataSize := rfl
@[simp] theorem State.setZ_progWords (v : Word) : (s.setZ v).progWords = s.progWords := rfl
@[simp] theorem State.setZ_pc22 (v : Word) : (s.setZ v).pc22 = s.pc22 := rfl
@[simp] theorem State.setZ_retBytes (v : Word) : (s.setZ v).retBytes = s.retBytes := rfl

/-! ## `State.setPc` -/

@[simp] theorem State.setPc_params (t : Int) : (s.setPc t).params = s.params := rfl
@[simp] theorem State.setPc_data (t : Int) : (s.setPc t).data = s.data := rfl
@[simp] theorem State.setPc_prog (t : Int) : (s.setPc t).prog = s.prog := rfl
@[simp] theorem State.setPc_cycles (t : Int) : (s.setPc t).cycles = s.cycles := rfl
@[simp] theorem State.setPc_pending (t : Int) : (s.setPc t).pending = s.pending := rfl
@[simp] theorem State.setPc_lowestPending (t : Int) :
    (s.setPc t).lowestPending = s.lowestPending := rfl
@[simp] theorem State.setPc_highestBound (t : Int) :
    (s.setPc t).highestBound = s.highestBound := rfl
@[simp] theorem State.setPc_events (t : Int) : (s.setPc t).events = s.events := rfl
@[simp] theorem State.setPc_readHooks (t : Int) : (s.setPc t).readHooks = s.readHooks := rfl
@[simp] theorem State.setPc_writeHooks (t : Int) : (s.setPc t).writeHooks = s.writeHooks := rfl
@[simp] theorem State.setPc_status (t : Int) : (s.setPc t).status = s.status := rfl
@[simp] theorem State.setPc_watchdog (t : Int) : (s.setPc t).watchdog = s.watchdog := rfl
@[simp] theorem State.setPc_envIn (t : Int) : (s.setPc t).envIn = s.envIn := rfl
@[simp] theorem State.setPc_envOut (t : Int) : (s.setPc t).envOut = s.envOut := rfl
@[simp] theorem State.setPc_dataSize (t : Int) : (s.setPc t).dataSize = s.dataSize := rfl
@[simp] theorem State.setPc_progWords (t : Int) : (s.setPc t).progWords = s.progWords := rfl
@[simp] theorem State.setPc_pc22 (t : Int) : (s.setPc t).pc22 = s.pc22 := rfl
@[simp] theorem State.setPc_retBytes (t : Int) : (s.setPc t).retBytes = s.retBytes := rfl
@[simp] theorem State.setPc_peek (t : Int) (k : Nat) : (s.setPc t).peek k = s.peek k := rfl

/-! ## `State.addCycles` -/

@[simp] theorem State.addCycles_params (n : Nat) : (s.addCycles n).params = s.params := rfl
@[simp] theorem State.addCycles_data (n : Nat) : (s.addCycles n).data = s.data := rfl
@[simp] theorem State.addCycles_prog (n : Nat) : (s.addCycles n).prog = s.prog := rfl
@[simp] theorem State.addCycles_pc (n : Nat) : (s.addCycles n).pc = s.pc := rfl
@[simp] theorem State.addCycles_pending (n : Nat) : (s.addCycles n).pending = s.pending := rfl
@[simp] theorem State.addCycles_lowestPending (n : Nat) :
    (s.addCycles n).lowestPending = s.lowestPending := rfl
@[simp] theorem State.addCycles_highestBound (n : Nat) :
    (s.addCycles n).highestBound = s.highestBound := rfl
@[simp] theorem State.addCycles_events (n : Nat) : (s.addCycles n).events = s.events := rfl
@[simp] theorem State.addCycles_readHooks (n : Nat) : (s.addCycles n).readHooks = s.readHooks := rfl
@[simp] theorem State.addCycles_writeHooks (n : Nat) :
    (s.addCycles n).writeHooks = s.writeHooks := rfl
@[simp] theorem State.addCycles_status (n : Nat) : (s.addCycles n).status = s.status := rfl
@[simp] theorem State.addCycles_watchdog (n : Nat) : (s.addCycles n).watchdog = s.watchdog := rfl
@[simp] theorem State.addCycles_envIn (n : Nat) : (s.addCycles n).envIn = s.envIn := rfl
@[simp] theorem State.addCycles_envOut (n : Nat) : (s.addCycles n).envOut = s.envOut := rfl
@[simp] theorem State.addCycles_dataSize (n : Nat) : (s.addCycles n).dataSize = s.dataSize := rfl
@[simp] theorem State.addCycles_progWords (n : Nat) : (s.addCycles n).progWords = s.progWords := rfl
@[simp] theorem State.addCycles_pc22 (n : Nat) : (s.addCycles n).pc22 = s.pc22 := rfl
@[simp] theorem State.addCycles_retBytes (n : Nat) : (s.addCycles n).retBytes = s.retBytes := rfl
@[simp] theorem State.addCycles_peek (n : Nat) (k : Nat) : (s.addCycles n).peek k = s.peek k := rfl

/-! ## `State.jump` -/

@[simp] theorem State.jump_params (t : Int) (n : Nat) : (s.jump t n).params = s.params := rfl
@[simp] theorem State.jump_data (t : Int) (n : Nat) : (s.jump t n).data = s.data := rfl
@[simp] theorem State.jump_prog (t : Int) (n : Nat) : (s.jump t n).prog = s.prog := rfl
@[simp] theorem State.jump_pending (t : Int) (n : Nat) : (s.jump t n).pending = s.pending := rfl
@[simp] theorem State.jump_lowestPending (t : Int) (n : Nat) :
    (s.jump t n).lowestPending = s.lowestPending := rfl
@[simp] theorem State.jump_highestBound (t : Int) (n : Nat) :
    (s.jump t n).highestBound = s.highestBound := rfl
@[simp] theorem State.jump_events (t : Int) (n : Nat) : (s.jump t n).events = s.events := rfl
@[simp] theorem State.jump_readHooks (t : Int) (n : Nat) :
    (s.jump t n).readHooks = s.readHooks := rfl
@[simp] theorem State.jump_writeHooks (t : Int) (n : Nat) :
    (s.jump t n).writeHooks = s.writeHooks := rfl
@[simp] theorem State.jump_status (t : Int) (n : Nat) : (s.jump t n).status = s.status := rfl
@[simp] theorem State.jump_watchdog (t : Int) (n : Nat) : (s.jump t n).watchdog = s.watchdog := rfl
@[simp] theorem State.jump_envIn (t : Int) (n : Nat) : (s.jump t n).envIn = s.envIn := rfl
@[simp] theorem State.jump_envOut (t : Int) (n : Nat) : (s.jump t n).envOut = s.envOut := rfl
@[simp] theorem State.jump_dataSize (t : Int) (n : Nat) : (s.jump t n).dataSize = s.dataSize := rfl
@[simp] theorem State.jump_progWords (t : Int) (n : Nat) :
    (s.jump t n).progWords = s.progWords := rfl
@[simp] theorem State.jump_pc22 (t : Int) (n : Nat) : (s.jump t n).pc22 = s.pc22 := rfl
@[simp] theorem State.jump_retBytes (t : Int) (n : Nat) : (s.jump t n).retBytes = s.retBytes := rfl
@[simp] theorem State.jump_peek (t : Int) (n : Nat) (k : Nat) :
    (s.jump t n).peek k = s.peek k := rfl

/-! ## `State.advance` -/

@[simp] theorem State.advance_params (words n : Nat) : (s.advance words n).params = s.params := rfl
@[simp] theorem State.advance_data (words n : Nat) : (s.advance words n).data = s.data := rfl
@[simp] theorem State.advance_prog (words n : Nat) : (s.advance words n).prog = s.prog := rfl
@[simp] theorem State.advance_pending (words n : Nat) :
    (s.advance words n).pending = s.pending := rfl
@[simp] theorem State.advance_lowestPending (words n : Nat) :
    (s.advance words n).lowestPending = s.lowestPending := rfl
@[simp] theorem State.advance_highestBound (words n : Nat) :
    (s.advance words n).highestBound = s.highestBound := rfl
@[simp] theorem State.advance_events (words n : Nat) : (s.advance words n).events = s.events := rfl
@[simp] theorem State.advance_readHooks (words n : Nat) :
    (s.advance words n).readHooks = s.readHooks := rfl
@[simp] theorem State.advance_writeHooks (words n : Nat) :
    (s.advance words n).writeHooks = s.writeHooks := rfl
@[simp] theorem State.advance_status (words n : Nat) : (s.advance words n).status = s.status := rfl
@[simp] theorem State.advance_watchdog (words n : Nat) :
    (s.advance words n).watchdog = s.watchdog := rfl
@[simp] theorem State.advance_envIn (words n : Nat) : (s.advance words n).envIn = s.envIn := rfl
@[simp] theorem State.advance_envOut (words n : Nat) : (s.advance words n).envOut = s.envOut := rfl
@[simp] theorem State.advance_dataSize (words n : Nat) :
    (s.advance words n).dataSize = s.dataSize := rfl
@[simp] theorem State.advance_progWords (words n : Nat) :
    (s.advance words n).progWords = s.progWords := rfl
@[simp] theorem State.advance_pc22 (words n : Nat) : (s.advance words n).pc22 = s.pc22 := rfl
@[simp] theorem State.advance_retBytes (words n : Nat) :
    (s.advance words n).retBytes = s.retBytes := rfl
@[simp] theorem State.advance_peek (words n : Nat) (k : Nat) :
    (s.advance words n).peek k = s.peek k := rfl

/-! ## `State.logCall` -/

@[simp] theorem State.logCall_params (c : EnvCall) : (s.logCall c).params = s.params := rfl
@[simp] theorem State.logCall_data (c : EnvCall) : (s.logCall c).data = s.data := rfl
@[simp] theorem State.logCall_prog (c : EnvCall) : (s.logCall c).prog = s.prog := rfl
@[simp] theorem State.logCall_pc (c : EnvCall) : (s.logCall c).pc = s.pc := rfl
@[simp] theorem State.logCall_cycles (c : EnvCall) : (s.logCall c).cycles = s.cycles := rfl
@[simp] theorem State.logCall_pending (c : EnvCall) : (s.logCall c).pending = s.pending := rfl
@[simp] theorem State.logCall_lowestPending (c : EnvCall) :
    (s.logCall c).lowestPending = s.lowestPending := rfl
@[simp] theorem State.logCall_highestBound (c : EnvCall) :
    (s.logCall c).highestBound = s.highestBound := rfl
@[simp] theorem State.logCall_events (c : EnvCall) : (s.logCall c).events = s.events := rfl
@[simp] theorem State.logCall_readHooks (c : EnvCall) : (s.logCall c).readHooks = s.readHooks := rfl
@[simp] theorem State.logCall_writeHooks (c : EnvCall) :
    (s.logCall c).writeHooks = s.writeHooks := rfl
@[simp] theorem State.logCall_status (c : EnvCall) : (s.logCall c).status = s.status := rfl
@[simp] theorem State.logCall_watchdog (c : EnvCall) : (s.logCall c).watchdog = s.watchdog := rfl
@[simp] theorem State.logCall_envIn (c : EnvCall) : (s.logCall c).envIn = s.envIn := rfl
@[simp] theorem State.logCall_dataSize (c : EnvCall) : (s.logCall c).dataSize = s.dataSize := rfl
@[simp] theorem State.logCall_progWords (c : EnvCall) : (s.logCall c).progWords = s.progWords := rfl
@[simp] theorem State.logCall_pc22 (c : EnvCall) : (s.logCall c).pc22 = s.pc22 := rfl
@[simp] theorem State.logCall_retBytes (c : EnvCall) : (s.logCall c).retBytes = s.retBytes := rfl
@[simp] theorem State.logCall_peek (c : EnvCall) (k : Nat) : (s.logCall c).peek k = s.peek k := rfl

@[simp] theorem State.setPc_pc (t : Int) : (s.setPc t).pc = (t % (s.progWords : Int)).toNat := rfl
@[simp] theorem State.addCycles_cycles (n : Nat) : (s.addCycles n).cycles = s.cycles + n := rfl
@[simp] theorem State.jump_pc (t : Int) (n : Nat) :
    (s.jump t n).pc = (t % (s.progWords : Int)).toNat := rfl
@[simp] theorem State.jump_cycles (t : Int) (n : Nat) : (s.jump t n).cycles = s.cycles + n := rfl
@[simp] theorem State.advance_cycles (words n : Nat) :
    (s.advance words n).cycles = s.cycles + n := rfl
@[simp] theorem State.logCall_envOut (c : EnvCall) : (s.logCall c).envOut = c :: s.envOut := rfl

/-- The next instruction, of a program of any length. -/
@[simp] theorem State.advance_pc (words n : Nat) :
    (s.advance words n).pc = (s.pc + words) % s.progWords := by
  show (((s.pc : Int) + words) % (s.progWords : Int)).toNat = _
  rw [← Int.natCast_add, ← Int.natCast_emod, Int.toNat_natCast]

/-! ## Reading bytes back -/

@[simp] theorem State.peek_poke (a b : Nat) (v : Byte) :
    (s.poke a v).peek b = if b = a then v else s.peek b := Cells.read_write s.data a b v

@[simp] theorem State.peek_setReg (r : Reg) (b : Nat) (v : Byte) :
    (s.setReg r v).peek b = if b = r.val then v else s.peek b := s.peek_poke r.val b v

@[simp] theorem State.peek_setSreg (b : Nat) (v : Byte) :
    (s.setSreg v).peek b = if b = 95 then v else s.peek b := s.peek_poke 95 b v

@[simp] theorem State.peek_updateSreg (b : Nat) (f : Byte → Byte) :
    (s.updateSreg f).peek b = if b = 95 then f s.sreg else s.peek b := s.peek_poke 95 b _

@[simp] theorem State.peek_setFlag (i : Nat) (c : Bool) (b : Nat) :
    (s.setFlag i c).peek b = if b = 95 then putBit s.sreg i c else s.peek b :=
  s.peek_updateSreg b _

@[simp] theorem State.peek_setPair (a b : Nat) (v : Word) :
    (s.setPair a v).peek b =
      if b = a + 1 then highByte v else if b = a then lowByte v else s.peek b := by
  rw [State.setPair, State.peek_poke, State.peek_poke]

@[simp] theorem State.peek_setSp (b : Nat) (v : Word) :
    (s.setSp v).peek b =
      if b = 94 then highByte v else if b = 93 then lowByte v else s.peek b := s.peek_setPair 93 b v

@[simp] theorem State.peek_setX (b : Nat) (v : Word) :
    (s.setX v).peek b =
      if b = 27 then highByte v else if b = 26 then lowByte v else s.peek b := s.peek_setPair 26 b v

@[simp] theorem State.peek_setY (b : Nat) (v : Word) :
    (s.setY v).peek b =
      if b = 29 then highByte v else if b = 28 then lowByte v else s.peek b := s.peek_setPair 28 b v

@[simp] theorem State.peek_setZ (b : Nat) (v : Word) :
    (s.setZ v).peek b =
      if b = 31 then highByte v else if b = 30 then lowByte v else s.peek b := s.peek_setPair 30 b v

/-! ## Names for bytes -/

theorem State.reg_eq (r : Reg) : s.reg r = s.peek r.val := rfl

theorem State.sreg_eq : s.sreg = s.peek 95 := rfl

theorem State.flag_eq (i : Nat) : s.flag i = bit (s.peek 95) i := rfl

theorem State.rampz_eq : s.rampz = s.peek 91 := rfl

theorem State.eind_eq : s.eind = s.peek 92 := rfl

theorem State.pair_eq (a : Nat) : s.pair a = word (s.peek a) (s.peek (a + 1)) := rfl

theorem State.sp_eq : s.sp = word (s.peek 93) (s.peek 94) := rfl

theorem State.x_eq : s.x = word (s.peek 26) (s.peek 27) := rfl

theorem State.y_eq : s.y = word (s.peek 28) (s.peek 29) := rfl

theorem State.z_eq : s.z = word (s.peek 30) (s.peek 31) := rfl

/-- There are at least 256 bytes of data space (spec R3). -/
theorem State.dataSize_ge : 256 ≤ s.dataSize := by
  simp [State.dataSize, Params.dataSize]

theorem State.low_lt {a : Nat} (h : a < 256) : a < s.dataSize :=
  Nat.lt_of_lt_of_le h s.dataSize_ge

/-! ## Chaining -/

@[simp] theorem andThen_next {α β : Type} (a : α) (f : α → Res β) : andThen (.next a) f = f a := rfl

@[simp] theorem andThen_fault {α β : Type} (r : Fault) (f : α → Res β) :
    andThen (.fault r) f = .fault r := rfl

@[simp] theorem andThen_refused {α β : Type} (r : Refusal) (f : α → Res β) :
    andThen (.refused r) f = .refused r := rfl

/-- A chain answers a next state exactly if both halves do. -/
theorem andThen_eq_next {α β : Type} {x : Res α} {f : α → Res β} {b : β} :
    andThen x f = .next b ↔ ∃ a, x = .next a ∧ f a = .next b := by
  cases x <;> simp

/-- A chain is refused only where one of its halves is. -/
theorem andThen_ne_refused {α β : Type} {x : Res α} {f : α → Res β} {e : Refusal}
    (hx : x ≠ .refused e) (hf : ∀ a, f a ≠ .refused e) : andThen x f ≠ .refused e := by
  cases x with
  | next a => exact hf a
  | fault r => exact nofun
  | refused r => rintro ⟨⟩; exact hx rfl

theorem andThen_assoc {α β γ : Type} (x : Res α) (f : α → Res β) (g : β → Res γ) :
    andThen (andThen x f) g = andThen x fun a => andThen (f a) g := by
  cases x <;> rfl

end Sys2Proof.Machine
end

