-- ==== Sys2Proof/Laws/Environment.lean ====
section
/-!
SUPPORT. What the raw and the hooked accesses can do, and what a call of the environment leaves
alone (spec R44, R47 to R49, R336).
-/

namespace Sys2Proof.Machine

/-! ## Raw accesses -/

theorem inData_iff (s : State) (a : Int) : s.inData a = true ↔ 0 ≤ a ∧ a < s.dataSize := by
  simp [State.inData]

theorem rawRead_next {a : Int} {s : State} (h0 : 0 ≤ a) (h1 : a < s.dataSize) :
    rawRead a s = .next (s.peek a.toNat) := by
  rw [rawRead, if_pos ((inData_iff s a).2 ⟨h0, h1⟩)]

theorem rawRead_fault {a : Int} {s : State} (h : a < 0 ∨ (s.dataSize : Int) ≤ a) :
    rawRead a s = .fault (.dataAddressOutOfRange a) := by
  rw [rawRead, if_neg]
  rw [inData_iff]
  omega

theorem rawRead_eq_next {a : Int} {s : State} {v : Byte} :
    rawRead a s = .next v ↔ (0 ≤ a ∧ a < s.dataSize) ∧ v = s.peek a.toNat := by
  rw [← inData_iff]
  by_cases h : s.inData a = true
  · simp [rawRead, h, eq_comm]
  · simp [rawRead, h]

theorem rawWrite_next {a : Int} {v : Byte} {s : State} (h0 : 0 ≤ a) (h1 : a < s.dataSize) :
    rawWrite a v s = .next (s.poke a.toNat v) := by
  rw [rawWrite, if_pos ((inData_iff s a).2 ⟨h0, h1⟩)]

theorem rawWrite_fault {a : Int} {v : Byte} {s : State} (h : a < 0 ∨ (s.dataSize : Int) ≤ a) :
    rawWrite a v s = .fault (.dataAddressOutOfRange a) := by
  rw [rawWrite, if_neg]
  rw [inData_iff]
  omega

theorem rawWrite_eq_next {a : Int} {v : Byte} {s t : State} :
    rawWrite a v s = .next t ↔ (0 ≤ a ∧ a < s.dataSize) ∧ t = s.poke a.toNat v := by
  rw [← inData_iff]
  by_cases h : s.inData a = true
  · simp [rawWrite, h, eq_comm]
  · simp [rawWrite, h]

/-! ## What a call of the environment leaves alone -/

/-- What neither a raw access nor anything the environment may do in a call changes (spec R49). -/
structure KeepsCore (s t : State) : Prop where
  params : t.params = s.params
  prog : t.prog = s.prog
  pc : t.pc = s.pc
  cycles : t.cycles = s.cycles
  status : t.status = s.status
  watchdog : t.watchdog = s.watchdog

theorem KeepsCore.refl (s : State) : KeepsCore s s := ⟨rfl, rfl, rfl, rfl, rfl, rfl⟩

theorem KeepsCore.trans {s t u : State} (h : KeepsCore s t) (k : KeepsCore t u) :
    KeepsCore s u :=
  ⟨k.params.trans h.params, k.prog.trans h.prog, k.pc.trans h.pc, k.cycles.trans h.cycles,
    k.status.trans h.status, k.watchdog.trans h.watchdog⟩

theorem KeepsCore.dataSize {s t : State} (h : KeepsCore s t) : t.dataSize = s.dataSize := by
  rw [State.dataSize, h.params]; rfl

theorem KeepsCore.poke (s : State) (a : Nat) (v : Byte) : KeepsCore s (s.poke a v) :=
  ⟨rfl, rfl, rfl, rfl, rfl, rfl⟩

theorem KeepsCore.logCall (s : State) (c : EnvCall) : KeepsCore s (s.logCall c) :=
  ⟨rfl, rfl, rfl, rfl, rfl, rfl⟩

theorem rawWrite_keeps {a : Int} {v : Byte} {s t : State} (h : rawWrite a v s = .next t) :
    KeepsCore s t := by
  obtain ⟨-, rfl⟩ := rawWrite_eq_next.1 h
  exact .poke _ _ _

theorem queueInterrupt_keeps {d : Descriptor} {s t : State} (h : queueInterrupt d s = .next t) :
    KeepsCore s t := by
  unfold queueInterrupt at h
  split at h
  · cases h; exact ⟨rfl, rfl, rfl, rfl, rfl, rfl⟩
  · cases h

theorem clearFlagBits_keeps {d : Descriptor} {s t : State} (h : clearFlagBits d s = .next t) :
    KeepsCore s t := by
  obtain ⟨v, -, h⟩ := andThen_eq_next.1 h
  exact rawWrite_keeps h

theorem removePending_keeps (v : Nat) (s : State) : KeepsCore s (removePending v s) := by
  unfold removePending
  split
  · exact .refl s
  · dsimp only
    split <;> exact ⟨rfl, rfl, rfl, rfl, rfl, rfl⟩

theorem clearInterrupt_keeps {d : Descriptor} {c : Bool} {s t : State}
    (h : clearInterrupt d c s = .next t) : KeepsCore s t := by
  obtain ⟨s1, h1, h⟩ := andThen_eq_next.1 h
  cases h
  refine KeepsCore.trans ?_ (removePending_keeps _ _)
  split at h1
  · exact clearFlagBits_keeps h1
  · cases h1; exact .refl s

theorem setInterruptFlag_keeps {d : Descriptor} {s t : State}
    (h : setInterruptFlag d s = .next t) : KeepsCore s t := by
  obtain ⟨v, -, h⟩ := andThen_eq_next.1 h
  obtain ⟨s1, h1, h⟩ := andThen_eq_next.1 h
  obtain ⟨e, -, h⟩ := andThen_eq_next.1 h
  refine (rawWrite_keeps h1).trans ?_
  split at h
  · exact queueInterrupt_keeps h
  · cases h; exact .refl _

theorem updateInterruptEnable_keeps {d : Descriptor} {n : Byte} {s t : State}
    (h : updateInterruptEnable d n s = .next t) : KeepsCore s t := by
  unfold updateInterruptEnable at h
  split at h
  · obtain ⟨v, -, h⟩ := andThen_eq_next.1 h
    split at h
    · exact queueInterrupt_keeps h
    · cases h; exact .refl _
  · exact clearInterrupt_keeps h

theorem clearInterruptByFlag_keeps {d : Descriptor} {v : Byte} {s t : State}
    (h : clearInterruptByFlag d v s = .next t) : KeepsCore s t := by
  unfold clearInterruptByFlag at h
  split at h
  · obtain ⟨s1, h1, h⟩ := andThen_eq_next.1 h
    exact (clearFlagBits_keeps h1).trans (clearInterrupt_keeps h)
  · cases h; exact .refl _

theorem addClockEvent_keeps (h : Handle) (rel : Int) (s : State) :
    KeepsCore s (addClockEvent h rel s) := ⟨rfl, rfl, rfl, rfl, rfl, rfl⟩

theorem clearClockEvent_keeps (h : Handle) (s : State) : KeepsCore s (clearClockEvent h s) :=
  ⟨rfl, rfl, rfl, rfl, rfl, rfl⟩

theorem updateClockEvent_keeps (h : Handle) (rel : Int) (s : State) :
    KeepsCore s (updateClockEvent h rel s) := by
  unfold updateClockEvent
  split
  · exact (clearClockEvent_keeps h s).trans (addClockEvent_keeps h rel _)
  · exact .refl s

theorem writeWord_keeps {o : ByteOrder} {a : Nat} {v : Word} {s t : State}
    (h : writeWord o a v s = .next t) : KeepsCore s t := by
  obtain ⟨s1, h1, h⟩ := andThen_eq_next.1 h
  exact (rawWrite_keeps h1).trans (rawWrite_keeps h)

/-- No operation on hooks, controller or scheduler and no 16-bit access touches `pc`, `cycles` or
program memory. -/
theorem deviceOp_keeps {op : DeviceOp} {s t : State} (h : deviceOp op s = .next t) :
    KeepsCore s t := by
  cases op with
  | setReadHook | clearReadHook | setWriteHook | clearWriteHook =>
    cases h; exact ⟨rfl, rfl, rfl, rfl, rfl, rfl⟩
  | setInterruptFlag d => exact setInterruptFlag_keeps h
  | updateInterruptEnable d v => exact updateInterruptEnable_keeps h
  | queueInterrupt d => exact queueInterrupt_keeps h
  | clearInterrupt d c => exact clearInterrupt_keeps h
  | clearInterruptByFlag d v => exact clearInterruptByFlag_keeps h
  | addClockEvent k rel => cases h; exact addClockEvent_keeps k rel s
  | clearClockEvent k => cases h; exact clearClockEvent_keeps k s
  | updateClockEvent k rel => cases h; exact updateClockEvent_keeps k rel s
  | readWord o a =>
    replace h : andThen (Machine.readWord o a s) (fun _ => .next s) = .next t := h
    obtain ⟨v, -, h⟩ := andThen_eq_next.1 h
    cases h; exact .refl s
  | writeWord o a v => exact writeWord_keeps h

theorem rawRead_ne_refused (a : Int) (s : State) (e : Refusal) : rawRead a s ≠ .refused e := by
  unfold rawRead
  split <;> nofun

theorem rawWrite_ne_refused (a : Int) (v : Byte) (s : State) (e : Refusal) :
    rawWrite a v s ≠ .refused e := by
  unfold rawWrite
  split <;> nofun

theorem queueInterrupt_ne_refused (d : Descriptor) (s : State) (e : Refusal) :
    queueInterrupt d s ≠ .refused e := by
  unfold queueInterrupt
  split <;> nofun

theorem clearFlagBits_ne_refused (d : Descriptor) (s : State) (e : Refusal) :
    clearFlagBits d s ≠ .refused e := by
  unfold clearFlagBits
  exact andThen_ne_refused (rawRead_ne_refused _ _ e) fun _ => rawWrite_ne_refused _ _ _ e

theorem clearInterrupt_ne_refused (d : Descriptor) (c : Bool) (s : State) (e : Refusal) :
    clearInterrupt d c s ≠ .refused e := by
  unfold clearInterrupt
  refine andThen_ne_refused ?_ fun _ => nofun
  split
  · exact clearFlagBits_ne_refused d s e
  · exact nofun

theorem setInterruptFlag_ne_refused (d : Descriptor) (s : State) (e : Refusal) :
    setInterruptFlag d s ≠ .refused e := by
  unfold setInterruptFlag
  refine andThen_ne_refused (rawRead_ne_refused _ _ e) fun v =>
    andThen_ne_refused (rawWrite_ne_refused _ _ _ e) fun s1 =>
    andThen_ne_refused (rawRead_ne_refused _ _ e) fun n => ?_
  split
  · exact queueInterrupt_ne_refused d s1 e
  · exact nofun

theorem updateInterruptEnable_ne_refused (d : Descriptor) (n : Byte) (s : State) (e : Refusal) :
    updateInterruptEnable d n s ≠ .refused e := by
  unfold updateInterruptEnable
  split
  · refine andThen_ne_refused (rawRead_ne_refused _ _ e) fun v => ?_
    split
    · exact queueInterrupt_ne_refused d s e
    · exact nofun
  · exact clearInterrupt_ne_refused d false s e

theorem clearInterruptByFlag_ne_refused (d : Descriptor) (n : Byte) (s : State) (e : Refusal) :
    clearInterruptByFlag d n s ≠ .refused e := by
  unfold clearInterruptByFlag
  split
  · exact andThen_ne_refused (clearFlagBits_ne_refused d s e) fun s1 =>
      clearInterrupt_ne_refused d true s1 e
  · exact nofun

theorem readWord_ne_refused (o : ByteOrder) (a : Nat) (s : State) (e : Refusal) :
    readWord o a s ≠ .refused e := by
  unfold readWord
  exact andThen_ne_refused (rawRead_ne_refused _ _ e) fun _ =>
    andThen_ne_refused (rawRead_ne_refused _ _ e) fun _ => nofun

theorem writeWord_ne_refused (o : ByteOrder) (a : Nat) (v : Word) (s : State) (e : Refusal) :
    writeWord o a v s ≠ .refused e := by
  unfold writeWord
  exact andThen_ne_refused (rawWrite_ne_refused _ _ _ e) fun _ => rawWrite_ne_refused _ _ _ e

/-- No operation on hooks, controller or scheduler and no 16-bit access is refused: it completes or
aborts. -/
theorem deviceOp_ne_refused (op : DeviceOp) (s : State) (e : Refusal) :
    deviceOp op s ≠ .refused e := by
  cases op with
  | setReadHook | clearReadHook | setWriteHook | clearWriteHook | addClockEvent | clearClockEvent
  | updateClockEvent => exact nofun
  | setInterruptFlag d => exact setInterruptFlag_ne_refused d s e
  | updateInterruptEnable d n => exact updateInterruptEnable_ne_refused d n s e
  | queueInterrupt d => exact queueInterrupt_ne_refused d s e
  | clearInterrupt d c => exact clearInterrupt_ne_refused d c s e
  | clearInterruptByFlag d n => exact clearInterruptByFlag_ne_refused d n s e
  | readWord o a =>
    rw [deviceOp]
    exact andThen_ne_refused (readWord_ne_refused o a s e) fun _ => nofun
  | writeWord o a v => exact writeWord_ne_refused o a v s e

theorem finishWrite_keeps (a : Nat) (v : Byte) (handled : Bool) (s : State) :
    KeepsCore s (finishWrite a v handled s) := by
  unfold finishWrite
  split
  · exact .refl s
  · exact .poke s a v

theorem Frame.finish_keeps (f : Frame) (handled : Bool) (s : State) :
    KeepsCore s (f.finish handled s) := by
  cases f with
  | read => exact .refl s
  | write a v => exact finishWrite_keeps a v handled s

/-- What every run of the environment that keeps a property `P` of the state shows: `P` is kept if
each single thing the environment may do keeps it. -/
theorem envRun_induction {c : Contract} {P : State → Prop}
    (hlog : ∀ s k, P s → P (s.logCall k))
    (hin : ∀ s l, P s → P { s with envIn := l })
    (hpoke : ∀ s a v, a < s.dataSize → P s → P (s.poke a v))
    (hop : ∀ op s t, deviceOp op s = .next t → P s → P t) :
    ∀ (l : List EnvAct) (fs : List Frame) (s : State) (n : Nat) (r : Reply × State),
      s.dataSize = n → (∀ a v, Frame.write a v ∈ fs → a < n) →
      P s → envRun c l fs s = .next r → P r.2 := by
  intro l
  induction l with
  | nil => intro fs s n r _ _ _ h; cases h
  | cons act rest ih =>
    intro fs s n r hn hfs hP h
    unfold envRun at h
    split at h
    swap
    · cases h
    cases act with
    | ret value handled =>
      cases fs with
      | nil => cases h; exact hin _ _ hP
      | cons f fs =>
        refine ih fs _ n r (by rw [(f.finish_keeps handled s).dataSize, hn])
          (fun a v hm => hfs a v (List.mem_cons_of_mem _ hm)) ?_ h
        cases f with
        | read => exact hP
        | write a v =>
          show P (finishWrite a v handled s)
          unfold finishWrite
          split
          · exact hP
          · exact hpoke s a v (by rw [hn]; exact hfs a v List.mem_cons_self) hP
    | readData a =>
      dsimp only at h
      split at h
      · split at h
        · exact ih _ (s.logCall _) n r hn (by simpa using hfs) (hlog _ _ hP) h
        · exact ih _ _ n r hn hfs hP h
      · cases h
    | writeData a v mask =>
      dsimp only at h
      split at h
      · rename_i ha
        split at h
        · refine ih _ (s.logCall _) n r hn (fun b u hm => ?_) (hlog _ _ hP) h
          rcases List.mem_cons.1 hm with hm | hm
          · cases hm; exact hn ▸ ha
          · exact hfs b u hm
        · exact ih _ (s.poke a v) n r hn hfs (hpoke s a v ha hP) h
      · cases h
    | device op =>
      obtain ⟨s1, h1, h⟩ := andThen_eq_next.1 h
      exact ih _ _ n r (by rw [(deviceOp_keeps h1).dataSize, hn]) hfs (hop op s s1 h1 hP) h
    | forbidden act => cases h

/-- A call of the environment changes neither `pc`, `cycles` nor program memory (spec R49). -/
theorem callEnv_keeps {c : Contract} {k : EnvCall} {s : State} {r : Reply × State}
    (h : callEnv c k s = .next r) : KeepsCore s r.2 :=
  envRun_induction (P := KeepsCore s) (fun t j ht => ht.trans (.logCall t j))
    (fun _ _ ht => ⟨ht.params, ht.prog, ht.pc, ht.cycles, ht.status, ht.watchdog⟩)
    (fun t a v _ ht => ht.trans (.poke t a v)) (fun _ _ _ h ht => ht.trans (deviceOp_keeps h))
    _ [] _ _ r rfl (by simp) (.logCall s k) h

/-- A call that the environment answers at once. -/
theorem callEnv_ret {c : Contract} {k : EnvCall} {s : State} {v : Nat} {b : Bool}
    {rest : List EnvAct} (h : s.envIn = .ret v b :: rest) :
    callEnv c k s = .next (⟨v, b⟩, { s.logCall k with envIn := rest }) := by
  rw [callEnv, h]
  cases c <;> rfl

/-! ## Hooked accesses -/

theorem memRead_fault {a : Nat} {s : State} (h : s.dataSize ≤ a) :
    memRead a s = .fault (.dataAddressOutOfRange a) := by
  rw [memRead, if_neg (by omega)]

theorem memRead_plain {a : Nat} {s : State} (h : a < s.dataSize) (hk : readHookAt s a = none) :
    memRead a s = .next (s.peek a, s) := by
  rw [memRead, if_pos h, hk]

theorem memRead_hook {a : Nat} {s : State} {h : Handle} (ha : a < s.dataSize)
    (hk : readHookAt s a = some h) :
    memRead a s =
      andThen (callEnv .hook (readCall h a s) s) fun r =>
        .next (BitVec.ofNat 8 r.1.value, r.2) := by
  rw [memRead, if_pos ha, hk]

theorem memWrite_fault {a : Nat} {v m : Byte} {s : State} (h : s.dataSize ≤ a) :
    memWrite a v m s = .fault (.dataAddressOutOfRange a) := by
  rw [memWrite, if_neg (by omega)]

theorem memWrite_plain {a : Nat} {v m : Byte} {s : State} (h : a < s.dataSize)
    (hk : writeHookAt s a = none) : memWrite a v m s = .next (s.poke a v) := by
  rw [memWrite, if_pos h, hk]

theorem memWrite_hook {a : Nat} {v m : Byte} {s : State} {h : Handle} (ha : a < s.dataSize)
    (hk : writeHookAt s a = some h) :
    memWrite a v m s =
      andThen (callEnv .hook (writeCall h a v m s) s) fun r =>
        .next (finishWrite a v r.1.handled r.2) := by
  rw [memWrite, if_pos ha, hk]

/-- No read hook is consulted below 32 (spec R47). -/
theorem readHookAt_register {s : State} {a : Nat} (h : a < 32) : readHookAt s a = none := by
  rw [readHookAt, if_neg (by omega)]

theorem memRead_keeps {a : Nat} {s : State} {r : Byte × State} (h : memRead a s = .next r) :
    KeepsCore s r.2 := by
  unfold memRead at h
  split at h
  · split at h
    · obtain ⟨p, hp, h⟩ := andThen_eq_next.1 h
      cases h
      exact callEnv_keeps hp
    · cases h; exact .refl s
  · cases h

theorem memWrite_keeps {a : Nat} {v m : Byte} {s t : State} (h : memWrite a v m s = .next t) :
    KeepsCore s t := by
  unfold memWrite at h
  split at h
  · split at h
    · obtain ⟨p, hp, h⟩ := andThen_eq_next.1 h
      cases h
      exact (callEnv_keeps hp).trans (finishWrite_keeps _ _ _ _)
    · cases h; exact .poke _ _ _
  · cases h

theorem notifyWatchdog_keeps {s t : State} (h : notifyWatchdog s = .next t) : KeepsCore s t := by
  unfold notifyWatchdog at h
  split at h
  · cases h; exact .logCall _ _
  · obtain ⟨p, hp, h⟩ := andThen_eq_next.1 h
    cases h
    exact callEnv_keeps hp

end Sys2Proof.Machine
end

