-- ==== Sys2Proof/Laws/Flags.lean ====
section
/-!
SUPPORT. Single bits of bytes, the two halves of a word, and the bits of SREG after each flag
computation, in bit form and in the arithmetic form that the spec gives beside it (R100, R101).
-/

namespace Sys2Proof.Machine

/-! ## Bits of a byte -/

theorem bit_putBit {v : Byte} {i j : Nat} {b : Bool} (hi : i < 8) :
    bit (putBit v i b) j = if j = i then b else bit v j := by
  unfold bit putBit oneBit
  by_cases hj : j < 8
  · by_cases hij : j = i
    · subst hij
      cases b <;> simp [hj]
    · have : ¬ j - i = 0 ∨ j < i := by omega
      cases b <;> simp [hj, hij] <;> omega
  · have : ¬ j = i := by omega
    have h1 : v.getLsbD j = false := BitVec.getLsbD_of_ge _ _ (by omega)
    cases b <;> simp [hj, this, h1]

@[simp] theorem bit_putBit_same {v : Byte} {i : Nat} {b : Bool} (hi : i < 8) :
    bit (putBit v i b) i = b := by rw [bit_putBit hi, if_pos rfl]

theorem byte_ext {x y : Byte} (h : ∀ i, i < 8 → bit x i = bit y i) : x = y :=
  BitVec.eq_of_getLsbD_eq h

theorem bit_seven (x : Byte) : bit x 7 = decide (128 ≤ x.toNat) := by
  have := x.isLt
  unfold bit
  rw [BitVec.getLsbD, Nat.testBit_eq_decide_div_mod_eq]
  simp only [decide_eq_decide]
  omega

theorem bit_three (x : Byte) : bit x 3 = decide (8 ≤ x.toNat % 16) := by
  unfold bit
  rw [BitVec.getLsbD, Nat.testBit_eq_decide_div_mod_eq]
  simp only [decide_eq_decide]
  omega

theorem bit_zero (x : Byte) : bit x 0 = decide (x.toNat % 2 = 1) := by
  unfold bit
  rw [BitVec.getLsbD, Nat.testBit_eq_decide_div_mod_eq]
  simp

theorem word_bit_fifteen (x : Word) : x.getLsbD 15 = decide (32768 ≤ x.toNat) := by
  have := x.isLt
  rw [BitVec.getLsbD, Nat.testBit_eq_decide_div_mod_eq]
  simp only [decide_eq_decide]
  omega

/-! ## The halves of a word -/

theorem word_toNat (lo hi : Byte) : (word lo hi).toNat = lo.toNat + 256 * hi.toNat := by
  unfold word
  rw [BitVec.toNat_append, Nat.shiftLeft_eq, Nat.mul_comm,
    ← Nat.two_pow_add_eq_or_of_lt lo.isLt hi.toNat]
  omega

theorem lowByte_toNat (w : Word) : (lowByte w).toNat = w.toNat % 256 := by
  simp [lowByte, BitVec.extractLsb'_toNat]

theorem highByte_toNat (w : Word) : (highByte w).toNat = w.toNat / 256 := by
  have := w.isLt
  simp [highByte, BitVec.extractLsb'_toNat, Nat.shiftRight_eq_div_pow]
  omega

@[simp] theorem lowByte_word (lo hi : Byte) : lowByte (word lo hi) = lo := by
  have := lo.isLt
  apply BitVec.eq_of_toNat_eq
  rw [lowByte_toNat, word_toNat]
  omega

@[simp] theorem highByte_word (lo hi : Byte) : highByte (word lo hi) = hi := by
  have := lo.isLt
  apply BitVec.eq_of_toNat_eq
  rw [highByte_toNat, word_toNat]
  omega

@[simp] theorem word_lowByte_highByte (w : Word) : word (lowByte w) (highByte w) = w := by
  apply BitVec.eq_of_toNat_eq
  rw [word_toNat, lowByte_toNat, highByte_toNat]
  omega

theorem byteOf_toNat (n i : Nat) : (byteOf n i).toNat = n / 256 ^ i % 256 := by
  simp [byteOf]

/-! ## The sets of flags -/

theorem bit_putZC (z c : Bool) (g : Byte) (j : Nat) :
    bit (putZC z c g) j = if j = 0 then c else if j = 1 then z else bit g j := by
  simp only [putZC, bit_putBit (show flagC < 8 by decide), bit_putBit (show flagZ < 8 by decide)]

theorem bit_putSVNZ (v n z : Bool) (g : Byte) (j : Nat) :
    bit (putSVNZ v n z g) j =
      if j = 4 then n ^^ v else if j = 1 then z else if j = 2 then n else if j = 3 then v
      else bit g j := by
  simp only [putSVNZ, bit_putBit (show flagS < 8 by decide), bit_putBit (show flagZ < 8 by decide),
    bit_putBit (show flagN < 8 by decide), bit_putBit (show flagV < 8 by decide)]

theorem bit_putSVNZC (v n z c : Bool) (g : Byte) (j : Nat) :
    bit (putSVNZC v n z c g) j =
      if j = 0 then c else if j = 4 then n ^^ v else if j = 1 then z else if j = 2 then n
      else if j = 3 then v else bit g j := by
  simp only [putSVNZC, bit_putBit (show flagC < 8 by decide), bit_putSVNZ]

theorem bit_putHSVNZC (h v n z c : Bool) (g : Byte) (j : Nat) :
    bit (putHSVNZC h v n z c g) j =
      if j = 5 then h else if j = 0 then c else if j = 4 then n ^^ v else if j = 1 then z
      else if j = 2 then n else if j = 3 then v else bit g j := by
  simp only [putHSVNZC, bit_putBit (show flagH < 8 by decide), bit_putSVNZC]

/-! ## Addition and subtraction: the arithmetic forms (spec R100, R101) -/

theorem toInt_eq (x : Byte) : x.toInt = if 128 ≤ x.toNat then (x.toNat :
    Int) - 256 else x.toNat := by
  rw [BitVec.toInt_eq_toNat_cond]
  split <;> split <;> omega

theorem bitByte_toNat (b : Bool) : (bitByte b).toNat = b.toNat := by cases b <;> rfl

/-- `AddFlags` after `d + r + c`. -/
theorem bit_addFlags (d r : Byte) (c : Bool) (g : Byte) (j : Nat) :
    bit (addFlags d r (d + r + bitByte c) g) j =
      if j = 5 then decide (16 ≤ d.toNat % 16 + r.toNat % 16 + c.toNat)
      else if j = 0 then decide (256 ≤ d.toNat + r.toNat + c.toNat)
      else if j = 4 then bit (d + r + bitByte c) 7 ^^
        decide (d.toInt + r.toInt + c.toNat < -128 ∨ 127 < d.toInt + r.toInt + c.toNat)
      else if j = 1 then d + r + bitByte c == 0
      else if j = 2 then bit (d + r + bitByte c) 7
      else if j = 3 then
        decide (d.toInt + r.toInt + c.toNat < -128 ∨ 127 < d.toInt + r.toInt + c.toNat)
      else bit g j := by
  have hd := d.isLt
  have hr := r.isLt
  have hc : c.toNat ≤ 1 := by cases c <;> decide
  have hR : (d + r + bitByte c).toNat = (d.toNat + r.toNat + c.toNat) % 256 := by
    simp [BitVec.toNat_add, bitByte_toNat]
  have hV : ((bit d 7 && bit r 7 && !bit (d + r + bitByte c) 7) ||
      (!bit d 7 && !bit r 7 && bit (d + r + bitByte c) 7)) =
      decide (d.toInt + r.toInt + c.toNat < -128 ∨ 127 < d.toInt + r.toInt + c.toNat) := by
    simp only [bit_seven, hR, toInt_eq]
    rw [Bool.eq_iff_iff]
    simp only [Bool.or_eq_true, Bool.and_eq_true, decide_eq_true_eq, Bool.not_eq_true',
      decide_eq_false_iff_not]
    split <;> split <;> omega
  rw [addFlags, bit_putHSVNZC, hV]
  congr 1
  · simp only [bit_three, hR]
    rw [Bool.eq_iff_iff]
    simp only [Bool.or_eq_true, Bool.and_eq_true, decide_eq_true_eq, Bool.not_eq_true',
      decide_eq_false_iff_not]
    omega
  · congr 1
    simp only [bit_seven, hR]
    rw [Bool.eq_iff_iff]
    simp only [Bool.or_eq_true, Bool.and_eq_true, decide_eq_true_eq, Bool.not_eq_true',
      decide_eq_false_iff_not]
    omega

/-- `SubFlags` after `d - r - c`. -/
theorem bit_subFlags (d r : Byte) (c keepZ : Bool) (g : Byte) (j : Nat) :
    bit (subFlags d r (d - r - bitByte c) keepZ g) j =
      if j = 5 then decide (d.toNat % 16 < r.toNat % 16 + c.toNat)
      else if j = 0 then decide (d.toNat < r.toNat + c.toNat)
      else if j = 4 then bit (d - r - bitByte c) 7 ^^
        decide (d.toInt - r.toInt - c.toNat < -128 ∨ 127 < d.toInt - r.toInt - c.toNat)
      else if j = 1 then
        if keepZ then d - r - bitByte c == 0 && bit g 1 else d - r - bitByte c == 0
      else if j = 2 then bit (d - r - bitByte c) 7
      else if j = 3 then
        decide (d.toInt - r.toInt - c.toNat < -128 ∨ 127 < d.toInt - r.toInt - c.toNat)
      else bit g j := by
  have hd := d.isLt
  have hr := r.isLt
  have hc : c.toNat ≤ 1 := by cases c <;> decide
  have hR : (d - r - bitByte c).toNat = (512 + d.toNat - r.toNat - c.toNat) % 256 := by
    rw [BitVec.toNat_sub, BitVec.toNat_sub, bitByte_toNat]
    omega
  have hV : ((bit d 7 && !bit r 7 && !bit (d - r - bitByte c) 7) ||
      (!bit d 7 && bit r 7 && bit (d - r - bitByte c) 7)) =
      decide (d.toInt - r.toInt - c.toNat < -128 ∨ 127 < d.toInt - r.toInt - c.toNat) := by
    simp only [bit_seven, hR, toInt_eq]
    rw [Bool.eq_iff_iff]
    simp only [Bool.or_eq_true, Bool.and_eq_true, decide_eq_true_eq, Bool.not_eq_true',
      decide_eq_false_iff_not]
    split <;> split <;> omega
  rw [subFlags, bit_putHSVNZC, hV]
  congr 1
  · simp only [bit_three, hR]
    rw [Bool.eq_iff_iff]
    simp only [Bool.or_eq_true, Bool.and_eq_true, decide_eq_true_eq, Bool.not_eq_true',
      decide_eq_false_iff_not]
    omega
  · congr 1
    simp only [bit_seven, hR]
    rw [Bool.eq_iff_iff]
    simp only [Bool.or_eq_true, Bool.and_eq_true, decide_eq_true_eq, Bool.not_eq_true',
      decide_eq_false_iff_not]
    omega

/-! ## The other computations -/

/-- A word in the arithmetic reading. -/
theorem word_toInt_eq (x : Word) :
    x.toInt = if 32768 ≤ x.toNat then (x.toNat : Int) - 65536 else x.toNat := by
  rw [BitVec.toInt_eq_toNat_cond]
  split <;> split <;> omega

/-- The flags of ADIW (spec R105): C is the carry out of bit 15, V the signed overflow. -/
theorem bit_adiwFlags (v : Word) (k : BitVec 6) (g : Byte) (j : Nat) :
    bit (adiwFlags v (v + k.setWidth 16) g) j =
      if j = 0 then decide (65536 ≤ v.toNat + k.toNat)
      else if j = 4 then (v + k.setWidth 16).getLsbD 15 ^^ decide (32767 < v.toInt + k.toNat)
      else if j = 1 then v + k.setWidth 16 == 0
      else if j = 2 then (v + k.setWidth 16).getLsbD 15
      else if j = 3 then decide (32767 < v.toInt + k.toNat)
      else bit g j := by
  have hv := v.isLt
  have hk := k.isLt
  have hR : (v + k.setWidth 16).toNat = (v.toNat + k.toNat) % 65536 := by
    rw [BitVec.toNat_add, BitVec.toNat_setWidth]
    omega
  have hC : (!(v + k.setWidth 16).getLsbD 15 && v.getLsbD 15) =
      decide (65536 ≤ v.toNat + k.toNat) := by
    simp only [word_bit_fifteen, hR]
    rw [Bool.eq_iff_iff]
    simp only [Bool.and_eq_true, decide_eq_true_eq, Bool.not_eq_true', decide_eq_false_iff_not]
    omega
  have hV : (!v.getLsbD 15 && (v + k.setWidth 16).getLsbD 15) =
      decide (32767 < v.toInt + k.toNat) := by
    simp only [word_bit_fifteen, hR, word_toInt_eq]
    rw [Bool.eq_iff_iff]
    simp only [Bool.and_eq_true, decide_eq_true_eq, Bool.not_eq_true', decide_eq_false_iff_not]
    split <;> omega
  rw [adiwFlags, bit_putSVNZC, hC, hV]

/-- The flags of SBIW (spec R110): C is the borrow, V the signed overflow. -/
theorem bit_sbiwFlags (v : Word) (k : BitVec 6) (g : Byte) (j : Nat) :
    bit (sbiwFlags v (v - k.setWidth 16) g) j =
      if j = 0 then decide (v.toNat < k.toNat)
      else if j = 4 then (v - k.setWidth 16).getLsbD 15 ^^ decide (v.toInt - k.toNat < -32768)
      else if j = 1 then v - k.setWidth 16 == 0
      else if j = 2 then (v - k.setWidth 16).getLsbD 15
      else if j = 3 then decide (v.toInt - k.toNat < -32768)
      else bit g j := by
  have hv := v.isLt
  have hk := k.isLt
  have hR : (v - k.setWidth 16).toNat = (65536 + v.toNat - k.toNat) % 65536 := by
    rw [BitVec.toNat_sub, BitVec.toNat_setWidth]
    omega
  have hC : ((v - k.setWidth 16).getLsbD 15 && !v.getLsbD 15) = decide (v.toNat < k.toNat) := by
    simp only [word_bit_fifteen, hR]
    rw [Bool.eq_iff_iff]
    simp only [Bool.and_eq_true, decide_eq_true_eq, Bool.not_eq_true', decide_eq_false_iff_not]
    omega
  have hV : (v.getLsbD 15 && !(v - k.setWidth 16).getLsbD 15) =
      decide (v.toInt - k.toNat < -32768) := by
    simp only [word_bit_fifteen, hR, word_toInt_eq]
    rw [Bool.eq_iff_iff]
    simp only [Bool.and_eq_true, decide_eq_true_eq, Bool.not_eq_true', decide_eq_false_iff_not]
    split <;> omega
  rw [sbiwFlags, bit_putSVNZC, hC, hV]

theorem bit_incFlags (R g : Byte) (j : Nat) :
    bit (incFlags R g) j =
      if j = 4 then bit R 7 ^^ (R == 0x80) else if j = 1 then R == 0 else if j = 2 then bit R 7
      else if j = 3 then R == 0x80 else bit g j := by rw [incFlags, bit_putSVNZ]

theorem bit_decFlags (R g : Byte) (j : Nat) :
    bit (decFlags R g) j =
      if j = 4 then bit R 7 ^^ (R == 0x7F) else if j = 1 then R == 0 else if j = 2 then bit R 7
      else if j = 3 then R == 0x7F else bit g j := by rw [decFlags, bit_putSVNZ]

theorem bit_logicFlags (R g : Byte) (j : Nat) :
    bit (logicFlags R g) j =
      if j = 4 then bit R 7 else if j = 1 then R == 0 else if j = 2 then bit R 7
      else if j = 3 then false else bit g j := by
  rw [logicFlags, bit_putSVNZ, Bool.xor_false]

theorem bit_comFlags (R g : Byte) (j : Nat) :
    bit (comFlags R g) j =
      if j = 0 then true else if j = 4 then bit R 7 else if j = 1 then R == 0
      else if j = 2 then bit R 7 else if j = 3 then false else bit g j := by
  rw [comFlags, bit_putBit (by decide), bit_logicFlags]

theorem bit_shiftRightFlags (a R g : Byte) (j : Nat) :
    bit (shiftRightFlags a R g) j =
      if j = 0 then bit a 0 else if j = 4 then bit R 7 ^^ (bit R 7 ^^ bit a 0)
      else if j = 1 then R == 0 else if j = 2 then bit R 7
      else if j = 3 then bit R 7 ^^ bit a 0 else bit g j := by
  rw [shiftRightFlags, bit_putSVNZC]

theorem bit_mulFlags (P W : Word) (g : Byte) (j : Nat) :
    bit (mulFlags P W g) j =
      if j = 0 then P.getLsbD 15 else if j = 1 then W == 0 else bit g j := by
  rw [mulFlags, bit_putZC]

/-- The flags of NEG (spec R114): those of the subtraction `0 - a`. -/
theorem bit_negFlags (a g : Byte) (j : Nat) :
    bit (negFlags a (0 - a) g) j =
      if j = 5 then decide (a.toNat % 16 ≠ 0) else if j = 0 then a != 0
      else if j = 4 then bit (0 - a) 7 ^^ (a == 0x80) else if j = 1 then a == 0
      else if j = 2 then bit (0 - a) 7 else if j = 3 then a == 0x80 else bit g j := by
  have ha := a.isLt
  have hR : (0 - a).toNat = (256 - a.toNat) % 256 := by
    rw [BitVec.toNat_sub]
    simp
  have h0 : ((0 - a : Byte) == 0) = (a == 0) := by
    rw [Bool.eq_iff_iff]
    simp only [beq_iff_eq, ← BitVec.toNat_inj, hR]
    simp
    omega
  have hV : ((0 - a : Byte) == 0x80) = (a == 0x80) := by
    rw [Bool.eq_iff_iff]
    simp only [beq_iff_eq, ← BitVec.toNat_inj, hR]
    simp
    omega
  have hH : (bit (0 - a) 3 || bit a 3) = decide (a.toNat % 16 ≠ 0) := by
    simp only [bit_three, hR]
    rw [Bool.eq_iff_iff]
    simp only [Bool.or_eq_true, decide_eq_true_eq]
    omega
  rw [negFlags, bit_putHSVNZC, hH, hV, h0]
  simp only [bne, h0]

end Sys2Proof.Machine
end

