-- ==== Sys2Proof/Laws/Ops.lean ====
section
/-!
SUPPORT. What each shared operation does: one equation for each, under the conditions in which it
answers a next state, and the abort where it does not.
-/

namespace Sys2Proof.Machine

variable (s : State)

/-! ## 16-bit registers read back what was written (spec R12, R16, R50) -/

@[simp] theorem State.pair_setPair (a : Nat) (v : Word) : (s.setPair a v).pair a = v := by
  simp [State.pair_eq]

@[simp] theorem State.sp_setSp (v : Word) : (s.setSp v).sp = v := s.pair_setPair 93 v

@[simp] theorem State.x_setX (v : Word) : (s.setX v).x = v := s.pair_setPair 26 v

@[simp] theorem State.y_setY (v : Word) : (s.setY v).y = v := s.pair_setPair 28 v

@[simp] theorem State.z_setZ (v : Word) : (s.setZ v).z = v := s.pair_setPair 30 v

@[simp] theorem State.reg_setReg (r q : Reg) (v : Byte) :
    (s.setReg r v).reg q = if q = r then v else s.reg q := by
  simp [State.reg_eq, Fin.ext_iff]

@[simp] theorem State.flag_setFlag (i j : Nat) (b : Bool) (hi : i < 8) :
    (s.setFlag i b).flag j = if j = i then b else s.flag j := by
  simp [State.flag_eq, bit_putBit hi, State.sreg_eq]

@[simp] theorem State.flag_updateSreg (f : Byte → Byte) (j : Nat) :
    (s.updateSreg f).flag j = bit (f s.sreg) j := by
  simp [State.flag_eq]

/-! ## The program counter -/

/-- A stored program counter lies inside program memory (spec R18). -/
theorem State.setPc_lt {t : Int} (h : 0 < s.progWords) : (s.setPc t).pc < s.progWords := by
  have h1 := Int.emod_nonneg t (show (s.progWords : Int) ≠ 0 by omega)
  have h2 := Int.emod_lt_of_pos t (show 0 < (s.progWords : Int) by omega)
  show (t % (s.progWords : Int)).toNat < s.progWords
  omega

theorem State.setPc_natCast (n : Nat) : s.setPc (n : Int) = { s with pc := n % s.progWords } := by
  rw [State.setPc, ← Int.natCast_emod, Int.toNat_natCast]

theorem State.jump_natCast (n c : Nat) :
    s.jump (n : Int) c = { s with pc := n % s.progWords, cycles := s.cycles + c } := by
  rw [State.jump, State.setPc_natCast]; rfl

theorem State.advance_eq (words c : Nat) :
    s.advance words c =
      { s with pc := (s.pc + words) % s.progWords, cycles := s.cycles + c } := by
  rw [State.advance, ← Int.natCast_add, State.jump_natCast]

/-! ## The 16-bit accessors (spec R50) -/

theorem ByteOrder.join_split (o : ByteOrder) (v : Word) : o.join (o.first v) (o.second v) = v := by
  cases o <;> exact word_lowByte_highByte v

theorem readWord_next {o : ByteOrder} {a : Nat} {s : State} (h : a + 1 < s.dataSize) :
    readWord o a s = .next (o.join (s.peek a) (s.peek (a + 1))) := by
  rw [readWord, rawRead_next (by omega) (by omega), andThen_next,
    rawRead_next (by omega) (by omega), andThen_next]
  rfl

theorem writeWord_next {o : ByteOrder} {a : Nat} {v : Word} {s : State} (h : a + 1 < s.dataSize) :
    writeWord o a v s = .next ((s.poke a (o.first v)).poke (a + 1) (o.second v)) := by
  rw [writeWord, rawWrite_next (by omega) (by omega), andThen_next,
    rawWrite_next (by omega) (by simp; omega)]
  rfl

/-! ## Where the cycles of an access are added (spec R373) -/

theorem early_le (p : Phase) (n : Nat) : early p n ≤ n := by
  cases p <;> simp [early]

theorem early_add (p : Phase) (n : Nat) : early p n + (n - early p n) = n := by
  have := early_le p n
  omega

/-- All the cycles of a cost are added, wherever they are added. -/
theorem earlyRead_add (p : ReadWritePhase) (n : Nat) :
    earlyRead p n + earlyWrite p n + lateCycles p n = n := by
  cases p <;> simp only [earlyRead, earlyWrite, beforeWrite, lateCycles] <;> omega

/-! ## Loads and stores -/

theorem atDisplaced_eq {a : Nat} (h : a < 65536) (o : Res State) : atDisplaced a o = o := if_pos h

theorem atDisplaced_fault {a : Nat} (h : 65536 ≤ a) (o : Res State) :
    atDisplaced a o = .fault (.dataAddressOutOfRange a) := if_neg (by omega)

/-- A displaced access that completes lies below 65536. -/
theorem atDisplaced_eq_next {a : Nat} {o : Res State} {t : State} :
    atDisplaced a o = .next t ↔ a < 65536 ∧ o = .next t := by
  unfold atDisplaced
  split <;> simp_all

/-- A load whose read succeeds, whatever the environment did in it. -/
theorem load_eq {p : Phase} {n w : Nat} {d : Reg} {a : Nat} {f : State → State} {s u : State}
    {v : Byte} (h : memRead a (s.addCycles (early p n)) = .next (v, u)) :
    load p n w d a f s = .next ((f (u.setReg d v)).advance w (n - early p n)) := by
  rw [load, h]; rfl

theorem load_plain {p : Phase} {n w : Nat} {d : Reg} {a : Nat} {f : State → State} {s : State}
    (ha : a < s.dataSize) (hk : readHookAt s a = none) :
    load p n w d a f s =
      .next ((f ((s.addCycles (early p n)).setReg d (s.peek a))).advance w (n - early p n)) :=
  load_eq (memRead_plain (s := s.addCycles _) ha hk)

theorem load_fault {p : Phase} {n w : Nat} {d : Reg} {a : Nat} {f : State → State} {s : State}
    (ha : s.dataSize ≤ a) : load p n w d a f s = .fault (.dataAddressOutOfRange a) := by
  rw [load, memRead_fault (s := s.addCycles _) ha]; rfl

/-- A store whose write succeeds, whatever the environment did in it. -/
theorem store_eq {p : Phase} {n w : Nat} {a : Nat} {v : Byte} {f : State → State} {s u : State}
    (h : memWrite a v fullMask (s.addCycles (early p n)) = .next u) :
    store p n w a v f s = .next ((f u).advance w (n - early p n)) := by
  rw [store, h]; rfl

theorem store_plain {p : Phase} {n w : Nat} {a : Nat} {v : Byte} {f : State → State} {s : State}
    (ha : a < s.dataSize) (hk : writeHookAt s a = none) :
    store p n w a v f s =
      .next ((f ((s.addCycles (early p n)).poke a v)).advance w (n - early p n)) :=
  store_eq (memWrite_plain (s := s.addCycles _) ha hk)

theorem store_fault {p : Phase} {n w : Nat} {a : Nat} {v : Byte} {f : State → State} {s : State}
    (ha : s.dataSize ≤ a) : store p n w a v f s = .fault (.dataAddressOutOfRange a) := by
  rw [store, memWrite_fault (s := s.addCycles _) ha]; rfl

/-- A read and write both of which succeed, whatever the environment did in them. -/
theorem readWrite_eq {p : ReadWritePhase} {n a : Nat} {f : Byte → State → Byte} {m : Byte}
    {s u w : State} {old : Byte} (h : memRead a (s.addCycles (earlyRead p n)) = .next (old, u))
    (k : memWrite a (f old u) m (u.addCycles (earlyWrite p n)) = .next w) :
    readWrite p n a f m s = .next (old, w) := by
  rw [readWrite, h]
  show andThen (memWrite a (f old u) m (u.addCycles (earlyWrite p n))) _ = _
  rw [k]; rfl

theorem readWrite_plain {p : ReadWritePhase} {n a : Nat} {f : Byte → State → Byte} {m : Byte}
    {s : State} (ha : a < s.dataSize) (hr : readHookAt s a = none)
    (hw : writeHookAt s a = none) :
    readWrite p n a f m s =
      .next (s.peek a,
        ((s.addCycles (earlyRead p n)).addCycles (earlyWrite p n)).poke a
          (f (s.peek a) (s.addCycles (earlyRead p n)))) :=
  readWrite_eq (memRead_plain (s := s.addCycles _) ha hr)
    (memWrite_plain (s := (s.addCycles _).addCycles _) ha hw)

theorem readWrite_fault {p : ReadWritePhase} {n a : Nat} {f : Byte → State → Byte} {m : Byte}
    {s : State} (ha : s.dataSize ≤ a) :
    readWrite p n a f m s = .fault (.dataAddressOutOfRange a) := by
  rw [readWrite, memRead_fault (s := s.addCycles _) ha]; rfl

/-! ## The stack -/

theorem pushByte_next {v : Byte} {s : State} (h : s.sp.toNat < s.dataSize) :
    pushByte v s =
      .next ((s.poke s.sp.toNat v).setSp ((s.poke s.sp.toNat v).sp - 1)) := by
  rw [pushByte, rawWrite_next (Int.natCast_nonneg _) (by omega)]; rfl

theorem pushByte_fault {v : Byte} {s : State} (h : s.dataSize ≤ s.sp.toNat) :
    pushByte v s = .fault (.dataAddressOutOfRange s.sp.toNat) := by
  rw [pushByte, rawWrite_fault (by omega)]; rfl

theorem popByte_next {s : State} (h : (s.sp + 1).toNat < s.dataSize) :
    popByte s = .next ((s.setSp (s.sp + 1)).peek (s.sp + 1).toNat, s.setSp (s.sp + 1)) := by
  unfold popByte
  simp only
  rw [State.sp_setSp, rawRead_next (Int.natCast_nonneg _) (by rw [State.setSp_dataSize]; omega)]
  rfl

theorem popByte_fault {s : State} (h : s.dataSize ≤ (s.sp + 1).toNat) :
    popByte s = .fault (.dataAddressOutOfRange (s.sp + 1).toNat) := by
  unfold popByte
  simp only
  rw [State.sp_setSp, rawRead_fault (by rw [State.setSp_dataSize]; omega)]
  rfl

theorem retBytes_eq : s.retBytes = if s.pc22 then 3 else 2 := rfl

/-- `PushRet` with all its bytes inside the data space (spec R200). -/
theorem pushRet_next {ret : Nat} {s : State} (h0 : s.retBytes ≤ s.sp.toNat + 1)
    (h1 : s.sp.toNat < s.dataSize) :
    pushRet ret s =
      .next ((if s.pc22 then
          ((s.poke s.sp.toNat (byteOf (ret % s.progWords) 0)).poke (s.sp.toNat - 1)
            (byteOf (ret % s.progWords) 1)).poke (s.sp.toNat - 2) (byteOf (ret % s.progWords) 2)
        else (s.poke s.sp.toNat (byteOf (ret % s.progWords) 0)).poke (s.sp.toNat - 1)
            (byteOf (ret % s.progWords) 1)).setSp (s.sp - BitVec.ofNat 16 s.retBytes)) := by
  rw [retBytes_eq] at h0
  have hp : 2 ≤ s.sp.toNat + 1 := by split at h0 <;> omega
  have e1 : ((s.sp.toNat : Int) - 1).toNat = s.sp.toNat - 1 := by omega
  have e2 : ((s.sp.toNat : Int) - 2).toNat = s.sp.toNat - 2 := by omega
  simp only [pushRet]
  rw [rawWrite_next (by omega) (by omega), andThen_next,
    rawWrite_next (by omega) (by simp; omega), andThen_next, Int.toNat_natCast, e1]
  by_cases hpc : s.pc22 = true
  · rw [if_pos hpc] at h0
    rw [if_pos hpc, if_pos hpc, rawWrite_next (by omega) (by simp; omega), e2, andThen_next]
  · rw [if_neg hpc, if_neg hpc, andThen_next]

/-- `PopRet` with all its bytes inside the data space (spec R201). -/
theorem popRet_next {s : State}
    (h0 : s.retBytes ≤ (s.sp + BitVec.ofNat 16 s.retBytes).toNat + 1)
    (h1 : (s.sp + BitVec.ofNat 16 s.retBytes).toNat < s.dataSize) :
    popRet s =
      .next ((s.peek (s.sp + BitVec.ofNat 16 s.retBytes).toNat).toNat +
          256 * (s.peek ((s.sp + BitVec.ofNat 16 s.retBytes).toNat - 1)).toNat +
          65536 * (if s.pc22 then
            (s.peek ((s.sp + BitVec.ofNat 16 s.retBytes).toNat - 2)).toNat else 0),
        s.setSp (s.sp + BitVec.ofNat 16 s.retBytes)) := by
  simp only [popRet]
  generalize hi : (s.sp + BitVec.ofNat 16 s.retBytes).toNat = i at *
  rw [retBytes_eq] at h0
  have hp : 2 ≤ i + 1 := by split at h0 <;> omega
  have e1 : ((i : Int) - 1).toNat = i - 1 := by omega
  have e2 : ((i : Int) - 2).toNat = i - 2 := by omega
  rw [rawRead_next (by omega) (by omega), andThen_next, rawRead_next (by omega) (by omega),
    andThen_next, Int.toNat_natCast, e1]
  by_cases hpc : s.pc22 = true
  · rw [if_pos hpc] at h0
    rw [if_pos hpc, if_pos hpc, rawRead_next (by omega) (by omega), e2, andThen_next]
  · rw [if_neg hpc, if_neg hpc, andThen_next]
    rfl

theorem pushByte_keeps {v : Byte} {s t : State} (h : pushByte v s = .next t) : KeepsCore s t := by
  obtain ⟨s1, h1, h⟩ := andThen_eq_next.1 h
  cases h
  have := rawWrite_keeps h1
  exact ⟨this.params, this.prog, this.pc, this.cycles, this.status, this.watchdog⟩

theorem pushRet_keeps {ret : Nat} {s t : State} (h : pushRet ret s = .next t) :
    KeepsCore s t := by
  unfold pushRet at h
  simp only at h
  obtain ⟨s1, h1, h⟩ := andThen_eq_next.1 h
  obtain ⟨s2, h2, h⟩ := andThen_eq_next.1 h
  obtain ⟨s3, h3, h⟩ := andThen_eq_next.1 h
  cases h
  have k2 := (rawWrite_keeps h1).trans (rawWrite_keeps h2)
  have k3 : KeepsCore s s3 := by
    by_cases hp : s.pc22 = true
    · rw [if_pos hp] at h3
      exact k2.trans (rawWrite_keeps h3)
    · rw [if_neg hp] at h3
      cases h3; exact k2
  exact ⟨k3.params, k3.prog, k3.pc, k3.cycles, k3.status, k3.watchdog⟩

theorem popRet_state {s : State} {r : Nat × State} (h : popRet s = .next r) :
    r.2 = s.setSp (s.sp + BitVec.ofNat 16 s.retBytes) := by
  unfold popRet at h
  simp only at h
  obtain ⟨_, -, h⟩ := andThen_eq_next.1 h
  obtain ⟨_, -, h⟩ := andThen_eq_next.1 h
  obtain ⟨_, -, h⟩ := andThen_eq_next.1 h
  cases h
  rfl

/-! ## Program memory and skips -/

theorem progWord_next {i : Nat} {s : State} (h : i < s.progWords) :
    progWord i s = .next (Cells.read s.prog i) := by rw [progWord, if_pos h]

theorem progWord_fault {i : Nat} {s : State} (h : s.progWords ≤ i) :
    progWord i s = .fault (.progAddressOutOfRange i) := by rw [progWord, if_neg (by omega)]

theorem progByte_next {b : Nat} {s : State} (h : b < s.params.progBytes) :
    progByte b s =
      .next (if b % 2 = 0 then lowByte (Cells.read s.prog (b / 2))
        else highByte (Cells.read s.prog (b / 2))) := by rw [progByte, if_pos h]

theorem progByte_fault {b : Nat} {s : State} (h : s.params.progBytes ≤ b) :
    progByte b s = .fault (.progAddressOutOfRange b) := by rw [progByte, if_neg (by omega)]

theorem skip_false {c : SkipCost} : skip c false s = .next (s.advance 1 c.noSkip) := rfl

theorem skip_true {c : SkipCost} {s : State} (h : s.pc + 1 < s.progWords) :
    skip c true s =
      .next (s.advance (1 + if isTwoWord (Cells.read s.prog (s.pc + 1)) then 2 else 1)
        (if isTwoWord (Cells.read s.prog (s.pc + 1)) then c.twoWords else c.oneWord)) := by
  simp only [skip, progWord_next h, andThen_next, if_true]
  cases isTwoWord (Cells.read s.prog (s.pc + 1)) <;> rfl

theorem skip_true_fault {c : SkipCost} {s : State} (h : s.progWords ≤ s.pc + 1) :
    skip c true s = .fault (.progAddressOutOfRange (s.pc + 1)) := by
  simp only [skip, progWord_fault h, andThen_fault, if_true]

/-! ## The interrupt controller -/

theorem queueInterrupt_fault {d : Descriptor} {s : State} (h : s.params.maxVectors ≤ d.vector) :
    queueInterrupt d s = .fault (.configError .vectorOutOfTable) := by
  rw [queueInterrupt, if_neg (by omega)]

/-- Clearing a vector that is not pending changes nothing (spec R302). -/
theorem removePending_absent {v : Nat} {s : State} (h : Table.find s.pending v = none) :
    removePending v s = s := by rw [removePending, h]

/-- Removing an entry changes the table and its cache, nothing else. -/
theorem removePending_data (v : Nat) : (removePending v s).data = s.data := by
  unfold removePending
  split
  · rfl
  · dsimp only
    split <;> rfl

/-- A dispatch to a vector beyond program memory aborts and pushes nothing (spec R317). -/
theorem takeInterrupt_fault {d : Descriptor} {s : State} (h : s.progWords ≤ d.vector) :
    takeInterrupt d s = .fault (.progAddressOutOfRange d.vector) := by
  rw [takeInterrupt, if_neg (by omega)]

end Sys2Proof.Machine
end

