-- ==== Sys2Proof/Laws/Invariant.lean ====
section
/-!
SUPPORT. Every operation of the machine keeps the invariant `CoreInv`: the canonical form of the two
memories, the order of the tables, and the caches of the interrupt controller.
-/

namespace Sys2Proof.Machine

variable {s t : State}

/-- Only the fields that `CoreInv` looks at matter. -/
theorem CoreInv.congr (h : CoreInv s) (h1 : t.params = s.params) (h2 : Memory.wf s.dataSize t.data)
    (h3 : t.prog = s.prog) (h4 : t.pc = s.pc) (h5 : t.pending = s.pending)
    (h6 : t.lowestPending = s.lowestPending) (h7 : t.highestBound = s.highestBound)
    (h8 : t.events = s.events) (h9 : t.readHooks = s.readHooks)
    (h10 : t.writeHooks = s.writeHooks) : CoreInv t := by
  have hd : t.dataSize = s.dataSize := by rw [State.dataSize, h1]; rfl
  have hp : t.progWords = s.progWords := by rw [State.progWords, h1]; rfl
  exact {
    memory := ⟨hd ▸ h2, hp ▸ h3 ▸ h.memory.prog_wf⟩
    pc := ⟨h1 ▸ h.pc.params_legal, hp ▸ h4 ▸ h.pc.pc_lt⟩
    pending := ⟨h5 ▸ h.pending.sorted, by rw [h5, h1]; exact h.pending.entry,
      by rw [h6, h5]; exact h.pending.lowest, by rw [h5, h7]; exact h.pending.bounded⟩
    events := by rw [EventsInv, h8]; exact h.events
    hooks := ⟨h9 ▸ h.hooks.read_sorted, h10 ▸ h.hooks.write_sorted⟩ }

theorem CoreInv.poke (h : CoreInv s) {a : Nat} (v : Byte) (ha : a < s.dataSize) :
    CoreInv (s.poke a v) :=
  h.congr rfl (Cells.write_wf v h.memory.data_wf ha) rfl rfl rfl rfl rfl rfl rfl rfl

theorem CoreInv.setPair (h : CoreInv s) {a : Nat} (v : Word) (ha : a + 1 < s.dataSize) :
    CoreInv (s.setPair a v) := (h.poke _ (by omega)).poke _ (by simpa using ha)

theorem CoreInv.setReg (h : CoreInv s) (r : Reg) (v : Byte) : CoreInv (s.setReg r v) :=
  h.poke v (by have := s.dataSize_ge; omega)

theorem CoreInv.setRegPair (h : CoreInv s) (r : Reg) (v : Word) : CoreInv (s.setPair r.val v) :=
  h.setPair v (by have := s.dataSize_ge; omega)

theorem CoreInv.setSreg (h : CoreInv s) (v : Byte) : CoreInv (s.setSreg v) :=
  h.poke v (s.low_lt (by decide))

theorem CoreInv.updateSreg (h : CoreInv s) (f : Byte → Byte) :
    CoreInv (s.updateSreg f) := h.setSreg _

theorem CoreInv.setFlag (h : CoreInv s) (i : Nat) (b : Bool) :
    CoreInv (s.setFlag i b) := h.updateSreg _

theorem CoreInv.setSp (h : CoreInv s) (v : Word) : CoreInv (s.setSp v) :=
  h.setPair v (s.low_lt (by decide))

theorem CoreInv.setX (h : CoreInv s) (v : Word) : CoreInv (s.setX v) :=
  h.setPair v (s.low_lt (by decide))

theorem CoreInv.setY (h : CoreInv s) (v : Word) : CoreInv (s.setY v) :=
  h.setPair v (s.low_lt (by decide))

theorem CoreInv.setZ (h : CoreInv s) (v : Word) : CoreInv (s.setZ v) :=
  h.setPair v (s.low_lt (by decide))

theorem CoreInv.setElpmAddress (h : CoreInv s) (e : Nat) : CoreInv (setElpmAddress e s) :=
  (h.setZ _).poke _ (s.low_lt (by decide))

theorem CoreInv.progWords_pos (h : CoreInv s) : 0 < s.progWords :=
  Nat.lt_of_lt_of_le Nat.one_pos h.pc.params_legal.1

theorem CoreInv.setPc (h : CoreInv s) (n : Int) : CoreInv (s.setPc n) :=
  { memory := ⟨h.memory.data_wf, h.memory.prog_wf⟩
    pc := ⟨h.pc.params_legal, s.setPc_lt h.progWords_pos⟩
    pending := ⟨h.pending.sorted, h.pending.entry, h.pending.lowest, h.pending.bounded⟩
    events := h.events
    hooks := ⟨h.hooks.read_sorted, h.hooks.write_sorted⟩ }

theorem CoreInv.addCycles (h : CoreInv s) (n : Nat) : CoreInv (s.addCycles n) :=
  h.congr rfl h.memory.data_wf rfl rfl rfl rfl rfl rfl rfl rfl

theorem CoreInv.jump (h : CoreInv s) (n : Int) (c : Nat) :
    CoreInv (s.jump n c) := (h.setPc n).addCycles c

theorem CoreInv.advance (h : CoreInv s) (w c : Nat) : CoreInv (s.advance w c) := h.jump _ c

theorem CoreInv.logCall (h : CoreInv s) (c : EnvCall) : CoreInv (s.logCall c) :=
  h.congr rfl h.memory.data_wf rfl rfl rfl rfl rfl rfl rfl rfl

theorem CoreInv.withEnvIn (h : CoreInv s) (l : List EnvAct) : CoreInv { s with envIn := l } :=
  h.congr rfl h.memory.data_wf rfl rfl rfl rfl rfl rfl rfl rfl

theorem CoreInv.rawWrite (h : CoreInv s) {a : Int} {v : Byte} (hw : rawWrite a v s = .next t) :
    CoreInv t := by
  obtain ⟨ha, rfl⟩ := rawWrite_eq_next.1 hw
  exact h.poke v (by omega)

theorem CoreInv.writeWord (h : CoreInv s) {o : ByteOrder} {a : Nat} {v : Word}
    (hw : writeWord o a v s = .next t) : CoreInv t := by
  obtain ⟨s1, h1, hw⟩ := andThen_eq_next.1 hw
  exact (h.rawWrite h1).rawWrite hw

/-! ## The interrupt controller -/

theorem Table.find_eq_some_iff {α : Type} {l : List (Nat × α)} (hs : Table.Sorted l) {k : Nat}
    {v : α} : Table.find l k = some v ↔ (k, v) ∈ l :=
  ⟨Table.mem_of_find, Table.find_of_mem hs⟩

/-- The least key of a table after an insertion. -/
theorem Table.head_put {α : Type} (l : List (Nat × α)) (k : Nat) (v : α) :
    ((Table.put l k v).map (·.1)).head? =
      match (l.map (·.1)).head? with
      | none => some k
      | some j => if k < j then some k else some j := by
  cases l with
  | nil => rfl
  | cons e l =>
    obtain ⟨j, u⟩ := e
    unfold Table.put
    split
    · rename_i h; simp [h]
    · split
      · rename_i h1 h2; simp [h2]
      · rename_i h1 h2; simp [h1]

theorem CoreInv.queueInterrupt (h : CoreInv s) {d : Descriptor} (hq :
    queueInterrupt d s = .next t) :
    CoreInv t := by
  unfold Machine.queueInterrupt at hq
  split at hq
  · rename_i hd
    cases hq
    exact {
      memory := ⟨h.memory.data_wf, h.memory.prog_wf⟩
      pc := ⟨h.pc.params_legal, h.pc.pc_lt⟩
      pending := {
        sorted := Table.put_sorted _ _ h.pending.sorted
        entry := fun e he => by
          rcases Table.mem_put he with rfl | he
          · exact ⟨rfl, hd⟩
          · exact h.pending.entry e he
        lowest := by
          show _ = ((Table.put s.pending d.vector d).map (·.1)).head?
          exact (h.pending.lowest ▸ Table.head_put .. ).symm
        bounded := fun e he => by
          show e.1 ≤ if s.highestBound < d.vector then d.vector else s.highestBound
          rcases Table.mem_put he with rfl | he
          · dsimp only; split <;> omega
          · have := h.pending.bounded e he
            split <;> omega }
      events := h.events
      hooks := ⟨h.hooks.read_sorted, h.hooks.write_sorted⟩ }
  · cases hq

theorem CoreInv.clearFlagBits (h : CoreInv s) {d : Descriptor} (hc : clearFlagBits d s = .next t) :
    CoreInv t := by
  obtain ⟨v, -, hc⟩ := andThen_eq_next.1 hc
  exact h.rawWrite hc

/-- After the least entry is gone, the next one is the least above it. -/
theorem nextPending_tail {v : Nat} {d : Descriptor} {l : List (Nat × Descriptor)}
    (hs : Table.Sorted ((v, d) :: l)) {u : State} (hp : u.pending = l)
    (hb : ∀ e ∈ l, e.1 ≤ u.highestBound) : nextPending u v = (l.map (·.1)).head? := by
  unfold nextPending
  rw [hp]
  cases l with
  | nil => rfl
  | cons e l =>
    have h1 := (List.pairwise_cons.1 hs).1 e List.mem_cons_self
    have h2 := hb e List.mem_cons_self
    have h1 : v < e.1 := h1
    simp [h1, h2]

theorem Table.erase_head {α : Type} {v : Nat} {d : α} {l : List (Nat × α)}
    (hs : Table.Sorted ((v, d) :: l)) : Table.erase ((v, d) :: l) v = l := by
  rw [Table.erase_cons, if_pos rfl]
  unfold Table.erase
  rw [List.filter_eq_self]
  intro e he
  have := (List.pairwise_cons.1 hs).1 e he
  have : v < e.1 := this
  simp
  omega

theorem CoreInv.removePending (h : CoreInv s) (v : Nat) : CoreInv (removePending v s) := by
  unfold Machine.removePending
  split
  · exact h
  · rename_i d hf
    have hlow := h.pending.lowest
    have hsub : ∀ e ∈ Table.erase s.pending v, e ∈ s.pending := fun e he =>
      (Table.mem_erase.1 he).1
    dsimp only
    split
    · rename_i hl
      refine {
        memory := ⟨h.memory.data_wf, h.memory.prog_wf⟩
        pc := ⟨h.pc.params_legal, h.pc.pc_lt⟩
        pending := {
          sorted := Table.erase_sorted v h.pending.sorted
          entry := fun e he => h.pending.entry e (hsub e he)
          lowest := ?_
          bounded := fun e he => h.pending.bounded e (hsub e he) }
        events := h.events
        hooks := ⟨h.hooks.read_sorted, h.hooks.write_sorted⟩ }
      show nextPending { s with pending := Table.erase s.pending v } v =
        ((Table.erase s.pending v).map (·.1)).head?
      cases hp : s.pending with
      | nil => rw [hp] at hf; cases hf
      | cons e l =>
        obtain ⟨j, u⟩ := e
        rw [hp] at hlow
        have hj : j = v := by
          rw [hl] at hlow
          simpa using hlow.symm
        subst hj
        have hs : Table.Sorted ((j, u) :: l) := hp ▸ h.pending.sorted
        rw [Table.erase_head hs]
        exact nextPending_tail hs rfl fun e he =>
          h.pending.bounded e (hp ▸ List.mem_cons_of_mem _ he)
    · rename_i hl
      refine {
        memory := ⟨h.memory.data_wf, h.memory.prog_wf⟩
        pc := ⟨h.pc.params_legal, h.pc.pc_lt⟩
        pending := {
          sorted := Table.erase_sorted v h.pending.sorted
          entry := fun e he => h.pending.entry e (hsub e he)
          lowest := ?_
          bounded := fun e he => h.pending.bounded e (hsub e he) }
        events := h.events
        hooks := ⟨h.hooks.read_sorted, h.hooks.write_sorted⟩ }
      show s.lowestPending = ((Table.erase s.pending v).map (·.1)).head?
      cases hp : s.pending with
      | nil => rw [hp] at hf; cases hf
      | cons e l =>
        obtain ⟨j, u⟩ := e
        rw [hp] at hlow
        have hj : j ≠ v := by
          rintro rfl
          exact hl (by simpa using hlow)
        rw [Table.erase_cons, if_neg hj, hlow]
        rfl

theorem CoreInv.clearInterrupt (h : CoreInv s) {d : Descriptor} {c : Bool}
    (hc : clearInterrupt d c s = .next t) : CoreInv t := by
  obtain ⟨s1, h1, hc⟩ := andThen_eq_next.1 hc
  cases hc
  refine CoreInv.removePending ?_ _
  split at h1
  · exact h.clearFlagBits h1
  · cases h1; exact h

theorem CoreInv.setInterruptFlag (h : CoreInv s) {d : Descriptor} (hq :
    setInterruptFlag d s = .next t) :
    CoreInv t := by
  obtain ⟨v, -, hq⟩ := andThen_eq_next.1 hq
  obtain ⟨s1, h1, hq⟩ := andThen_eq_next.1 hq
  obtain ⟨e, -, hq⟩ := andThen_eq_next.1 hq
  split at hq
  · exact (h.rawWrite h1).queueInterrupt hq
  · cases hq; exact h.rawWrite h1

theorem CoreInv.updateInterruptEnable (h : CoreInv s) {d : Descriptor} {n : Byte}
    (hq : updateInterruptEnable d n s = .next t) : CoreInv t := by
  unfold Machine.updateInterruptEnable at hq
  split at hq
  · obtain ⟨v, -, hq⟩ := andThen_eq_next.1 hq
    split at hq
    · exact h.queueInterrupt hq
    · cases hq; exact h
  · exact h.clearInterrupt hq

theorem CoreInv.clearInterruptByFlag (h : CoreInv s) {d : Descriptor} {v : Byte}
    (hq : clearInterruptByFlag d v s = .next t) : CoreInv t := by
  unfold Machine.clearInterruptByFlag at hq
  split at hq
  · obtain ⟨s1, h1, hq⟩ := andThen_eq_next.1 hq
    exact (h.clearFlagBits h1).clearInterrupt hq
  · cases hq; exact h

/-! ## The scheduler -/

theorem mem_insertEvent {e x : Event} {l : List Event} (h : x ∈ insertEvent e l) :
    x = e ∨ x ∈ l := by
  induction l with
  | nil => simpa [insertEvent] using h
  | cons y l ih =>
    unfold insertEvent at h
    split at h
    · rcases List.mem_cons.1 h with h | h
      · exact .inr (h ▸ List.mem_cons_self)
      · exact (ih h).imp id (List.mem_cons_of_mem _)
    · exact List.mem_cons.1 h

theorem insertEvent_sorted {e : Event} {l : List Event}
    (h : l.Pairwise fun a b => a.target ≤ b.target) :
    (insertEvent e l).Pairwise fun a b => a.target ≤ b.target := by
  induction l with
  | nil => simp [insertEvent]
  | cons y l ih =>
    obtain ⟨hy, hl⟩ := List.pairwise_cons.1 h
    unfold insertEvent
    split
    · rename_i hlt
      refine List.pairwise_cons.2 ⟨fun x hx => ?_, ih hl⟩
      rcases mem_insertEvent hx with rfl | hx
      · exact Nat.le_of_lt hlt
      · exact hy x hx
    · rename_i hge
      refine List.pairwise_cons.2 ⟨fun x hx => ?_, h⟩
      rcases List.mem_cons.1 hx with rfl | hx
      · omega
      · have := hy x hx
        omega

theorem removeEvent_sublist (k : Handle) (l : List Event) : (removeEvent k l).Sublist l := by
  induction l with
  | nil => exact List.Sublist.slnil
  | cons x l ih =>
    unfold removeEvent
    split
    · exact List.sublist_cons_self x l
    · exact ih.cons_cons x

theorem CoreInv.withEvents (h : CoreInv s) {l : List Event}
    (hl : l.Pairwise fun a b => a.target ≤ b.target) : CoreInv { s with events := l } :=
  { memory := ⟨h.memory.data_wf, h.memory.prog_wf⟩
    pc := ⟨h.pc.params_legal, h.pc.pc_lt⟩
    pending := ⟨h.pending.sorted, h.pending.entry, h.pending.lowest, h.pending.bounded⟩
    events := hl
    hooks := ⟨h.hooks.read_sorted, h.hooks.write_sorted⟩ }

theorem CoreInv.addClockEvent (h : CoreInv s) (k : Handle) (rel : Int) :
    CoreInv (addClockEvent k rel s) :=
  h.withEvents (insertEvent_sorted h.events)

theorem CoreInv.clearClockEvent (h : CoreInv s) (k : Handle) : CoreInv (clearClockEvent k s) :=
  h.withEvents (List.Pairwise.sublist (removeEvent_sublist k s.events) h.events)

theorem CoreInv.updateClockEvent (h : CoreInv s) (k : Handle) (rel : Int) :
    CoreInv (updateClockEvent k rel s) := by
  unfold Machine.updateClockEvent
  split
  · exact (h.clearClockEvent k).addClockEvent k rel
  · exact h

/-! ## The environment -/

theorem CoreInv.withHooks (h : CoreInv s) {r w : List (Nat × Handle)} (hr : Table.Sorted r)
    (hw : Table.Sorted w) : CoreInv { s with readHooks := r, writeHooks := w } :=
  { memory := ⟨h.memory.data_wf, h.memory.prog_wf⟩
    pc := ⟨h.pc.params_legal, h.pc.pc_lt⟩
    pending := ⟨h.pending.sorted, h.pending.entry, h.pending.lowest, h.pending.bounded⟩
    events := h.events
    hooks := ⟨hr, hw⟩ }

theorem CoreInv.deviceOp (h : CoreInv s) {op : DeviceOp} (ho : deviceOp op s = .next t) :
    CoreInv t := by
  cases op with
  | setReadHook a k =>
    cases ho
    exact h.withHooks (Table.put_sorted a k h.hooks.read_sorted) h.hooks.write_sorted
  | clearReadHook a =>
    cases ho
    exact h.withHooks (Table.erase_sorted a h.hooks.read_sorted) h.hooks.write_sorted
  | setWriteHook a k =>
    cases ho
    exact h.withHooks h.hooks.read_sorted (Table.put_sorted a k h.hooks.write_sorted)
  | clearWriteHook a =>
    cases ho
    exact h.withHooks h.hooks.read_sorted (Table.erase_sorted a h.hooks.write_sorted)
  | setInterruptFlag d => exact h.setInterruptFlag ho
  | updateInterruptEnable d v => exact h.updateInterruptEnable ho
  | queueInterrupt d => exact h.queueInterrupt ho
  | clearInterrupt d c => exact h.clearInterrupt ho
  | clearInterruptByFlag d v => exact h.clearInterruptByFlag ho
  | addClockEvent k rel => cases ho; exact h.addClockEvent k rel
  | clearClockEvent k => cases ho; exact h.clearClockEvent k
  | updateClockEvent k rel => cases ho; exact h.updateClockEvent k rel
  | readWord o a =>
    replace ho : andThen (Machine.readWord o a s) (fun _ => .next s) = .next t := ho
    obtain ⟨v, -, ho⟩ := andThen_eq_next.1 ho
    cases ho; exact h
  | writeWord o a v => exact h.writeWord ho

theorem CoreInv.callEnv (h : CoreInv s) {c : Contract} {k : EnvCall} {r : Reply × State}
    (hc : callEnv c k s = .next r) : CoreInv r.2 :=
  envRun_induction (P := CoreInv) (fun _ j ht => ht.logCall j) (fun _ l ht => ht.withEnvIn l)
    (fun _ _ v ha ht => ht.poke v ha) (fun _ _ _ ho ht => ht.deviceOp ho)
    _ [] _ _ r rfl (by simp) (h.logCall k) hc

theorem CoreInv.memRead (h : CoreInv s) {a : Nat} {r : Byte × State} (hr : memRead a s = .next r) :
    CoreInv r.2 := by
  unfold Machine.memRead at hr
  split at hr
  · split at hr
    · obtain ⟨p, hp, hr⟩ := andThen_eq_next.1 hr
      cases hr
      exact h.callEnv hp
    · cases hr; exact h
  · cases hr

theorem CoreInv.memWrite (h : CoreInv s) {a : Nat} {v m : Byte} (hw : memWrite a v m s = .next t) :
    CoreInv t := by
  unfold Machine.memWrite at hw
  split at hw
  · rename_i ha
    split at hw
    · obtain ⟨p, hp, hw⟩ := andThen_eq_next.1 hw
      cases hw
      have hi := h.callEnv hp
      unfold finishWrite
      split
      · exact hi
      · exact hi.poke v (by rw [(callEnv_keeps hp).dataSize]; exact ha)
    · cases hw; exact h.poke v ha
  · cases hw

theorem CoreInv.notifyWatchdog (h : CoreInv s) (hn : notifyWatchdog s = .next t) : CoreInv t := by
  unfold Machine.notifyWatchdog at hn
  split at hn
  · cases hn; exact h.logCall _
  · obtain ⟨p, hp, hn⟩ := andThen_eq_next.1 hn
    cases hn
    exact h.callEnv hp

/-! ## Loads, the stack and the dispatch -/

theorem CoreInv.load (h : CoreInv s) {p : Phase} {n w : Nat} {d : Reg} {a : Nat}
    {f : State → State} (hf : ∀ u, CoreInv u → CoreInv (f u)) (hl : load p n w d a f s = .next t) :
    CoreInv t := by
  obtain ⟨r, hr, hl⟩ := andThen_eq_next.1 hl
  cases hl
  exact (hf _ (((h.addCycles _).memRead hr).setReg _ _)).advance _ _

theorem CoreInv.store (h : CoreInv s) {p : Phase} {n w : Nat} {a : Nat} {v : Byte}
    {f : State → State} (hf : ∀ u, CoreInv u → CoreInv (f u))
    (hs : store p n w a v f s = .next t) : CoreInv t := by
  obtain ⟨u, hu, hs⟩ := andThen_eq_next.1 hs
  cases hs
  exact (hf _ ((h.addCycles _).memWrite hu)).advance _ _

theorem CoreInv.readWrite (h : CoreInv s) {p : ReadWritePhase} {n a : Nat}
    {f : Byte → State → Byte} {m : Byte} {r : Byte × State}
    (hr : readWrite p n a f m s = .next r) : CoreInv r.2 := by
  obtain ⟨q, hq, hr⟩ := andThen_eq_next.1 hr
  obtain ⟨u, hu, hr⟩ := andThen_eq_next.1 hr
  cases hr
  exact (((h.addCycles _).memRead hq).addCycles _).memWrite hu

theorem CoreInv.exchangeZ (h : CoreInv s) {p : ReadWritePhase} {n : Nat} {d : Reg}
    {f : Byte → Byte → Byte} (he : exchangeZ p n d f s = .next t) : CoreInv t := by
  obtain ⟨r, hr, he⟩ := andThen_eq_next.1 he
  cases he
  exact ((h.readWrite hr).setReg _ _).advance _ _

theorem CoreInv.pushByte (h : CoreInv s) {v : Byte} (hp : pushByte v s = .next t) : CoreInv t := by
  obtain ⟨u, hu, hp⟩ := andThen_eq_next.1 hp
  cases hp
  exact (h.rawWrite hu).setSp _

theorem CoreInv.popByte (h : CoreInv s) {r : Byte × State} (hp : popByte s = .next r) :
    CoreInv r.2 := by
  unfold Machine.popByte at hp
  simp only at hp
  obtain ⟨v, -, hp⟩ := andThen_eq_next.1 hp
  cases hp
  exact h.setSp _

theorem CoreInv.pushRet (h : CoreInv s) {ret : Nat} (hp : pushRet ret s = .next t) : CoreInv t := by
  unfold Machine.pushRet at hp
  simp only at hp
  obtain ⟨s1, h1, hp⟩ := andThen_eq_next.1 hp
  obtain ⟨s2, h2, hp⟩ := andThen_eq_next.1 hp
  obtain ⟨s3, h3, hp⟩ := andThen_eq_next.1 hp
  cases hp
  have i2 := (h.rawWrite h1).rawWrite h2
  refine CoreInv.setSp ?_ _
  by_cases hpc : s.pc22 = true
  · rw [if_pos hpc] at h3
    exact i2.rawWrite h3
  · rw [if_neg hpc] at h3
    cases h3; exact i2

theorem CoreInv.popRet (h : CoreInv s) {r : Nat × State} (hp : popRet s = .next r) :
    CoreInv r.2 := by
  rw [popRet_state hp]
  exact h.setSp _

theorem CoreInv.skip (h : CoreInv s) {k : SkipCost} {c : Bool} (hs : skip k c s = .next t) :
    CoreInv t := by
  unfold Machine.skip at hs
  split at hs
  · obtain ⟨w, -, hs⟩ := andThen_eq_next.1 hs
    cases hs
    exact h.advance _ _
  · cases hs
    exact h.advance _ _

theorem CoreInv.takeInterrupt (h : CoreInv s) {d : Descriptor} (ht : takeInterrupt d s = .next t) :
    CoreInv t := by
  unfold Machine.takeInterrupt at ht
  split at ht
  · obtain ⟨s1, h1, ht⟩ := andThen_eq_next.1 ht
    have i1 :=
      (((h.pushRet h1).setFlag flagI false).addCycles s.params.cost.dispatch).setPc d.vector
    dsimp only at ht
    split at ht
    · cases ht; exact i1
    · exact i1.clearInterrupt ht
  · cases ht

theorem CoreInv.returnFromInterrupt (h : CoreInv s) (hr : returnFromInterrupt s = .next t) :
    CoreInv t := by
  obtain ⟨p, hp, hr⟩ := andThen_eq_next.1 hr
  cases hr
  exact ((h.popRet hp).setPc _).setFlag _ _

/-! ## Cycles and parameters (spec R3, R20) -/

/-- A table is positive exactly if each of its parts is. -/
theorem positive_iff {c : CostTable} : c.Positive ↔
    (∀ n ∈ c.toArithmeticCost.entries, 1 ≤ n) ∧ (∀ n ∈ c.toLogicCost.entries, 1 ≤ n) ∧
      (∀ n ∈ c.toMultiplyBitCost.entries, 1 ≤ n) ∧ (∀ n ∈ c.toMoveCost.entries, 1 ≤ n) ∧
      (∀ n ∈ c.toIndirectCost.entries, 1 ≤ n) ∧ (∀ n ∈ c.toProgramSystemCost.entries, 1 ≤ n) ∧
      (∀ n ∈ c.toControlCost.entries, 1 ≤ n) := by
  simp only [CostTable.Positive, CostTable.entries, List.forall_mem_append, and_assoc]

/-- Every entry of `COST` that an instruction can use is at least 1. -/
theorem costOf_pos (h : s.params.cost.Positive) (i : Instr) :
    ∀ n ∈ costOf s i :: extraCosts s i, 1 ≤ n := by
  have ⟨ha, hl, hm, ht, hi, hp, hc⟩ := positive_iff.1 h
  simp only [ArithmeticCost.entries, LogicCost.entries, MultiplyBitCost.entries, MoveCost.entries,
    IndirectCost.entries, ProgramSystemCost.entries, ControlCost.entries,
    List.forall_mem_cons] at ha hl hm ht hi hp hc
  cases i <;> simp only [costOf, extraCosts, List.forall_mem_cons, List.not_mem_nil, callCost] <;>
    first
      | (simp [ha]; done) | (simp [hl]; done) | (simp [hm]; done) | (simp [ht]; done)
      | (simp [hi]; done) | (simp [hp]; done) | (simp [hc]; done) | (split <;> simp [hc])

/-- `construct` accepts exactly the parameters in their ranges. -/
theorem paramsError_eq_none {p : Params} : paramsError p = none ↔ p.Legal := by
  unfold paramsError
  constructor
  · intro h
    split at h <;> [cases h; skip]
    split at h <;> [cases h; skip]
    split at h <;> [cases h; skip]
    exact ⟨by omega, by omega, by omega, not_not.1 ‹_›⟩
  · intro h
    rw [if_neg (not_not.2 ⟨h.prog_pos, h.prog_le⟩), if_neg (Nat.not_lt.2 h.vectors),
      if_neg (not_not.2 h.cost)]

/-! ## The run loop (spec R321) -/

/-- The loop goes on exactly while the core runs and `cycles` is below the target. -/
theorem runUntil_turn {target : Nat} (fuel : Nat) (hr : s.status = .running)
    (hc : s.cycles < target) :
    runUntil target (fuel + 1) s = andThen (step s) (runUntil target fuel) := if_pos ⟨hr, hc⟩

theorem runUntil_done {target : Nat} (fuel : Nat)
    (h : ¬ (s.status = .running ∧ s.cycles < target)) : runUntil target fuel s = .next s := by
  cases fuel with
  | zero => rfl
  | succ fuel => exact if_neg h

/-- An aborted core makes no turn. -/
theorem run_aborted {r : Fault} (h : s.status = .aborted r) (budget : Nat) :
    run budget s = .next s := runUntil_done _ fun hr => by simp [h] at hr

end Sys2Proof.Machine
end

