-- ==== Sys2Proof/Laws/Families.lean ====
section
/-!
SUPPORT. What the shared tails of the instruction families do, in the terms of `Safety.lean`: the
result, the flags, `pc`, `cycles`, and what is left unchanged.
-/

namespace Sys2Proof.Machine

variable {s t : State}

theorem Reg.ne_of_ge (d : Reg) {n : Nat} (h : 32 ≤ n) : n ≠ d.val := by
  have := d.isLt
  omega

/-! ## Nothing but bytes, `pc` and `cycles` -/

theorem SameBeyond.refl (s : State) : SameBeyond s s :=
  ⟨rfl, rfl, rfl, rfl, rfl, rfl, rfl, rfl, rfl, rfl, rfl, rfl⟩

theorem SameBeyond.trans {u : State} (h : SameBeyond s t) (k : SameBeyond t u) :
    SameBeyond s u :=
  ⟨k.params.trans h.params, k.prog.trans h.prog, k.pending.trans h.pending,
    k.lowestPending.trans h.lowestPending, k.highestBound.trans h.highestBound,
    k.events.trans h.events, k.readHooks.trans h.readHooks, k.writeHooks.trans h.writeHooks,
    k.status.trans h.status, k.watchdog.trans h.watchdog, k.envIn.trans h.envIn,
    k.envOut.trans h.envOut⟩

theorem SameBeyond.poke (s : State) (a : Nat) (v : Byte) : SameBeyond s (s.poke a v) :=
  ⟨rfl, rfl, rfl, rfl, rfl, rfl, rfl, rfl, rfl, rfl, rfl, rfl⟩

theorem SameBeyond.setPair (s : State) (a : Nat) (v : Word) : SameBeyond s (s.setPair a v) :=
  ⟨rfl, rfl, rfl, rfl, rfl, rfl, rfl, rfl, rfl, rfl, rfl, rfl⟩

theorem SameBeyond.advance (s : State) (w n : Nat) : SameBeyond s (s.advance w n) :=
  ⟨rfl, rfl, rfl, rfl, rfl, rfl, rfl, rfl, rfl, rfl, rfl, rfl⟩

theorem SameBeyond.jump (s : State) (k : Int) (n : Nat) : SameBeyond s (s.jump k n) :=
  ⟨rfl, rfl, rfl, rfl, rfl, rfl, rfl, rfl, rfl, rfl, rfl, rfl⟩

/-! ## Results in registers -/

/-- A register and SREG. -/
theorem writeResult_spec (n : Nat) (d : Reg) (v : Byte) (f : Byte → Byte) (s : State) :
    ∃ t, writeResult n d v f s = .next t ∧ t.reg d = v ∧ (∀ j, t.flag j = bit (f s.sreg) j) ∧
      Follows s t 1 n ∧ OnlyWrites s t (fun a => a = d.val ∨ a = addrSreg) := by
  have hd := Reg.ne_of_ge d (n := 95) (by decide)
  refine ⟨_, rfl, ?_, ?_, ⟨?_, rfl⟩, ⟨?_, ?_⟩⟩
  · simp [State.reg_eq, hd.symm]
  · intro j
    simp [State.flag_eq, State.sreg_eq, hd]
  · rw [State.advance_pc]; rfl
  · exact ⟨rfl, rfl, rfl, rfl, rfl, rfl, rfl, rfl, rfl, rfl, rfl, rfl⟩
  · intro a ha
    have h1 : a ≠ d.val := fun h => ha (.inl h)
    have h2 : a ≠ 95 := fun h => ha (.inr h)
    simp [h1, h2]

/-- SREG alone. -/
theorem writeFlags_spec (n : Nat) (f : Byte → Byte) (s : State) :
    ∃ t, writeFlags n f s = .next t ∧ (∀ j, t.flag j = bit (f s.sreg) j) ∧
      Follows s t 1 n ∧ OnlyWrites s t (fun a => a = addrSreg) := by
  refine ⟨_, rfl, ?_, ⟨?_, rfl⟩, ⟨?_, ?_⟩⟩
  · intro j
    simp [State.flag_eq, State.sreg_eq]
  · rw [State.advance_pc]; rfl
  · exact ⟨rfl, rfl, rfl, rfl, rfl, rfl, rfl, rfl, rfl, rfl, rfl, rfl⟩
  · intro a ha
    have h2 : a ≠ 95 := ha
    simp [h2]

/-- A pair and SREG. -/
theorem setPair_flags_spec (n p : Nat) (hp : p < 32) (v : Word) (f : Byte → Byte) (s : State) :
    ∃ t, t = ((s.setPair p v).updateSreg f).advance 1 n ∧
      t.peek p = lowByte v ∧ t.peek (p + 1) = highByte v ∧
      (∀ j, t.flag j = bit (f s.sreg) j) ∧
      Follows s t 1 n ∧ OnlyWrites s t (fun a => a = p ∨ a = p + 1 ∨ a = addrSreg) := by
  have h0 : p ≠ 95 := by omega
  have h1 : p + 1 ≠ 95 := by omega
  have h2 : (95 : Nat) ≠ p := by omega
  have h3 : (95 : Nat) ≠ p + 1 := by omega
  refine ⟨_, rfl, ?_, ?_, ?_, ⟨?_, rfl⟩, ⟨?_, ?_⟩⟩
  · simp [h0]
  · simp only [State.advance_peek, State.peek_updateSreg, State.peek_setPair, if_neg h1, if_pos]
  · intro j
    simp only [State.flag_eq, State.sreg_eq, State.advance_peek, State.peek_updateSreg, if_pos,
      State.peek_setPair, if_neg h2, if_neg h3]
  · rw [State.advance_pc]; rfl
  · exact ⟨rfl, rfl, rfl, rfl, rfl, rfl, rfl, rfl, rfl, rfl, rfl, rfl⟩
  · intro a ha
    have g1 : a ≠ p := fun h => ha (.inl h)
    have g2 : a ≠ p + 1 := fun h => ha (.inr (.inl h))
    have g3 : a ≠ 95 := fun h => ha (.inr (.inr h))
    simp [g1, g2, g3]

/-- One register, no flag. -/
theorem setReg_advance_spec (d : Reg) (v : Byte) (w n : Nat) (s : State) :
    ((s.setReg d v).advance w n).reg d = v ∧ Follows s ((s.setReg d v).advance w n) w n ∧
      OnlyWrites s ((s.setReg d v).advance w n) (fun a => a = d.val) := by
  refine ⟨?_, ⟨?_, rfl⟩, ⟨?_, ?_⟩⟩
  · simp [State.reg_eq]
  · rw [State.advance_pc]; rfl
  · exact ⟨rfl, rfl, rfl, rfl, rfl, rfl, rfl, rfl, rfl, rfl, rfl, rfl⟩
  · intro a ha
    have h1 : a ≠ d.val := ha
    simp [h1]

/-- One flag. -/
theorem setFlag_advance_spec (n : Nat) {i : Nat} (hi : i < 8) (b : Bool) (s : State) :
    ((s.setFlag i b).advance 1 n).flag i = b ∧ Follows s ((s.setFlag i b).advance 1 n) 1 n ∧
      OnlyWrites s ((s.setFlag i b).advance 1 n) (fun a => a = addrSreg) ∧
      FlagsKept s ((s.setFlag i b).advance 1 n) [i] := by
  refine ⟨?_, ⟨?_, rfl⟩, ⟨?_, ?_⟩, ?_⟩
  · simp [State.flag_eq, hi]
  · rw [State.advance_pc]; rfl
  · exact ⟨rfl, rfl, rfl, rfl, rfl, rfl, rfl, rfl, rfl, rfl, rfl, rfl⟩
  · intro a ha
    have h1 : a ≠ 95 := ha
    simp [h1]
  · intro j hj
    have : j ≠ i := by simpa using hj
    simp [State.flag_eq, State.sreg_eq, bit_putBit hi, this]

end Sys2Proof.Machine
end

