-- ==== Sys2Proof/Tests/Slice0.lean ====
section
/-!
SUPPORT. The model's own tests: ill-formed terms that WellFormed refuses, words written out from the
patterns of `30_encoding.md` R77, one step of each instruction from the spec's vectors
(`95_test_vectors.md`), and for every statement with hypotheses a state and operands that meet them.
Every expected result is the spec's.
-/

namespace Sys2Proof.Tests

open Sys2Proof Sys2Proof.Machine

/-! ## Helpers -/

/-- A core of the spec's conventions for vectors: 2048 bytes of SRAM, the listed words of program
memory and bytes of data space, `pc` as given, all else as after construction. -/
def coreWith (progWords : Nat) (prog : List (Nat × Nat)) (pc : Nat) (data : List (Nat × Nat)) :
    State :=
  { State.reset with
    params := { Config.standard with progWords := progWords }
    pc := pc
    prog := prog.foldl (fun m c => Cells.write m c.1 (BitVec.ofNat 16 c.2)) []
    data := data.foldl (fun m c => Cells.write m c.1 (BitVec.ofNat 8 c.2)) [] }

/-- Whether one `step()` without a tick gives the data space of before with the listed bytes
changed, `pc` and `cycles`. -/
def ran (progWords : Nat) (prog : List (Nat × Nat)) (pc : Nat) (before after : List (Nat × Nat))
    (pc' cycles : Nat) : Bool :=
  match stepInstr (coreWith progWords prog pc before) with
  | .next t =>
    t.data == (coreWith 1 [] 0 (before ++ after)).data && t.pc == pc' && t.cycles == cycles
  | .fault _ | .refused _ => false

/-- The abort that an operation ends in. -/
def abort {α : Type} (o : Res α) : Option Fault :=
  match o with
  | .fault r => some r
  | .next _ | .refused _ => none

/-- The refusal that an operation ends in. -/
def refusal {α : Type} (o : Res α) : Option Refusal :=
  match o with
  | .refused r => some r
  | .next _ | .fault _ => none

/-- Something read from the result that an operation ends in. -/
def probe {α β : Type} (o : Res α) (f : α → β) : Option β :=
  match o with
  | .next t => some (f t)
  | .fault _ | .refused _ => none

theorem next_of_probe {α β : Type} {o : Res α} {f : α → β} {v : β} (h : probe o f = some v) :
    ∃ t, o = .next t ∧ f t = v := by
  cases o with
  | next t => exact ⟨t, rfl, Option.some.inj h⟩
  | fault r => cases h
  | refused r => cases h

/-- An operation that gives a next state. -/
theorem next_of_pc {o : Res State} {n : Nat} (h : probe o (·.pc) = some n) :
    ∃ t, o = .next t := (next_of_probe h).imp fun _ h => h.1

/-- A hooked read that gives a byte. -/
theorem next_of_byte {o : Res (Byte × State)} {v : Byte} (h : probe o (·.1) = some v) :
    ∃ u, o = .next (v, u) := by
  obtain ⟨r, hr, rfl⟩ := next_of_probe h
  exact ⟨r.2, hr⟩

/-! ## WellFormed refuses ill-formed terms (R11, R75) -/

theorem test_wellFormed_upper :
    ([.subi 15 1, .sbci 0 1, .cpi 15 1, .andi 7 1, .ori 15 1, .ldi 15 1] : List Instr).all
      (fun i => !i.wellFormed) = true := by decide

theorem test_wellFormed_wordPair :
    ([.adiw 22 1, .adiw 25 1, .sbiw 0 1, .sbiw 31 1] : List Instr).all
      (fun i => !i.wellFormed) = true := by decide

theorem test_wellFormed_muls :
    ([.muls 15 16, .muls 16 15] : List Instr).all (fun i => !i.wellFormed) = true := by decide

theorem test_wellFormed_middle :
    ([.mulsu 24 16, .mulsu 16 15, .fmul 15 16, .fmul 16 24, .fmuls 24 24, .fmulsu 16 0] :
      List Instr).all (fun i => !i.wellFormed) = true := by decide

theorem test_wellFormed_even :
    ([.movw 1 2, .movw 2 31] : List Instr).all (fun i => !i.wellFormed) = true := by decide

/-- The extreme operands that the fields can name are accepted. -/
theorem test_wellFormed_accepts :
    ([.ldi 16 0, .ldi 31 255, .adiw 24 0, .sbiw 30 63, .muls 16 31, .fmulsu 16 23, .movw 0 30] :
      List Instr).all (fun i => i.wellFormed) = true := by decide

/-! ## Decoding: each word is the pattern of R77 with its fields filled in -/

/-- Whether each first word, with its second word, decodes to the instruction beside it, and that
instruction is well formed and is encoded so. -/
def decodesTo (l : List (Word × Word × Instr)) : Bool :=
  l.all fun e =>
    decode e.1 e.2.1 == .ok e.2.2 && e.2.2.wellFormed &&
      encode e.2.2 == if isTwoWord e.1 then [e.1, e.2.1] else [e.1]

theorem test_decode_arithmetic : decodesTo [
    (0b0000_1101_0011_1101, 0, .add 19 13),
    (0b0001_1101_0011_1101, 0, .adc 19 13),
    (0b1001_0110_1011_0110, 0, .adiw 30 38),
    (0b0001_1001_0011_1101, 0, .sub 19 13),
    (0b0101_1010_0011_0110, 0, .subi 19 166),
    (0b0000_1001_0011_1101, 0, .sbc 19 13),
    (0b0100_1010_0011_0110, 0, .sbci 19 166),
    (0b1001_0111_1011_0110, 0, .sbiw 30 38),
    (0b0001_0101_0011_1101, 0, .cp 19 13),
    (0b0000_0101_0011_1101, 0, .cpc 19 13),
    (0b0011_1010_0011_0110, 0, .cpi 19 166),
    (0b1001_0101_0011_0001, 0, .neg 19),
    (0b1001_0101_0011_0011, 0, .inc 19),
    (0b1001_0101_0011_1010, 0, .dec 19)] = true := by decide

theorem test_decode_logic : decodesTo [
    (0b0010_0001_0011_1101, 0, .and 19 13),
    (0b0111_1010_0011_0110, 0, .andi 19 166),
    (0b0010_1001_0011_1101, 0, .or 19 13),
    (0b0110_1010_0011_0110, 0, .ori 19 166),
    (0b0010_0101_0011_1101, 0, .eor 19 13),
    (0b1001_0101_0011_0000, 0, .com 19),
    (0b1001_0101_0011_0110, 0, .lsr 19),
    (0b1001_0101_0011_0111, 0, .ror 19),
    (0b1001_0101_0011_0101, 0, .asr 19),
    (0b1001_0101_0011_0010, 0, .swap 19)] = true := by decide

theorem test_decode_multiply : decodesTo [
    (0b1001_1101_0011_1101, 0, .mul 19 13),
    (0b0000_0010_0011_1101, 0, .muls 19 29),
    (0b0000_0011_0011_0101, 0, .mulsu 19 21),
    (0b0000_0011_0011_1101, 0, .fmul 19 21),
    (0b0000_0011_1011_0101, 0, .fmuls 19 21),
    (0b0000_0011_1011_1101, 0, .fmulsu 19 21)] = true := by decide

theorem test_decode_bit : decodesTo [
    (0b1001_0100_0101_1000, 0, .bset 5),
    (0b1001_0100_1101_1000, 0, .bclr 5),
    (0b1111_1011_0011_0011, 0, .bst 19 3),
    (0b1111_1001_0011_0011, 0, .bld 19 3),
    (0b1001_1010_1011_0011, 0, .sbi 22 3),
    (0b1001_1000_1011_0011, 0, .cbi 22 3)] = true := by decide

theorem test_decode_transfer : decodesTo [
    (0b0010_1101_0011_1101, 0, .mov 19 13),
    (0b0000_0001_0011_1101, 0, .movw 6 26),
    (0b1110_1010_0011_0110, 0, .ldi 19 166),
    (0b1011_0101_0011_1101, 0, .inp 19 45),
    (0b1011_1100_1101_1101, 0, .out 45 13),
    (0b1001_0010_1101_1111, 0, .push 13),
    (0b1001_0001_0011_1111, 0, .pop 19),
    (0b1001_0001_0011_0000, 0xBEEF, .lds 19 0xBEEF),
    (0b1001_0010_1101_0000, 0xBEEF, .sts 0xBEEF 13)] = true := by decide

theorem test_decode_loads_and_stores : decodesTo [
    (0b1001_0001_0011_1100, 0, .ldX 19),
    (0b1001_0001_0011_1101, 0, .ldXInc 19),
    (0b1001_0001_0011_1110, 0, .ldXDec 19),
    (0b1001_0001_0011_1001, 0, .ldYInc 19),
    (0b1001_0001_0011_1010, 0, .ldYDec 19),
    (0b1010_0101_0011_1101, 0, .lddY 19 45),
    (0b1001_0001_0011_0001, 0, .ldZInc 19),
    (0b1001_0001_0011_0010, 0, .ldZDec 19),
    (0b1010_0101_0011_0101, 0, .lddZ 19 45),
    (0b1001_0010_1101_1100, 0, .stX 13),
    (0b1001_0010_1101_1101, 0, .stXInc 13),
    (0b1001_0010_1101_1110, 0, .stXDec 13),
    (0b1001_0010_1101_1001, 0, .stYInc 13),
    (0b1001_0010_1101_1010, 0, .stYDec 13),
    (0b1010_0110_1101_1101, 0, .stdY 45 13),
    (0b1001_0010_1101_0001, 0, .stZInc 13),
    (0b1001_0010_1101_0010, 0, .stZDec 13),
    (0b1010_0110_1101_0101, 0, .stdZ 45 13),
    (0b1001_0011_0011_0100, 0, .xch 19),
    (0b1001_0011_0011_0101, 0, .las 19),
    (0b1001_0011_0011_0110, 0, .lac 19),
    (0b1001_0011_0011_0111, 0, .lat 19)] = true := by decide

theorem test_decode_program_memory : decodesTo [
    (0b1001_0101_1100_1000, 0, .lpmR0),
    (0b1001_0001_0011_0100, 0, .lpmZ 19),
    (0b1001_0001_0011_0101, 0, .lpmZInc 19),
    (0b1001_0101_1101_1000, 0, .elpmR0),
    (0b1001_0001_0011_0110, 0, .elpmZ 19),
    (0b1001_0001_0011_0111, 0, .elpmZInc 19),
    (0b1001_0101_1110_1000, 0, .spm),
    (0b1001_0101_1111_1000, 0, .spmZInc)] = true := by decide

theorem test_decode_control : decodesTo [
    (0b1100_1000_0000_0110, 0, .rjmp 0x806),
    (0b1001_0100_0000_1001, 0, .ijmp),
    (0b1001_0100_0001_1001, 0, .eijmp),
    (0b1001_0101_0001_1101, 0x0005, .jmp 0x230005),
    (0b1101_1000_0000_0110, 0, .rcall 0x806),
    (0b1001_0101_0000_1001, 0, .icall),
    (0b1001_0101_0001_1001, 0, .eicall),
    (0b1001_0101_0001_1111, 0x0005, .call 0x230005),
    (0b1001_0101_0000_1000, 0, .ret),
    (0b1001_0101_0001_1000, 0, .reti),
    (0b1111_0010_0001_1101, 0, .brbs 5 67),
    (0b1111_0110_0001_1101, 0, .brbc 5 67),
    (0b0001_0001_0011_1101, 0, .cpse 19 13),
    (0b1111_1100_1101_0011, 0, .sbrc 13 3),
    (0b1111_1110_1101_0011, 0, .sbrs 13 3),
    (0b1001_1001_1011_0011, 0, .sbic 22 3),
    (0b1001_1011_1011_0011, 0, .sbis 22 3)] = true := by decide

theorem test_decode_system : decodesTo [
    (0b0000_0000_0000_0000, 0, .nop),
    (0b1001_0101_1000_1000, 0, .sleep),
    (0b1001_0101_1010_1000, 0, .wdr),
    (0b1001_0101_1001_1000, 0, .brk)] = true := by decide

/-- Five of the 1570 words that match no row (R229), and the words next to a row that R76 says are
unassigned. -/
theorem test_decode_unmatched :
    ([0x00FF, 0x9404, 0x95B8, 0xF808, 0x940B, 0x9003, 0x9208, 0x9429, 0xFFFF] : List Word).all
      (fun op => decode op 0 == .error (.unmatched op)) = true := by decide

/-! ## One step from the spec's vectors (`95_test_vectors.md` part 2) -/

/-- `ADD r1, r2 0x0C12 r1=80 r2=80 SREG=-(0x00)`. -/
theorem test_add : ran 64 [(0, 0x0C12)] 0
    [(1, 0x80), (2, 0x80)] [(1, 0), (0x5F, 0x1B)] 1 1 = true := by decide

/-- `ADC r1, r2 0x1C12 r1=0A r2=14 SREG=C(0x01)`. -/
theorem test_adc : ran 64 [(0, 0x1C12)] 0
    [(1, 0x0A), (2, 0x14), (0x5F, 1)] [(1, 0x1F), (0x5F, 0)] 1 1 = true := by decide

/-- `ADIW r27:r26, 63 0x96DF r26=C1 r27=7F SREG=-(0x00)`. -/
theorem test_adiw : ran 64 [(0, 0x96DF)] 0
    [(26, 0xC1), (27, 0x7F)] [(26, 0), (27, 0x80), (0x5F, 0x0C)] 1 2 = true := by decide

/-- `SUB r1, r2 0x1812 r1=80 r2=01 SREG=-(0x00)`. -/
theorem test_sub : ran 64 [(0, 0x1812)] 0
    [(1, 0x80), (2, 1)] [(1, 0x7F), (0x5F, 0x38)] 1 1 = true := by decide

/-- `SUBI r16, 0x01 0x5001 r16=00 SREG=-(0x00)`. -/
theorem test_subi : ran 64 [(0, 0x5001)] 0
    [] [(16, 0xFF), (0x5F, 0x35)] 1 1 = true := by decide

/-- `SBC r1, r2 0x0812 r1=00 r2=00 SREG=ZC(0x03)`. -/
theorem test_sbc : ran 64 [(0, 0x0812)] 0
    [(0x5F, 3)] [(1, 0xFF), (0x5F, 0x35)] 1 1 = true := by decide

/-- `SBCI r17, 0xFF 0x4F1F r17=00 SREG=C(0x01)`. -/
theorem test_sbci : ran 64 [(0, 0x4F1F)] 0
    [(0x5F, 1)] [(0x5F, 0x21)] 1 1 = true := by decide

/-- `SBIW r29:r28, 63 0x97EF r28=3F r29=00 SREG=-(0x00)`. -/
theorem test_sbiw : ran 64 [(0, 0x97EF)] 0
    [(28, 0x3F)] [(28, 0), (0x5F, 2)] 1 2 = true := by decide

/-- `CP r1, r2 0x1412 r1=7F r2=80 SREG=-(0x00)`. -/
theorem test_cp : ran 64 [(0, 0x1412)] 0
    [(1, 0x7F), (2, 0x80)] [(0x5F, 0x0D)] 1 1 = true := by decide

/-- `CPC r1, r2 0x0412 r1=05 r2=04 SREG=C(0x01)`. -/
theorem test_cpc : ran 64 [(0, 0x0412)] 0
    [(1, 5), (2, 4), (0x5F, 1)] [(0x5F, 0)] 1 1 = true := by decide

/-- `CPI r16, 0x10 0x3100 r16=10 SREG=-(0x00)`. -/
theorem test_cpi : ran 64 [(0, 0x3100)] 0
    [(16, 0x10)] [(0x5F, 2)] 1 1 = true := by decide

/-- `NEG r4 0x9441 r4=10 SREG=-(0x00)`. -/
theorem test_neg : ran 64 [(0, 0x9441)] 0
    [(4, 0x10)] [(4, 0xF0), (0x5F, 0x15)] 1 1 = true := by decide

/-- `INC r4 0x9443 r4=FF SREG=-(0x00)`. -/
theorem test_inc : ran 64 [(0, 0x9443)] 0
    [(4, 0xFF)] [(4, 0), (0x5F, 2)] 1 1 = true := by decide

/-- `DEC r4 0x944A r4=80 SREG=-(0x00)`. -/
theorem test_dec : ran 64 [(0, 0x944A)] 0
    [(4, 0x80)] [(4, 0x7F), (0x5F, 0x18)] 1 1 = true := by decide

/-- `AND r1, r2 0x2012 r1=FF r2=80 SREG=-(0x00)`. -/
theorem test_and : ran 64 [(0, 0x2012)] 0
    [(1, 0xFF), (2, 0x80)] [(1, 0x80), (0x5F, 0x14)] 1 1 = true := by decide

/-- `ANDI r16, 0x0F 0x700F r16=A5 SREG=-(0x00)`. -/
theorem test_andi : ran 64 [(0, 0x700F)] 0
    [(16, 0xA5)] [(16, 5)] 1 1 = true := by decide

/-- `OR r1, r2 0x2812 r1=80 r2=01 SREG=-(0x00)`. -/
theorem test_or : ran 64 [(0, 0x2812)] 0
    [(1, 0x80), (2, 1)] [(1, 0x81), (0x5F, 0x14)] 1 1 = true := by decide

/-- `ORI r16, 0x80 0x6800 r16=01 SREG=-(0x00)`. -/
theorem test_ori : ran 64 [(0, 0x6800)] 0
    [(16, 1)] [(16, 0x81), (0x5F, 0x14)] 1 1 = true := by decide

/-- `EOR r1, r2 0x2412 r1=AA r2=55 SREG=-(0x00)`. -/
theorem test_eor : ran 64 [(0, 0x2412)] 0
    [(1, 0xAA), (2, 0x55)] [(1, 0xFF), (0x5F, 0x14)] 1 1 = true := by decide

/-- `COM r4 0x9440 r4=00 SREG=-(0x00)`. -/
theorem test_com : ran 64 [(0, 0x9440)] 0
    [] [(4, 0xFF), (0x5F, 0x15)] 1 1 = true := by decide

/-- `LSR r4 0x9446 r4=FF SREG=-(0x00)`. -/
theorem test_lsr : ran 64 [(0, 0x9446)] 0
    [(4, 0xFF)] [(4, 0x7F), (0x5F, 0x19)] 1 1 = true := by decide

/-- `ROR r4 0x9447 r4=01 SREG=C(0x01)`. -/
theorem test_ror : ran 64 [(0, 0x9447)] 0
    [(4, 1), (0x5F, 1)] [(4, 0x80), (0x5F, 0x15)] 1 1 = true := by decide

/-- `ASR r4 0x9445 r4=81 SREG=-(0x00)`. -/
theorem test_asr : ran 64 [(0, 0x9445)] 0
    [(4, 0x81)] [(4, 0xC0), (0x5F, 0x15)] 1 1 = true := by decide

/-- `SWAP r4 0x9442 r4=A5 SREG=ITHSVNZC(0xFF)`. -/
theorem test_swap : ran 64 [(0, 0x9442)] 0
    [(4, 0xA5), (0x5F, 0xFF)] [(4, 0x5A)] 1 1 = true := by decide

/-- `MUL r0, r1 0x9C01 r0=10 r1=10 SREG=-(0x00)`. -/
theorem test_mul : ran 64 [(0, 0x9C01)] 0
    [(0, 0x10), (1, 0x10)] [(0, 0), (1, 1)] 1 2 = true := by decide

/-- `MULS r16, r17 0x0201 r16=80 r17=7F SREG=-(0x00)`. -/
theorem test_muls : ran 64 [(0, 0x0201)] 0
    [(16, 0x80), (17, 0x7F)] [(0, 0x80), (1, 0xC0), (0x5F, 1)] 1 2 = true := by decide

/-- `MULSU r23, r16 0x0370 r16=01 r23=80 SREG=-(0x00)`. -/
theorem test_mulsu : ran 64 [(0, 0x0370)] 0
    [(16, 1), (23, 0x80)] [(0, 0x80), (1, 0xFF), (0x5F, 1)] 1 2 = true := by decide

/-- `FMUL r16, r17 0x0309 r16=FF r17=FF SREG=-(0x00)`. -/
theorem test_fmul : ran 64 [(0, 0x0309)] 0
    [(16, 0xFF), (17, 0xFF)] [(0, 2), (1, 0xFC), (0x5F, 1)] 1 2 = true := by decide

/-- `FMULS r16, r17 0x0381 r16=40 r17=C0 SREG=-(0x00)`. -/
theorem test_fmuls : ran 64 [(0, 0x0381)] 0
    [(16, 0x40), (17, 0xC0)] [(1, 0xE0), (0x5F, 1)] 1 2 = true := by decide

/-- `FMULSU r16, r17 0x0389 r16=80 r17=FF SREG=-(0x00)`. -/
theorem test_fmulsu : ran 64 [(0, 0x0389)] 0
    [(16, 0x80), (17, 0xFF)] [(1, 1), (0x5F, 1)] 1 2 = true := by decide

/-- `BSET 7 0x9478 SREG=-(0x00)`. -/
theorem test_bset : ran 64 [(0, 0x9478)] 0
    [] [(0x5F, 0x80)] 1 1 = true := by decide

/-- `BCLR 0 0x9488 SREG=ITHSVNZC(0xFF)`. -/
theorem test_bclr : ran 64 [(0, 0x9488)] 0
    [(0x5F, 0xFF)] [(0x5F, 0xFE)] 1 1 = true := by decide

/-- `BST r3, 5 0xFA35 r3=DF SREG=ITHSVNZC(0xFF)`. -/
theorem test_bst : ran 64 [(0, 0xFA35)] 0
    [(3, 0xDF), (0x5F, 0xFF)] [(0x5F, 0xBF)] 1 1 = true := by decide

/-- `BLD r3, 0 0xF830 r3=00 SREG=T(0x40)`. -/
theorem test_bld : ran 64 [(0, 0xF830)] 0
    [(0x5F, 0x40)] [(3, 1)] 1 1 = true := by decide

/-- `SBI 0x05, 3 0x9A2B [0x25]=A1 SREG=-(0x00)`. -/
theorem test_sbi : ran 64 [(0, 0x9A2B)] 0
    [(0x25, 0xA1)] [(0x25, 0xA9)] 1 2 = true := by decide

/-- `CBI 0x05, 0 0x9828 [0x25]=A1 SREG=-(0x00)`. -/
theorem test_cbi : ran 64 [(0, 0x9828)] 0
    [(0x25, 0xA1)] [(0x25, 0xA0)] 1 2 = true := by decide

/-- `MOV r0, r31 0x2E0F r31=9C SREG=ITHSVNZC(0xFF)`. -/
theorem test_mov : ran 64 [(0, 0x2E0F)] 0
    [(31, 0x9C), (0x5F, 0xFF)] [(0, 0x9C)] 1 1 = true := by decide

/-- `MOVW r25:r24, r31:r30 0x01CF r30=34 r31=12 SREG=-(0x00)`. -/
theorem test_movw : ran 64 [(0, 0x01CF)] 0
    [(30, 0x34), (31, 0x12)] [(24, 0x34), (25, 0x12)] 1 1 = true := by decide

/-- `LDI r16, 0xFF 0xEF0F SREG=-(0x00)`. -/
theorem test_ldi : ran 64 [(0, 0xEF0F)] 0
    [] [(16, 0xFF)] 1 1 = true := by decide

/-- `IN r5, 0x3D 0xB65D SP=08FF SREG=-(0x00)`. -/
theorem test_inp : ran 64 [(0, 0xB65D)] 0
    [(0x5D, 0xFF), (0x5E, 8)] [(5, 0xFF)] 1 1 = true := by decide

/-- `OUT 0x3E, r5 0xBE5E r5=08 SP=00FF SREG=-(0x00)`. -/
theorem test_out : ran 64 [(0, 0xBE5E)] 0
    [(5, 8), (0x5D, 0xFF)] [(0x5E, 8)] 1 1 = true := by decide

/-- `PUSH r7 0x927F r7=AB SP=0000 SREG=-(0x00)`. -/
theorem test_push : ran 64 [(0, 0x927F)] 0
    [(7, 0xAB)] [(0, 0xAB), (0x5D, 0xFF), (0x5E, 0xFF)] 1 2 = true := by decide

/-- `POP r7 0x907F r0=3C SP=FFFF SREG=-(0x00)`. -/
theorem test_pop : ran 64 [(0, 0x907F)] 0
    [(0, 0x3C), (0x5D, 0xFF), (0x5E, 0xFF)] [(7, 0x3C), (0x5D, 0), (0x5E, 0)] 1 2 = true := by decide

/-- `LDS r4, 0x005F 0x9040 0x005F SREG=IZC(0x83)`. -/
theorem test_lds : ran 64 [(0, 0x9040), (1, 0x005F)] 0
    [(0x5F, 0x83)] [(4, 0x83)] 2 2 = true := by decide

/-- `STS 0x005D, r4 0x9240 0x005D r4=12 SREG=-(0x00)`. -/
theorem test_sts : ran 64 [(0, 0x9240), (1, 0x005D)] 0
    [(4, 0x12)] [(0x5D, 0x12)] 2 2 = true := by decide

/-- `LD r2, X 0x902C r26=00 r27=01 [0x100]=11 SREG=-(0x00)`. -/
theorem test_ldX : ran 64 [(0, 0x902C)] 0
    [(27, 1), (0x100, 0x11)] [(2, 0x11)] 1 2 = true := by decide

/-- `LD r2, X+ 0x902D r26=FF r27=01 [0x1FF]=22 SREG=-(0x00)`. -/
theorem test_ldXInc : ran 64 [(0, 0x902D)] 0
    [(26, 0xFF), (27, 1), (0x1FF, 0x22)] [(2, 0x22), (26, 0), (27, 2)] 1 2 = true := by decide

/-- `LD r2, -X 0x902E r26=00 r27=02 [0x1FF]=33 SREG=-(0x00)`. -/
theorem test_ldXDec : ran 64 [(0, 0x902E)] 0
    [(27, 2), (0x1FF, 0x33)] [(2, 0x33), (26, 0xFF), (27, 1)] 1 2 = true := by decide

/-- `LD r2, Y+ 0x9029 r28=00 r29=01 [0x100]=44 SREG=-(0x00)`. -/
theorem test_ldYInc : ran 64 [(0, 0x9029)] 0
    [(29, 1), (0x100, 0x44)] [(2, 0x44), (28, 1)] 1 2 = true := by decide

/-- `LD r2, -Y 0x902A r28=01 r29=01 [0x100]=55 SREG=-(0x00)`. -/
theorem test_ldYDec : ran 64 [(0, 0x902A)] 0
    [(28, 1), (29, 1), (0x100, 0x55)] [(2, 0x55), (28, 0)] 1 2 = true := by decide

/-- `LDD r2, Y+63 0xAC2F r28=00 r29=01 [0x13F]=77 SREG=-(0x00)`. -/
theorem test_lddY : ran 64 [(0, 0xAC2F)] 0
    [(29, 1), (0x13F, 0x77)] [(2, 0x77)] 1 2 = true := by decide

/-- `LD r2, Z+ 0x9021 r30=00 r31=01 [0x100]=88 SREG=-(0x00)`. -/
theorem test_ldZInc : ran 64 [(0, 0x9021)] 0
    [(31, 1), (0x100, 0x88)] [(2, 0x88), (30, 1)] 1 2 = true := by decide

/-- `LD r2, -Z 0x9022 r30=01 r31=01 [0x100]=99 SREG=-(0x00)`. -/
theorem test_ldZDec : ran 64 [(0, 0x9022)] 0
    [(30, 1), (31, 1), (0x100, 0x99)] [(2, 0x99), (30, 0)] 1 2 = true := by decide

/-- `LDD r2, Z+0 0x8020 r30=1F r31=00 SREG=-(0x00)`. -/
theorem test_lddZ : ran 64 [(0, 0x8020)] 0
    [(30, 0x1F)] [] 1 2 = true := by decide

/-- `ST X, r2 0x922C r2=11 r26=00 r27=01 SREG=-(0x00)`. -/
theorem test_stX : ran 64 [(0, 0x922C)] 0
    [(2, 0x11), (27, 1)] [(0x100, 0x11)] 1 2 = true := by decide

/-- `ST X+, r2 0x922D r2=22 r26=FF r27=01 SREG=-(0x00)`. -/
theorem test_stXInc : ran 64 [(0, 0x922D)] 0
    [(2, 0x22), (26, 0xFF), (27, 1)] [(26, 0), (27, 2), (0x1FF, 0x22)] 1 2 = true := by decide

/-- `ST -X, r2 0x922E r2=33 r26=00 r27=02 SREG=-(0x00)`. -/
theorem test_stXDec : ran 64 [(0, 0x922E)] 0
    [(2, 0x33), (27, 2)] [(26, 0xFF), (27, 1), (0x1FF, 0x33)] 1 2 = true := by decide

/-- `ST Y+, r2 0x9229 r2=44 r28=00 r29=01 SREG=-(0x00)`. -/
theorem test_stYInc : ran 64 [(0, 0x9229)] 0
    [(2, 0x44), (29, 1)] [(28, 1), (0x100, 0x44)] 1 2 = true := by decide

/-- `ST -Y, r2 0x922A r2=55 r28=01 r29=01 SREG=-(0x00)`. -/
theorem test_stYDec : ran 64 [(0, 0x922A)] 0
    [(2, 0x55), (28, 1), (29, 1)] [(28, 0), (0x100, 0x55)] 1 2 = true := by decide

/-- `STD Y+63, r2 0xAE2F r2=77 r28=00 r29=01 SREG=-(0x00)`. -/
theorem test_stdY : ran 64 [(0, 0xAE2F)] 0
    [(2, 0x77), (29, 1)] [(0x13F, 0x77)] 1 2 = true := by decide

/-- `ST Z+, r2 0x9221 r2=88 r30=00 r31=01 SREG=-(0x00)`. -/
theorem test_stZInc : ran 64 [(0, 0x9221)] 0
    [(2, 0x88), (31, 1)] [(30, 1), (0x100, 0x88)] 1 2 = true := by decide

/-- `ST -Z, r2 0x9222 r2=99 r30=01 r31=01 SREG=-(0x00)`. -/
theorem test_stZDec : ran 64 [(0, 0x9222)] 0
    [(2, 0x99), (30, 1), (31, 1)] [(30, 0), (0x100, 0x99)] 1 2 = true := by decide

/-- `STD Z+2, r2 0x8222 r2=81 r30=5D r31=00 SREG=-(0x00)`. -/
theorem test_stdZ : ran 64 [(0, 0x8222)] 0
    [(2, 0x81), (30, 0x5D)] [(0x5F, 0x81)] 1 2 = true := by decide

/-- `XCH Z, r5 0x9254 r5=0F r30=00 r31=01 [0x100]=3C SREG=-(0x00)`. -/
theorem test_xch : ran 64 [(0, 0x9254)] 0
    [(5, 0x0F), (31, 1), (0x100, 0x3C)] [(5, 0x3C), (0x100, 0x0F)] 1 2 = true := by decide

/-- `LAS Z, r5 0x9255 r5=80 r30=5F r31=00 SREG=C(0x01)`. -/
theorem test_las : ran 64 [(0, 0x9255)] 0
    [(5, 0x80), (30, 0x5F), (0x5F, 1)] [(5, 1), (0x5F, 0x81)] 1 2 = true := by decide

/-- `LAC Z, r5 0x9256 r5=0F r30=00 r31=01 [0x100]=3C SREG=-(0x00)`. -/
theorem test_lac : ran 64 [(0, 0x9256)] 0
    [(5, 0x0F), (31, 1), (0x100, 0x3C)] [(5, 0x3C), (0x100, 0x30)] 1 2 = true := by decide

/-- `LAT Z, r5 0x9257 r5=0F r30=00 r31=01 [0x100]=3C SREG=-(0x00)`. -/
theorem test_lat : ran 64 [(0, 0x9257)] 0
    [(5, 0x0F), (31, 1), (0x100, 0x3C)] [(5, 0x3C), (0x100, 0x33)] 1 2 = true := by decide

/-- `LPM 0x95C8 r30=11 r31=00 SREG=-(0x00)`. -/
theorem test_lpmR0 : ran 64 [(8, 0xBBAA), (0, 0x95C8)] 0
    [(30, 0x11)] [(0, 0xBB)] 1 3 = true := by decide

/-- `LPM r9, Z 0x9094 r30=12 r31=00 SREG=-(0x00)`. -/
theorem test_lpmZ : ran 64 [(9, 0xDDCC), (0, 0x9094)] 0
    [(30, 0x12)] [(9, 0xCC)] 1 3 = true := by decide

/-- `LPM r9, Z+ 0x9095 r30=13 r31=00 SREG=-(0x00)`. -/
theorem test_lpmZInc : ran 64 [(9, 0xDDCC), (0, 0x9095)] 0
    [(30, 0x13)] [(9, 0xDD), (30, 0x14)] 1 3 = true := by decide

/-- `ELPM 0x95D8 r30=02 r31=00 RAMPZ=01 SREG=-(0x00)`. -/
theorem test_elpmR0 : ran 0x10004 [(0x8001, 0x4321), (0, 0x95D8)] 0
    [(30, 2), (0x5B, 1)] [(0, 0x21)] 1 3 = true := by decide

/-- `ELPM r9, Z 0x9096 r30=03 r31=00 RAMPZ=01 SREG=-(0x00)`. -/
theorem test_elpmZ : ran 0x10004 [(0x8001, 0x4321), (0, 0x9096)] 0
    [(30, 3), (0x5B, 1)] [(9, 0x43)] 1 3 = true := by decide

/-- `ELPM r9, Z+ 0x9097 r30=FF r31=FF RAMPZ=00 SREG=-(0x00)`. -/
theorem test_elpmZInc : ran 0x10004 [(0x7FFF, 0x9800), (0, 0x9097)] 0
    [(30, 0xFF), (31, 0xFF)] [(9, 0x98), (30, 0), (31, 0), (0x5B, 1)] 1 3 = true := by decide

/-- `SPM 0x95E8 r30=10 r31=00 SREG=ITHSVNZC(0xFF)`. -/
theorem test_spm : ran 64 [(0, 0x95E8)] 0
    [(30, 0x10), (0x5F, 0xFF)] [] 1 1 = true := by decide

/-- `SPM Z+ 0x95F8 r30=10 r31=00 SREG=-(0x00)`. -/
theorem test_spmZInc : ran 64 [(0, 0x95F8)] 0
    [(30, 0x10)] [] 1 1 = true := by decide

/-- `RJMP -3 0xCFFD SREG=-(0x00) pc=0x1`. -/
theorem test_rjmp : ran 64 [(1, 0xCFFD)] 1
    [] [] 0x3F 2 = true := by decide

/-- `IJMP 0x9409 r30=45 r31=01 SREG=-(0x00) pc=0x3`. -/
theorem test_ijmp : ran 64 [(3, 0x9409)] 3
    [(30, 0x45), (31, 1)] [] 5 2 = true := by decide

/-- `EIJMP 0x9419 r30=34 r31=12 EIND=01 SREG=-(0x00) pc=0x3`. -/
theorem test_eijmp : ran 0x20000 [(3, 0x9419)] 3
    [(30, 0x34), (31, 0x12), (0x5C, 1)] [] 0x11234 2 = true := by decide

/-- `JMP 0x12345 0x940D 0x2345 SREG=-(0x00)`. -/
theorem test_jmp : ran 0x20000 [(0, 0x940D), (1, 0x2345)] 0
    [] [] 0x12345 3 = true := by decide

/-- `RCALL -1 0xDFFF SP=08FF SREG=-(0x00) pc=0x3F`. -/
theorem test_rcall : ran 64 [(0x3F, 0xDFFF)] 63
    [(0x5D, 0xFF), (0x5E, 8)] [(0x5D, 0xFD)] 0x3F 3 = true := by decide

/-- `ICALL 0x9509 r30=30 r31=00 SP=08FF SREG=-(0x00) pc=0x12345`. -/
theorem test_icall : ran 0x20000 [(0x12345, 0x9509)] 74565
    [(30, 0x30), (0x5D, 0xFF), (0x5E, 8)] [(0x8FD, 1), (0x8FE, 0x23), (0x8FF, 0x46), (0x5D, 0xFC)] 0x30 4 = true := by decide

/-- `EICALL 0x9519 r30=30 r31=00 EIND=01 SP=08FF SREG=-(0x00) pc=0x12`. -/
theorem test_eicall : ran 0x20000 [(18, 0x9519)] 18
    [(30, 0x30), (0x5C, 1), (0x5D, 0xFF), (0x5E, 8)] [(0x8FF, 0x13), (0x5D, 0xFC)] 0x10030 4 = true := by decide

/-- `CALL 0x10000 0x940F 0x0000 SP=08FF SREG=-(0x00) pc=0x10010`. -/
theorem test_call : ran 0x20000 [(0x10010, 0x940F), (0x10011, 0x0000)] 65552
    [(0x5D, 0xFF), (0x5E, 8)] [(0x8FD, 1), (0x8FF, 0x12), (0x5D, 0xFC)] 0x10000 5 = true := by decide

/-- `RET 0x9508 [0x8FD]=01 [0x8FE]=23 [0x8FF]=45 SP=08FC SREG=-(0x00) pc=0x7`. -/
theorem test_ret : ran 0x20000 [(7, 0x9508)] 7
    [(0x8FD, 1), (0x8FE, 0x23), (0x8FF, 0x45), (0x5D, 0xFC), (0x5E, 8)] [(0x5D, 0xFF)] 0x12345 5 = true := by decide

/-- `RETI 0x9518 [0x8FE]=00 [0x8FF]=2A SP=08FD SREG=C(0x01) pc=0x7`. -/
theorem test_reti : ran 64 [(7, 0x9518)] 7
    [(0x8FF, 0x2A), (0x5D, 0xFD), (0x5E, 8), (0x5F, 1)] [(0x5D, 0xFF), (0x5F, 0x81)] 0x2A 4 = true := by decide

/-- `BRBS 7, -1 0xF3FF SREG=I(0x80) pc=0x8`. -/
theorem test_brbs : ran 64 [(8, 0xF3FF)] 8
    [(0x5F, 0x80)] [] 8 2 = true := by decide

/-- `BRBC 0, -64 0xF600 SREG=-(0x00) pc=0x64`. -/
theorem test_brbc : ran 0x80 [(0x64, 0xF600)] 100
    [] [] 0x25 2 = true := by decide

/-- `CPSE r1, r2 0x1012 0x940E 0x0020 r1=05 r2=05 SREG=-(0x00) pc=0x4`. -/
theorem test_cpse : ran 64 [(4, 0x1012), (5, 0x940E), (6, 0x0020)] 4
    [(1, 5), (2, 5)] [] 7 3 = true := by decide

/-- `SBRC r1, 7 0xFC17 0x9200 0x0100 r1=7F SREG=-(0x00) pc=0x4`. -/
theorem test_sbrc : ran 64 [(4, 0xFC17), (5, 0x9200), (6, 0x0100)] 4
    [(1, 0x7F)] [] 7 3 = true := by decide

/-- `SBRS r1, 3 0xFE13 0x940C 0x0000 r1=08 SREG=-(0x00) pc=0x4`. -/
theorem test_sbrs : ran 64 [(4, 0xFE13), (5, 0x940C), (6, 0x0000)] 4
    [(1, 8)] [] 7 3 = true := by decide

/-- `SBIC 0x10, 2 0x9982 0x9000 0x0100 [0x30]=00 SREG=-(0x00) pc=0x4`. -/
theorem test_sbic : ran 64 [(4, 0x9982), (5, 0x9000), (6, 0x0100)] 4
    [] [] 7 3 = true := by decide

/-- `SBIS 0x1F, 7 0x9BFF 0x0000 [0x3F]=80 SREG=-(0x00) pc=0x4`. -/
theorem test_sbis : ran 64 [(4, 0x9BFF), (5, 0x0000)] 4
    [(0x3F, 0x80)] [] 6 2 = true := by decide

/-- `NOP 0x0000 SREG=-(0x00) pc=0x3F`. -/
theorem test_nop : ran 64 [(0x3F, 0x0000)] 63
    [] [] 0 1 = true := by decide

/-- `SLEEP 0x9588 SREG=I(0x80) pc=0x5`. -/
theorem test_sleep : ran 64 [(5, 0x9588)] 5
    [(0x5F, 0x80)] [] 6 1 = true := by decide

/-- `WDR 0x95A8 SREG=-(0x00) pc=0x5`. -/
theorem test_wdr : ran 64 [(5, 0x95A8)] 5
    [] [] 6 1 = true := by decide

/-- `BREAK 0x9598 SREG=-(0x00) pc=0x5`. -/
theorem test_brk : ran 64 [(5, 0x9598)] 5
    [] [] 6 1 = true := by decide

/-! ## Aborts, hooks, interrupts and events (`95_test_vectors.md`) -/

/-- `LDD r2, Y+63` with Y = 0x8C1: the address 0x900 is `DATA_SIZE`. -/
theorem test_abort_data :
    abort (stepInstr (coreWith 64 [(0, 0xAC2F)] 0 [(28, 0xC1), (29, 8)])) =
      some (.dataAddressOutOfRange 2304) := by decide

/-- `LDD r2, Z+1` with Z = 0xFFFF: the address is not reduced. -/
theorem test_abort_unreduced :
    abort (stepInstr (coreWith 64 [(0, 0x8021)] 0 [(30, 0xFF), (31, 0xFF)])) =
      some (.dataAddressOutOfRange 65536) := by decide

/-- `JMP` in the last place of program memory. -/
theorem test_abort_second_word :
    abort (stepInstr (coreWith 64 [(63, 0x940C)] 63 [])) =
      some (.progAddressOutOfRange 64) := by decide

/-- `CPSE r1, r2` in the last place, with equal registers. -/
theorem test_abort_skip :
    abort (stepInstr (coreWith 64 [(63, 0x1012)] 63 [(1, 5), (2, 5)])) =
      some (.progAddressOutOfRange 64) := by decide

/-- `CALL 0x20` with SP = 0: the second byte would be at -1. -/
theorem test_abort_push_below_zero :
    abort (exec (.call 0x20) (coreWith 64 [] 0 [])) =
      some (.dataAddressOutOfRange (-1)) := by decide

/-- A descriptor of the tests: flag 0x36 bit 0, enable 0x37 bit 0. -/
def descriptor (vector : Nat) : Descriptor :=
  { vector := vector, flagReg := 0x36, flagMask := 1, enableReg := 0x37, enableMask := 1,
    inverseFlag := false, constant := false }

/-- A core in which much is going on: I is set, the vectors 2 and 5 are pending, an event of handle 7
is due and one of handle 8 is not, 0x21 has both hooks, and the registers, SP and the flag register
hold something. The program is `ADD r0, r0` and, in its last two places, `JMP 1`. -/
def busy : State :=
  { coreWith 64 [(0, 0x0C00), (62, 0x940C), (63, 1)] 0
      [(0, 0x80), (16, 0xFF), (26, 0xFF), (27, 8), (28, 26), (30, 0x21), (0x21, 0x5A), (0x36, 1),
        (0x37, 1), (93, 0xFF), (94, 8), (95, 0xC1)] with
    cycles := 100
    pending := [(2, descriptor 2), (5, descriptor 5)]
    lowestPending := some 2
    highestBound := 5
    events := [⟨100, 7⟩, ⟨300, 8⟩]
    readHooks := [(31, 3), (0x21, 1)]
    writeHooks := [(0x21, 2)]
    envIn := [.ret 0x1FE false] }

/-- A core with a 3-byte return address. -/
def large : State := coreWith 0x10001 [] 0x10000 [(93, 0xFF), (94, 8), (95, 0x80)]

/-- The dispatch of R317: I clear, 2 cycles, the vector, the next vector. -/
theorem test_dispatch :
    probe (dispatchInterrupt busy) (fun t => (t.pc, t.cycles, t.sreg, t.lowestPending)) =
      some (2, 102, 0x41, some 5) := by decide

/-- The dispatch of R317: the return address below the old SP, the flag bit cleared. -/
theorem test_dispatch_memory :
    probe (dispatchInterrupt { busy with pc := 0x3A }) (fun t =>
      [t.peek 0x8FF, t.peek 0x8FE, t.peek 93, t.peek 94, t.peek 0x36]) =
      some [0x3A, 0, 0xFD, 8, 0] := by decide

/-- One event and one interrupt in one tick, in this order (R320). -/
theorem test_tick :
    probe (tick busy) (fun t => (t.pc, t.events, t.envOut)) =
      some (2, [⟨300, 8⟩], [.callback 7 100]) := by decide

/-- A read hook answers modulo 256 and sees one cycle more in LD (R47, R373). -/
theorem test_read_hook :
    probe (exec (.lddZ 4 0) busy) (fun t => (t.reg 4, t.peek 0x21, t.envOut)) =
      some (0xFE, 0x5A, [.readHook 1 0x21 101]) := by decide

/-- A write hook that does not own the write gets its four arguments (R48). -/
theorem test_write_hook :
    probe (exec (.stdZ 0 16) busy) (fun t => (t.peek 0x21, t.envOut)) =
      some (0xFF, [.writeHook 2 0xFF 0x5A 0x21 0xFF 100]) := by decide

/-- Queuing at the vectors 5 and 2 and clearing 2 leaves 5 the lowest (R313, DOC section 8). -/
theorem test_clear_rescans :
    probe (clearInterrupt (descriptor 2) true busy) (fun t => (t.lowestPending, t.peek 0x36)) =
      some (some 5, 0) := by decide

/-- Equal targets: the later entry goes in front (R331). -/
theorem test_events_tie :
    (addClockEvent 9 200 busy).events = [⟨100, 7⟩, ⟨300, 9⟩, ⟨300, 8⟩] := by decide

/-- `reset()` keeps SREG and `cycles` (R352). -/
theorem test_reset :
    probe (hostDo (.reset 3) busy) (fun t => (t.pc, t.pending, t.events, t.cycles, t.sreg)) =
      some (0, [], [], 100, 0xC1) := by decide

/-- `COST` and `HOOK_PHASE` are parameters (R3): a core whose OUT takes 3 cycles, 2 of which its hook
sees. -/
theorem test_cost_and_phase :
    probe (exec (.out 1 16)
        { busy with
          params :=
            { busy.params with
              cost := { CostTable.standard with out := 3 },
              phase := { HookPhase.standard with out := .before } } })
      (fun t => (t.cycles, t.envOut)) =
      some (103, [.writeHook 2 0xFF 0x5A 0x21 0xFF 102]) := by decide

/-- A big-endian 16-bit write has the high byte at the lower address (R50), and aborts where the
second byte lies outside the data space (R44). -/
theorem test_write_big_endian :
    probe (writeWord .big 0x60 0x1234 busy) (fun t => (t.peek 0x60, t.peek 0x61)) =
        some (0x12, 0x34) ∧
      abort (writeWord .big 2303 0x1234 busy) = some (.dataAddressOutOfRange 2304) := by decide

/-- `run(budget)` makes no turn on an aborted core, and stops at the first turn's end at or beyond its
target (R321): here after the 3 cycles of an ADD and a dispatch. -/
theorem test_run :
    let stopped : State := { busy with status := .aborted (.progAddressOutOfRange 64) }
    probe (run 5 stopped) (fun t => t == stopped) = some true ∧
      probe (run 2 busy) (fun t => (t.pc, t.cycles)) = some (2, 103) := by decide

/-- Bytes of a program, low byte first, and an odd number of them (R350). -/
theorem test_construct :
    probe (construct (.bytes [0x0C, 0x94, 0, 0]) 2048) (fun t => t.prog) = some [(0, 0x940C)] ∧
      abort (construct (.bytes [0x0C]) 2048) = some (.configError .oddProgramBytes) := by decide

/-! ## Witnesses: states and operands that meet the hypotheses of each statement

Where a statement only takes an instruction from a list, one form of the list is shown; where it has
several clauses, each has its own line, at the ends of its range. -/

theorem witness_AdditionWritesSumAndFlags :
    (Instr.adc 0 31, true) ∈ [(.add 0 31, false), (.adc 0 31, busy.flag flagC)] := by decide

theorem witness_SubtractionAndCompare :
    (Instr.sbci 16 0xFF, (0xFF : Byte), true, false) ∈
        [(.sub 16 16, busy.reg 16, false, true), (.subi 16 0xFF, 0xFF, false, true),
          (.sbc 16 16, busy.reg 16, busy.flag flagC, busy.flag flagZ),
          (.sbci 16 0xFF, 0xFF, busy.flag flagC, busy.flag flagZ)] ∧
      (Instr.cpc 16 16, (0xFF : Byte), true, false) ∈
        [(.cp 16 16, busy.reg 16, false, true),
          (.cpc 16 16, busy.reg 16, busy.flag flagC, busy.flag flagZ),
          (.cpi 16 0, 0, false, true)] := by decide

theorem witness_LogicalOperations (f g h : Bool → Bool → Bool) :
    (Instr.ori 16 0x80, (0x80 : Byte), f) ∈
      [(.and 16 0, busy.reg 0, g), (.andi 16 0x80, 0x80, g), (.or 16 0, busy.reg 0, f),
        (.ori 16 0x80, 0x80, f), (.eor 16 0, busy.reg 0, h)] := by simp

theorem witness_RightShiftsAndRotate :
    (Instr.ror 0, 192) ∈
      [(.lsr 0, (busy.reg 0).toNat / 2),
        (.ror 0, 128 * (busy.flag flagC).toNat + (busy.reg 0).toNat / 2),
        (.asr 0, if 128 ≤ (busy.reg 0).toNat then 128 + (busy.reg 0).toNat / 2
          else (busy.reg 0).toNat / 2)] := by decide

theorem witness_MultiplyStoresProduct :
    (Instr.fmulsu 16 16, (-255 : Int), (2 : Int)) ∈
      [(.mul 16 16, ((busy.reg 16).toNat : Int) * (busy.reg 16).toNat, 1),
        (.muls 16 16, (busy.reg 16).toInt * (busy.reg 16).toInt, 1),
        (.mulsu 16 16, (busy.reg 16).toInt * (busy.reg 16).toNat, 1),
        (.fmul 16 16, ((busy.reg 16).toNat : Int) * (busy.reg 16).toNat, 2),
        (.fmuls 16 16, (busy.reg 16).toInt * (busy.reg 16).toInt, 2),
        (.fmulsu 16 16, (busy.reg 16).toInt * (busy.reg 16).toNat, 2)] := by decide

theorem witness_FractionalMultiplyZeroExcludesCarry :
    Instr.fmuls 23 16 ∈ [.fmul 23 16, .fmuls 23 16, .fmulsu 23 16] := by decide

theorem witness_SingleBitInstructions :
    (Instr.bst 0 7, flagT, true) ∈
      [(.bset 7, 7, true), (.bclr 7, 7, false),
        (.bst 0 7, flagT, decide ((busy.reg 0).toNat / 2 ^ 7 % 2 = 1))] := by decide

/-- `busy` with answers for a read hook and a write hook. -/
def busyTwice : State := { busy with envIn := [.ret 4 false, .ret 0 true] }

/-- A hooked read and then a hooked write of what is made of the byte read. -/
theorem read_and_write (f : Byte → State → Byte) {m : Byte} :
    ∃ old u w, memRead 0x21 busyTwice = .next (old, u) ∧
      memWrite 0x21 (f old u) m u = .next w := by
  obtain ⟨u, hu, hl⟩ := next_of_probe (o := memRead 0x21 busyTwice)
    (f := fun r => (r.1, r.2.envIn, r.2.dataSize, writeHookAt r.2 0x21))
    (v := (4, [.ret 0 true], 2304, some 2)) (by decide)
  obtain ⟨v, u⟩ := u
  simp only [Prod.mk.injEq] at hl
  obtain ⟨rfl, hin, hd, hw⟩ := hl
  have h : ∃ w, memWrite 0x21 (f 4 u) m u = .next w := by
    rw [memWrite, if_pos (by omega), hw]
    simp only [callEnv, hin]
    exact ⟨_, rfl⟩
  obtain ⟨w, hw⟩ := h
  exact ⟨4, u, w, hu, hw⟩

/-- The hooked address 0x21 in `busyTwice`, and the ends 32 and 63 of the plain ones. -/
theorem witness_IoBitSetAndClear :
    ThisCore busyTwice ∧ (Instr.sbi 1 0, true) ∈ [(.sbi 1 0, true), (.cbi 1 0, false)] ∧
      (∃ old u w,
        memRead 0x21 (busyTwice.addCycles (cyclesAtRead busyTwice (.sbi 1 0))) = .next (old, u) ∧
        memWrite 0x21 (putBit old 0 true) 1
          (u.addCycles (cyclesAtWrite busyTwice (.sbi 1 0) - cyclesAtRead busyTwice (.sbi 1 0))) =
            .next w) ∧
      ReadPlain busy 32 ∧ WritePlain busy 32 ∧ ReadPlain busy 63 ∧ WritePlain busy 63 :=
  ⟨⟨rfl, rfl⟩, by decide, read_and_write fun old _ => putBit old 0 true, ⟨by decide, by decide⟩,
    ⟨by decide, by decide⟩, ⟨by decide, by decide⟩, ⟨by decide, by decide⟩⟩

theorem witness_LoadsAreOneMemRead :
    ThisCore busy ∧
      (Instr.lddZ 4 0, 0x21, 1, 1, 2) ∈
        [(.inp 4 0, 32, 0, 1, 1), (.lds 4 0, 0, 1, 2, 2), (.ldX 4, busy.x.toNat, 1, 1, 2),
          (.lddY 4 0, busy.y.toNat + 0, 1, 1, 2), (.lddZ 4 0, busy.z.toNat + 0, 1, 1, 2)] ∧
      (∀ q, Instr.lddZ 4 0 ≠ .lddY 4 q) ∧ (∃ u, memRead 0x21 (busy.addCycles (cyclesAtRead busy (.lddZ 4 0))) = .next (0xFE, u)) ∧
      (26, Instr.ldXInc 26, Instr.ldXDec 26) ∈
        [(26, .ldXInc 26, .ldXDec 26), (28, .ldYInc 26, .ldYDec 26),
          (30, .ldZInc 26, .ldZDec 26)] ∧
      (∃ u, memRead (busy.pair 26).toNat (busy.addCycles (cyclesAtRead busy (.ldXInc 26))) =
        .next (0, u)) ∧
      ∃ u, memRead (busy.pair 28 - 1).toNat
        ((busy.setPair 28 (busy.pair 28 - 1)).addCycles (cyclesAtRead busy (.ldYDec 26))) =
          .next (0, u) :=
  ⟨⟨rfl, rfl⟩, by decide, nofun, next_of_byte (by decide), by decide, next_of_byte (by decide),
    next_of_byte (by decide)⟩

/-- The first and the last address, and 31, where a registered read hook is not consulted. -/
theorem witness_PlainLoads :
    (Instr.lds 4 2303, 2303, 2, 2) ∈
        [(.inp 4 0, 32, 1, 1), (.lds 4 2303, 2303, 2, 2), (.ldX 4, busy.x.toNat, 1, 2),
          (.lddY 4 0, busy.y.toNat + 0, 1, 2), (.lddZ 4 0, busy.z.toNat + 0, 1, 2)] ∧
      ReadPlain busy 0 ∧ ReadPlain busy 31 ∧ ReadPlain busy 2303 :=
  ⟨by decide, ⟨by decide, by decide⟩, ⟨by decide, by decide⟩, ⟨by decide, by decide⟩⟩

/-- X at the last address, with the register its own half, and Y at its own bytes: Y = 29 holds, as
`p`, the address of R28 after the decrement. -/
theorem witness_PlainLoadsWithWriteBack :
    (26, Instr.ldXInc 27, Instr.ldXDec 27) ∈
        [(26, .ldXInc 27, .ldXDec 27), (28, .ldYInc 27, .ldYDec 27),
          (30, .ldZInc 27, .ldZDec 27)] ∧
      ReadPlain busy (busy.pair 26).toNat ∧
      (28 : Word) = (busy.poke 28 29).pair 28 - 1 ∧ ReadPlain (busy.poke 28 29) 28 :=
  ⟨by decide, ⟨by decide, by decide⟩, by decide, ⟨by decide, by decide⟩⟩

theorem witness_StoresAreOneMemWrite :
    ThisCore busy ∧
      (Instr.stdZ 0 16, 0x21, 1, 2) ∈
        [(.out 0 16, 32, 1, 1), (.sts 0 16, 0, 2, 2), (.stX 16, busy.x.toNat, 1, 2),
          (.stdY 0 16, busy.y.toNat + 0, 1, 2), (.stdZ 0 16, busy.z.toNat + 0, 1, 2)] ∧
      (∀ q, Instr.stdZ 0 16 ≠ .stdY q 16) ∧ (∃ u, memWrite 0x21 (busy.reg 16) 0xFF
        (busy.addCycles (cyclesAtWrite busy (.stdZ 0 16))) = .next u) ∧
      (30, Instr.stZInc 30, Instr.stZDec 30) ∈
        [(26, .stXInc 30, .stXDec 30), (28, .stYInc 30, .stYDec 30),
          (30, .stZInc 30, .stZDec 30)] ∧
      (∃ u, memWrite (busy.pair 30).toNat (busy.reg 30) 0xFF
        (busy.addCycles (cyclesAtWrite busy (.stZInc 30))) = .next u) ∧
      ∃ u, memWrite (busy.pair 30 - 1).toNat (busy.reg 30) 0xFF
        ((busy.setPair 30 (busy.pair 30 - 1)).addCycles (cyclesAtWrite busy (.stZDec 30))) =
          .next u :=
  ⟨⟨rfl, rfl⟩, by decide, nofun, next_of_pc (n := 0) (by decide), by decide,
    next_of_pc (n := 0) (by decide), next_of_pc (n := 0) (by decide)⟩

/-- The first and the last address, the pointer at the last one, and at its own lower byte. -/
theorem witness_PlainStores :
    (Instr.sts 2303 4, 2303, 2, 2) ∈
        [(.out 0 4, 32, 1, 1), (.sts 2303 4, 2303, 2, 2), (.stX 4, busy.x.toNat, 1, 2),
          (.stdY 0 4, busy.y.toNat + 0, 1, 2), (.stdZ 0 4, busy.z.toNat + 0, 1, 2)] ∧
      WritePlain busy 0 ∧ WritePlain busy 2303 ∧
      (26, Instr.stXInc 26, Instr.stXDec 26) ∈
        [(26, .stXInc 26, .stXDec 26), (28, .stYInc 26, .stYDec 26),
          (30, .stZInc 26, .stZDec 26)] ∧
      WritePlain busy (busy.pair 26).toNat ∧
      WritePlain (busy.poke 28 29) ((busy.poke 28 29).pair 28 - 1).toNat :=
  ⟨by decide, ⟨by decide, by decide⟩, ⟨by decide, by decide⟩, by decide, ⟨by decide, by decide⟩,
    ⟨by decide, by decide⟩⟩

/-- Z = 0x21, which has hooks; Z = 30, which is the register itself, and Z = 2303. -/
theorem witness_ReadModifyWriteThroughZ (f g h k : Byte → Byte → Byte) :
    ThisCore busyTwice ∧
      (Instr.las 30, g) ∈ [(.xch 30, f), (.las 30, g), (.lac 30, h), (.lat 30, k)] ∧
      (∃ old u w,
        memRead 0x21 (busyTwice.addCycles (cyclesAtRead busyTwice (.las 30))) = .next (old, u) ∧
        memWrite 0x21 (u.reg 30 ||| old) 0xFF
          (u.addCycles (cyclesAtWrite busyTwice (.las 30) - cyclesAtRead busyTwice (.las 30))) =
            .next w) ∧
      (busy.poke 30 30).z = 30 ∧ ReadPlain (busy.poke 30 30) 30 ∧ WritePlain (busy.poke 30 30) 30 ∧
      (busy.setZ 2303).z = 2303 ∧ ReadPlain (busy.setZ 2303) 2303 ∧
      WritePlain (busy.setZ 2303) 2303 :=
  ⟨⟨rfl, rfl⟩, by simp, read_and_write fun old u => u.reg 30 ||| old, by decide,
    ⟨by decide, by decide⟩, ⟨by decide, by decide⟩, by decide, ⟨by decide, by decide⟩,
    ⟨by decide, by decide⟩⟩

theorem busy_legal : busy.params.Legal :=
  ⟨by decide, by decide, by decide, by decide⟩

/-- A core with a data space of more than 65536 bytes, and Y at 0xFFFF. -/
def wide : State := { busy with params := { busy.params with sramBytes := 0x10000 } }.setY 0xFFFF

/-- `LDD r4, Y+1` at 65536 aborts also where the data space has that address (R170); `LDD r4, Z+1`
reaches it (R42). -/
theorem test_displaced_beyond :
    abort (exec (.lddY 4 1) wide) = some (.dataAddressOutOfRange 65536) ∧
      probe (exec (.lddY 4 0) wide) (fun t => t.reg 4) = some 0 ∧
      probe (exec (.lddZ 4 1) (wide.setZ 0xFFFF)) (fun t => t.reg 4) = some 0 := by decide

/-- The first address outside the data space, and the first and the last above 65535. -/
theorem witness_DataAddressOutsideAborts :
    (readAddress (busy.setZ 0x8C1) (.lddZ 4 63) = some 2304 ∧ (busy.setZ 0x8C1).dataSize ≤ 2304) ∧
      (storeAddress wide (.stdY 1 4) = some 65536 ∧ 65536 < wide.dataSize) ∧
      readAddress wide (.lddY 4 63) = some 65598 ∧
      storeAddress busy (.sts 0xFFFF 4) = some 0xFFFF ∧ busy.dataSize ≤ 0xFFFF := by decide

/-- SP at the ends of the data space, and just outside it. -/
theorem witness_PushStoresThenDecrements :
    ((busy.setSp 0).sp.toNat < (busy.setSp 0).dataSize ∧ (busy.setSp 0).sp ≠ 93 ∧
        (busy.setSp 0).sp ≠ 94) ∧
      (busy.sp.toNat = 2303 ∧ busy.sp.toNat < busy.dataSize ∧ busy.sp ≠ 93 ∧ busy.sp ≠ 94) ∧
      (busy.setSp 2304).dataSize ≤ (busy.setSp 2304).sp.toNat := by decide

theorem witness_PushOverItsOwnPointer :
    (busy.setSp 93).sp = 93 ∧ (busy.setSp 94).sp = 94 := by decide

/-- SP + 1 at 0, at 93, at the last address, and just outside. -/
theorem witness_PopIncrementsThenLoads :
    ((busy.setSp 0xFFFF).sp + 1 = 0 ∧ 0 < busy.dataSize) ∧ (busy.setSp 92).sp + 1 = 93 ∧
      ((busy.setSp 2302).sp + 1).toNat < busy.dataSize ∧
      busy.dataSize ≤ (busy.sp + 1).toNat := by decide

theorem witness_PopReturnsWhatPushStored :
    busy.sp.toNat < busy.dataSize ∧ busy.sp ≠ 93 ∧ busy.sp ≠ 94 := by decide

/-- Two bytes with SP at 1 and at the last address, three bytes with SP at 2; SP outside; SP too low
by one. -/
theorem witness_ReturnAddressPushed :
    PushRoom (busy.setSp 1) ∧ PushRoom busy ∧ PushRoom (large.setSp 2) ∧
      (busy.setSp 2304).dataSize ≤ (busy.setSp 2304).sp.toNat ∧
      ((busy.setSp 0).sp.toNat < (busy.setSp 0).dataSize ∧
        (busy.setSp 0).sp.toNat + 1 < (busy.setSp 0).retBytes) ∧
      ((large.setSp 1).sp.toNat < (large.setSp 1).dataSize ∧
        (large.setSp 1).sp.toNat + 1 < (large.setSp 1).retBytes) :=
  ⟨⟨by decide, by decide⟩, ⟨by decide, by decide⟩, ⟨by decide, by decide⟩, by decide, by decide,
    by decide⟩

theorem witness_PopRetInvertsPushRet :
    PushRoom large ∧ large.progWords ≤ 2 ^ 22 ∧ 0x10000 < large.progWords ∧
      ∀ n, n < large.retBytes → large.sp.toNat - n ≠ 93 ∧ large.sp.toNat - n ≠ 94 :=
  ⟨⟨by decide, by decide⟩, by decide, by decide, by decide⟩

/-- The last byte of program memory, and the first beyond it. -/
theorem witness_LoadProgramMemory :
    (127, Instr.lpmR0, Instr.lpmZ 30, Instr.lpmZInc 30) ∈
        [((busy.setZ 127).z.toNat, Instr.lpmR0, Instr.lpmZ 30, Instr.lpmZInc 30),
          (((busy.setZ 127).peek 91).toNat * 65536 + (busy.setZ 127).z.toNat, .elpmR0, .elpmZ 30,
            .elpmZInc 30)] ∧
      127 < busy.params.progBytes ∧
      (0x20001, Instr.elpmR0, Instr.elpmZ 30, Instr.elpmZInc 30) ∈
        [(((large.setZ 1).poke 91 2).z.toNat, Instr.lpmR0, Instr.lpmZ 30, Instr.lpmZInc 30),
          ((((large.setZ 1).poke 91 2).peek 91).toNat * 65536 + ((large.setZ 1).poke 91 2).z.toNat,
            .elpmR0, .elpmZ 30, .elpmZInc 30)] ∧
      0x20001 < large.params.progBytes ∧
      (busy.setZ 128).params.progBytes ≤ (busy.setZ 128).z.toNat := by decide

theorem witness_JumpsReduceTheirTarget : 0 < busy.progWords := by decide

theorem witness_CallsPushThenTransfer :
    0 < busy.progWords ∧ PushRoom busy ∧ 0 < large.progWords ∧ PushRoom large :=
  ⟨by decide, ⟨by decide, by decide⟩, by decide, ⟨by decide, by decide⟩⟩

/-- The popped bytes at 1 and 0, and at the top; the top outside; the lower byte below 0. -/
theorem witness_ReturnsPopThenTransfer :
    PopRoom (busy.setSp 0xFFFF) ∧ PopRoom (busy.setSp 2301) ∧ PopRoom (large.setSp 2300) ∧
      (busy.setSp 2302).dataSize ≤ (popTop (busy.setSp 2302)).toNat ∧
      ((popTop (busy.setSp 0xFFFE)).toNat < (busy.setSp 0xFFFE).dataSize ∧
        (popTop (busy.setSp 0xFFFE)).toNat + 1 < (busy.setSp 0xFFFE).retBytes) ∧
      ((popTop (large.setSp 0xFFFE)).toNat < (large.setSp 0xFFFE).dataSize ∧
        (popTop (large.setSp 0xFFFE)).toNat + 1 < (large.setSp 0xFFFE).retBytes) :=
  ⟨⟨by decide, by decide⟩, ⟨by decide, by decide⟩, ⟨by decide, by decide⟩, by decide, by decide,
    by decide⟩

/-- A branch that is taken and one that is not. -/
theorem witness_BranchesOnOneStatusBit :
    0 < busy.progWords ∧ ThisCore busy ∧
      (Instr.brbs 7 64, true, (⟨1, 2⟩ : BranchCost)) ∈
        [(.brbs 7 64, busy.flag 7, busy.params.cost.brbs),
          (.brbc 7 64, !busy.flag 7, busy.params.cost.brbc)] ∧
      (Instr.brbs 1 63, false, (⟨1, 2⟩ : BranchCost)) ∈
        [(.brbs 1 63, busy.flag 1, busy.params.cost.brbs),
          (.brbc 1 63, !busy.flag 1, busy.params.cost.brbc)] :=
  ⟨by decide, ⟨rfl, rfl⟩, by decide, by decide⟩

/-- No skip; a skip with a next word, at the last place that has one; a skip without. -/
theorem witness_SkipsOnRegisters :
    ThisCore busy ∧
      (Instr.sbrc 0 7, false, (⟨1, 2, 3⟩ : SkipCost)) ∈
        [(.cpse 1 2, decide (busy.reg 1 = busy.reg 2), busy.params.cost.cpse),
          (.sbrc 0 7, decide ((busy.reg 0).toNat / 2 ^ 7 % 2 = 0), busy.params.cost.sbrc),
          (.sbrs 0 7, decide ((busy.reg 0).toNat / 2 ^ 7 % 2 = 1), busy.params.cost.sbrs)] ∧
      (Instr.sbrs 0 7, true, (⟨1, 2, 3⟩ : SkipCost)) ∈
        [(.cpse 1 2, decide (busy.reg 1 = busy.reg 2), busy.params.cost.cpse),
          (.sbrc 0 7, decide ((busy.reg 0).toNat / 2 ^ 7 % 2 = 0), busy.params.cost.sbrc),
          (.sbrs 0 7, decide ((busy.reg 0).toNat / 2 ^ 7 % 2 = 1), busy.params.cost.sbrs)] ∧
      62 + 1 < (busy.setPc 62).progWords ∧ (busy.setPc 62).pc = 62 ∧
      (busy.setPc 63).progWords ≤ (busy.setPc 63).pc + 1 :=
  ⟨⟨rfl, rfl⟩, by decide, by decide, by decide, by decide, by decide⟩

theorem witness_SkipsOnIoBits :
    (Instr.sbic 1 0, 0, (⟨1, 2, 3⟩ : SkipCost)) ∈
        [(.sbic 1 0, 0, busy.params.cost.sbic), (.sbis 1 0, 1, busy.params.cost.sbis)] ∧
      (∃ u, memRead 0x21 busy = .next (0xFE, u)) ∧
      (0xFE : Byte).toNat / 2 ^ 0 % 2 = 0 ∧ (0xFE : Byte).toNat / 2 ^ 0 % 2 ≠ 1 ∧
      busy.pc + 1 < busy.progWords ∧ (busy.setPc 63).progWords ≤ (busy.setPc 63).pc + 1 ∧
      ReadPlain busy 32 ∧ ReadPlain busy 63 :=
  ⟨by decide, next_of_byte (by decide), by decide, by decide, by decide, by decide,
    ⟨by decide, by decide⟩, ⟨by decide, by decide⟩⟩

theorem witness_NoOperations :
    Instr.spmZInc ∈ [Instr.nop, .sleep, .brk, .spm, .spmZInc] := by decide

/-- No watchdog; one that moves its event, with which the step completes; one that moves its event
and then reads data, and one that moves that of another handle. -/
theorem witness_WatchdogResetNotifies :
    let moves : State :=
      { busy with
        watchdog := some 8, envIn := [.device (.updateClockEvent 8 50), .ret 0 false] }
    let reads : State :=
      { busy with
        watchdog := some 8, envIn := [.device (.updateClockEvent 8 50)] ++ .readData 0 :: [] }
    let other : State :=
      { busy with watchdog := some 8, envIn := [] ++ .device (.clearClockEvent 7) :: [] }
    busy.watchdog = none ∧
      (moves.watchdog = some 8 ∧
        moves.envIn = [.device (.updateClockEvent 8 50), .ret 0 false] ++ []) ∧
      (∃ t, exec .wdr moves = .next t) ∧
      (reads.watchdog = some 8 ∧ other.watchdog = some 8) ∧
      (∀ v b, EnvAct.readData 0 ≠ .ret v b) ∧
      (∀ rel, EnvAct.device (.clearClockEvent 7) ≠ .device (.updateClockEvent 8 rel)) ∧
      EnvAct.device (.clearClockEvent 7) ≠ .device (.clearClockEvent 8) :=
  ⟨by decide, by decide, next_of_pc (n := 1) (by decide), by decide, nofun, nofun, by decide⟩

theorem witness_UnmatchedWordIsNoOperation :
    let s := coreWith 64 [(63, 0x940B)] 63 []
    let strict := { s with params := { s.params with strictDecode := true } }
    (s.status = .running ∧ s.pc < s.progWords ∧ s.params.strictDecode = false) ∧
      (decode (Cells.read s.prog s.pc) 0 == .error (.unmatched 0x940B)) = true ∧
      strict.status = .running ∧ strict.pc < strict.progWords ∧
      strict.params.strictDecode = true := by decide

theorem witness_DecodeInvertsEncode :
    (Instr.sbiw 30 63).wellFormed = true ∧ (Instr.call 0x3FFFFF).wellFormed = true := by decide

theorem witness_EncodeInvertsDecode :
    decode 0x95FF 0xFFFF = .ok (.call 0x3FFFFF) ∧ decode 0 7 = .ok .nop := ⟨rfl, rfl⟩

/-- A one-word instruction in the last place, a two-word one in the last two, and a first word of two
in the last. -/
theorem witness_StepRunsTheDecodedInstruction :
    let s := busy.setPc 62
    let last := coreWith 64 [(63, 0x940C)] 63 []
    let one := coreWith 64 [(63, 0x0C00)] 63 []
    (s.status = .running ∧ s.pc < s.progWords ∧
        isTwoWord (Cells.read s.prog s.pc) = true ∧ s.pc + 1 < s.progWords ∧
        (decode (Cells.read s.prog s.pc) (Cells.read s.prog (s.pc + 1)) == .ok (.jmp 1)) = true) ∧
      (one.status = .running ∧ one.pc < one.progWords ∧
        isTwoWord (Cells.read one.prog one.pc) = false ∧
        (decode (Cells.read one.prog one.pc) (Cells.read one.prog (one.pc + 1)) ==
          .ok (.add 0 0)) = true) ∧
      (last.status = .running ∧ last.pc < last.progWords ∧
        isTwoWord (Cells.read last.prog last.pc) = true ∧ last.pc + 1 = last.progWords) := by decide

/-- `busy` meets the invariant. -/
theorem busy_inv : CoreInv busy where
  memory := ⟨by decide, by decide⟩
  pc := ⟨busy_legal, by decide⟩
  pending := ⟨by decide, by decide, by decide, by decide⟩
  events := by unfold EventsInv; decide
  hooks := ⟨by decide, by decide⟩

/-- A step of `busy`: `ADD r0, r0`, the callback of handle 7, and the dispatch of vector 2. -/
theorem busy_steps : ∃ t, step busy = .next t := next_of_pc (n := 2) (by decide)

theorem witness_StepKeepsInvariant : CoreInv busy ∧ ∃ t, step busy = .next t :=
  ⟨busy_inv, busy_steps⟩

theorem witness_StepKeepsProgramMemory : ∃ t, step busy = .next t := busy_steps

theorem witness_CyclesAdvanceByCost :
    (∃ t, exec (.sbi 1 0) busyTwice = .next t) ∧ (∃ t, tick busy = .next t) ∧
      busy.params.Legal ∧ ThisCore busy ∧ ∃ t, step busy = .next t :=
  ⟨next_of_pc (n := 1) (by decide), next_of_pc (n := 2) (by decide), busy_legal, ⟨rfl, rfl⟩,
    busy_steps⟩

/-- An instruction that changes I and one that changes T. -/
theorem witness_InterruptFlagWriters :
    (∃ t, exec (.bclr 7) busy = .next t ∧ (t.flag flagI == busy.flag flagI) = false) ∧
      (∃ t, exec (.bst 1 0) busy = .next t ∧ (t.flag flagT == busy.flag flagT) = false) ∧
      readAddress busy (.bst 1 0) = none ∧ storeAddress busy (.bst 1 0) = none ∧
      (∀ r, Instr.bst 1 0 ≠ .push r) ∧ (∀ k, Instr.bst 1 0 ≠ .rcall k) ∧
      Instr.bst 1 0 ≠ .icall ∧ Instr.bst 1 0 ≠ .eicall ∧ (∀ k, Instr.bst 1 0 ≠ .call k) ∧
      Instr.bst 1 0 ≠ .wdr :=
  ⟨next_of_probe (by decide), next_of_probe (by decide), rfl, rfl, nofun, nofun, nofun, nofun, nofun, nofun⟩

/-- An address outside; 31, which has a hook that is not consulted, and 32, which has none; and
0x21, whose hook answers, whose hook acts before it does, whose hook aborts, and whose hook breaks
the contract. -/
theorem witness_MemReadConsultsItsHook :
    let call (acts : List EnvAct) :=
      callEnv .hook (.readHook 1 0x21 100) { busy with envIn := acts }
    busy.dataSize ≤ 2304 ∧ 31 < busy.dataSize ∧
      (32 < busy.dataSize ∧ Table.find busy.readHooks 32 = none) ∧
      (0x21 < busy.dataSize ∧ 31 < 0x21 ∧ Table.find busy.readHooks 0x21 = some 1 ∧
        busy.envIn = .ret 0x1FE false :: [] ∧ busy.cycles = 100) ∧
      (∃ r, call [.writeData 0 7 0xFF, .ret 0x1FE false] = .next r) ∧
      abort (call [.readData 2304]) = some (.dataAddressOutOfRange 2304) ∧
      refusal (call [.forbidden .writePc]) = some .environmentBreaksContract :=
  ⟨by decide, by decide, by decide, by decide,
    (next_of_probe (f := fun r => r.1.value) (v := 0x1FE) (by decide)).imp fun _ h => h.1,
    by decide, by decide⟩

/-- Outside; without a hook; and 0x21, whose hook answers, writes another byte first, writes the
same byte first (which calls it once more), owns the write, aborts, and breaks the contract. -/
theorem witness_MemWriteConsultsItsHook :
    let acting (acts : List EnvAct) : State := { busy with envIn := acts }
    let call (acts : List EnvAct) :=
      callEnv .hook (.writeHook 2 9 (busy.peek 0x21) 0x21 0xFF 100) (acting acts)
    let same : List EnvAct := [.writeData 0x21 7 0xFF, .ret 0 false, .ret 0 true]
    busy.dataSize ≤ 2304 ∧ (2303 < busy.dataSize ∧ Table.find busy.writeHooks 2303 = none) ∧
      (0x21 < busy.dataSize ∧ Table.find busy.writeHooks 0x21 = some 2 ∧
        busy.envIn = .ret 0x1FE false :: [] ∧ busy.cycles = 100) ∧
      (0 < busy.dataSize ∧ Table.find busy.writeHooks 0 = none ∧
        (acting [.writeData 0 7 0xFF, .ret 0 false]).envIn =
          [.writeData 0 7 0xFF, .ret 0 false] ++ []) ∧
      (acting same).envIn = [.writeData 0x21 7 0xFF, .ret 0 false, .ret 0 true] ++ [] ∧
      (∃ r, call same = .next r ∧ r.1.handled = true) ∧
      (∃ r, call [.ret 0 false] = .next r ∧ r.1.handled = false) ∧
      abort (call [.readData 2304]) = some (.dataAddressOutOfRange 2304) ∧
      refusal (call [.forbidden .writePc]) = some .environmentBreaksContract :=
  ⟨by decide, by decide, by decide, by decide, by decide, next_of_probe (by decide),
    next_of_probe (by decide), by decide, by decide⟩

/-- LAT with the read hook alone, with the write hook alone, with both, and at an address below 32;
a load and a store at 0x21. -/
theorem witness_HookSeesCyclesOfItsPhase :
    let reader : State := { busy with writeHooks := [] }
    let writer : State := { busy with readHooks := [] }
    let low : State := { busy.poke 30 31 with writeHooks := [(31, 4)] }
    ThisCore busy ∧
      (0x21 < reader.dataSize ∧ reader.envIn = .ret 0x1FE false :: [] ∧
        readAddress reader (.lat 4) = some 0x21 ∧ 31 < 0x21 ∧
        Table.find reader.readHooks 0x21 = some 1 ∧ Table.find reader.writeHooks 0x21 = none) ∧
      (∃ t, exec (.lat 4) reader = .next t) ∧
      readAddress reader (.ldZInc 4) = some 0x21 ∧ (∃ t, exec (.ldZInc 4) reader = .next t) ∧
      (storeAddress busy (.stZInc 16) = some 0x21 ∧ Table.find busy.writeHooks 0x21 = some 2) ∧
      (∃ t, exec (.stZInc 16) busy = .next t) ∧
      ReadsAndWrites (.lat 4) ∧
      (readAddress writer (.lat 4) = some 0x21 ∧ Table.find writer.readHooks 0x21 = none ∧
        Table.find writer.writeHooks 0x21 = some 2) ∧
      (∃ t, exec (.lat 4) writer = .next t) ∧
      (readAddress low (.lat 4) = some 31 ∧ Table.find low.writeHooks 31 = some 4) ∧
      (∃ t, exec (.lat 4) low = .next t) ∧
      (readAddress busyTwice (.lat 4) = some 0x21 ∧
        busyTwice.envIn = [.ret 4 false, .ret 0 true] ++ []) ∧
      ∃ t, exec (.lat 4) busyTwice = .next t :=
  ⟨⟨rfl, rfl⟩, by decide, next_of_pc (n := 1) (by decide), by decide,
    next_of_pc (n := 1) (by decide), by decide, next_of_pc (n := 1) (by decide), trivial,
    by decide, next_of_pc (n := 1) (by decide), by decide, next_of_pc (n := 1) (by decide),
    by decide, next_of_pc (n := 1) (by decide)⟩

/-- A hook that calls a read hook and in it writes `pc`, at once and in a call; a callback that reads
and then clears the event that is firing. -/
theorem witness_ForbiddenRunsAreRefused :
    let nested : State := { busy with envIn := [.readData 0x21] ++ .forbidden .writePc :: [] }
    refusal (envRun .hook [] [.write 0x21 5] busy) = some .environmentDidNotReturn ∧
      (nested.envIn = [.readData 0x21] ++ .forbidden .writePc :: [] ∧
        refusal (envRun .hook [.readData 0x21] [] (nested.logCall (.readHook 1 0x21 100))) =
          some .environmentDidNotReturn) ∧
      refusal (envRun (.callback 7) [.readData 0] [] busy) = some .environmentDidNotReturn ∧
      refusal (envRun (.callback 7) [.readData 0, .device (.clearClockEvent 7)] [] busy) =
        some .environmentBreaksContract ∧
      ({ busy with status := .aborted (.progAddressOutOfRange 64) } : State).status =
        .aborted (.progAddressOutOfRange 64) := by decide

/-- The last vector of the table and the first beyond it; nothing pending, and something pending. -/
theorem witness_QueueMakesVectorPending :
    (descriptor 127).vector < busy.params.maxVectors ∧ State.reset.lowestPending = none ∧
      busy.lowestPending = some 2 ∧ busy.params.maxVectors ≤ (descriptor 128).vector := by decide

theorem witness_ClearRemovesEntryAndRescans :
    CoreInv busy ∧ (descriptor 2).flagReg < busy.dataSize :=
  ⟨busy_inv, by decide⟩

/-- With the enable bit and without; the flag condition holding and not; a value with the bit and
without. -/
theorem witness_FlagAndEnableOperations :
    let d := descriptor 3
    let off : State := busy.poke 0x37 0
    (d.flagReg < busy.dataSize ∧ d.enableReg < busy.dataSize) ∧
      (busy.poke 0x36 (busy.peek 0x36 ||| 1)).peek d.enableReg &&& d.enableMask ≠ 0 ∧
      (off.poke 0x36 (off.peek 0x36 ||| 1)).peek d.enableReg &&& d.enableMask = 0 ∧
      ((1 : Byte) &&& d.enableMask ≠ 0 ∧
        (busy.peek d.flagReg &&& d.flagMask ≠ 0 ↔ d.inverseFlag = false)) ∧
      ((busy.poke 0x36 0).peek d.flagReg &&& d.flagMask ≠ 0 ↔ d.inverseFlag = true) ∧
      (0 : Byte) &&& d.enableMask = 0 ∧ (1 : Byte) &&& d.flagMask ≠ 0 ∧
      (0 : Byte) &&& d.flagMask = 0 := by decide

theorem witness_InterruptEntry :
    CoreInv busy ∧ busy.flag flagI = true ∧ busy.lowestPending = some 2 ∧
      Table.find busy.pending 2 = some (descriptor 2) ∧ 2 < busy.progWords ∧ PushRoom busy ∧
      (descriptor 2).flagReg < busy.dataSize ∧
      ((descriptor 2).flagReg < 93 ∨ 95 < (descriptor 2).flagReg) ∧
      ∀ n, n < busy.retBytes → busy.sp.toNat - n ≠ (descriptor 2).flagReg ∧
        (busy.sp.toNat - n < 93 ∨ 95 < busy.sp.toNat - n) :=
  ⟨busy_inv, by decide, by decide, by decide, by decide, ⟨by decide, by decide⟩, by decide,
    by decide, by decide⟩

/-- Two vectors pending; one pending, so that none is left; a constant one. -/
theorem witness_LowestVectorTakenFirst :
    let one : State := { busy with pending := [(2, descriptor 2)] }
    let constant : State :=
      { busy with pending := [(2, { descriptor 2 with constant := true })] }
    (CoreInv busy ∧ busy.flag flagI = true ∧ busy.pending ≠ [] ∧
        ∃ t, dispatchInterrupt busy = .next t) ∧
      (∃ t, dispatchInterrupt one = .next t ∧ t.lowestPending = none) ∧
      (∃ t, dispatchInterrupt constant = .next t ∧ t.lowestPending = some 2) ∧
      (descriptor 2).constant = false ∧
      (5, descriptor 5) ∈ busy.pending ∧ (descriptor 2).vector ≠ (descriptor 5).vector :=
  ⟨⟨busy_inv, by decide, by decide, next_of_pc (n := 2) (by decide)⟩, next_of_probe (by decide),
    next_of_probe (by decide), by decide, by decide, by decide⟩

theorem witness_InterruptEnableActsAtOnce :
    busy.lowestPending = some 2 ∧ Table.find busy.pending 2 = some (descriptor 2) ∧
      (∃ t, exec (.bset 7) busy = .next t) ∧
      (∃ t, exec .reti (busy.setSp 0x8FD) = .next t) ∧ ∃ t, exec (.bclr 7) busy = .next t :=
  ⟨by decide, by decide, next_of_pc (n := 1) (by decide), next_of_pc (n := 0) (by decide),
    next_of_pc (n := 1) (by decide)⟩

/-- An event one cycle ahead; I clear; and a vector at the end of program memory. -/
theorem witness_IdleTickAndBadVector :
    let idle : State := { busy.setFlag flagI false with events := [⟨101, 7⟩] }
    let bad : State :=
      { busy with events := [], pending := [(64, descriptor 64)], lowestPending := some 64 }
    (idle.status = .running ∧ (∀ e ∈ idle.events.head?, idle.cycles < e.target) ∧
        idle.flag flagI = false) ∧
      (bad.status = .running ∧ bad.events.head? = none ∧ bad.flag flagI = true ∧
        bad.lowestPending = some 64 ∧ Table.find bad.pending 64 = some (descriptor 64) ∧
        bad.progWords ≤ (descriptor 64).vector) := by decide

/-- A handle that has no event, and one whose event is not the first. -/
theorem witness_SchedulerListOperations :
    (∀ x ∈ busy.events, x.handle ≠ 9) ∧
      (busy.events = [⟨100, 7⟩] ++ ⟨300, 8⟩ :: [] ∧ (⟨300, 8⟩ : Event).handle = 8 ∧
        ∀ x ∈ ([⟨100, 7⟩] : List Event), x.handle ≠ 8) := by decide

/-- No events; a head one cycle ahead; a head that is just due, with a callback that returns, one that
adds its event again first, one that aborts, and one that breaks its contract. -/
theorem witness_OneDueEventPerTick :
    let call (acts : List EnvAct) :=
      callEnv (.callback 7) (.callback 7 100)
        { busy with events := [⟨300, 8⟩], envIn := acts }
    State.reset.events = [] ∧
      (({ busy with cycles := 99 } : State).events = ⟨100, 7⟩ :: [⟨300, 8⟩] ∧
        ({ busy with cycles := 99 } : State).cycles < (⟨100, 7⟩ : Event).target) ∧
      (busy.events = ⟨100, 7⟩ :: [⟨300, 8⟩] ∧ (⟨100, 7⟩ : Event).target ≤ busy.cycles ∧
        busy.envIn = .ret 0x1FE false :: []) ∧
      (∃ t, serviceEvent busy = .next t) ∧
      (∃ r, call [.device (.addClockEvent 7 50), .ret 0 false] = .next r ∧
        r.2.events = [⟨150, 7⟩, ⟨300, 8⟩]) ∧
      abort (call [.readData 2304]) = some (.dataAddressOutOfRange 2304) ∧
      refusal (call [.device (.clearClockEvent 7)]) = some .environmentBreaksContract :=
  ⟨rfl, by decide, by decide, next_of_pc (n := 0) (by decide), next_of_probe (by decide),
    by decide, by decide⟩

theorem witness_ResetKeepsMemoryAndCycles : busy.status = .running := by decide

/-- The least `MAX_VECTORS` and a data space beyond 65536 bytes, with everything else given too; one
vector less, and an instruction without a cycle. -/
theorem witness_ConstructedCore :
    let o : Options :=
      { maxVectors := 128, strictDecode := true, cost := { sbi := 1 },
        phase := { out := .before }, initData := [1, 2] }
    let free : Options := { cost := { sbis := ⟨1, 2, 0⟩ } }
    1 ≤ ([0x940C] : List Word).length ∧ ([0x940C] : List Word).length ≤ 2 ^ 22 ∧
      128 ≤ o.maxVectors ∧ o.cost.Positive ∧
      probe (constructWith (.words [0x940C]) 0x10000 o) (fun t =>
        (t.params.cost.sbi, t.params.phase.out, t.peek 1, t.dataSize)) =
        some (1, .before, 2, 0x10100) ∧
      ({ maxVectors := 127 } : Options).maxVectors < 128 ∧ ¬ free.cost.Positive ∧
      abort (constructWith (.words [0x940C]) 2048 free) = some (.configError .costBelowOne) :=
  ⟨by decide, by decide, by decide, by decide, by decide, by decide, by decide, by decide⟩

/-- The ends of the data space, the last place of a 16-bit value, and the first two without one: one
byte outside, and both. -/
theorem witness_SixteenBitValuesAreTwoBytes :
    WritePlain busy 93 ∧ WritePlain busy 94 ∧
      (0 + 1 < busy.dataSize ∧ 2302 + 1 < busy.dataSize) ∧
      (busy.dataSize ≤ 2303 + 1 ∧ 2303 < busy.dataSize) ∧
      (busy.dataSize ≤ 2304 + 1 ∧ busy.dataSize ≤ 2304) :=
  ⟨⟨by decide, by decide⟩, ⟨by decide, by decide⟩, by decide, by decide, by decide⟩

end Sys2Proof.Tests
end

section
/-!
PROOF. Every step keeps the invariant of the core (spec R18, R24, R27, R330).
-/

namespace Sys2Proof.Machine

variable {s t : State}

/-! ## The halves of a turn: what each can do (spec R88, R320, R321) -/

theorem whenRunning_eq_next {α : Type} {f : State → Res α} {r : α} :
    whenRunning s f = .next r ↔ s.status = .running ∧ f s = .next r := by
  unfold whenRunning
  split <;> simp_all

/-- The decoder rejects a word only because no row of R77 selects it. -/
theorem decode_ne_truncated (w k : Word) : decode w k ≠ .error .truncated := by
  intro h
  obtain ⟨-, h⟩ := decode_eq_error.1 h
  cases h

theorem fetch_ne_truncated : fetch s ≠ .next (.error .truncated) := by
  intro h
  obtain ⟨op, -, h⟩ := andThen_eq_next.1 h
  split at h
  · obtain ⟨k, -, h⟩ := andThen_eq_next.1 h
    exact decode_ne_truncated op k (Host.Outcome.next.inj h)
  · exact decode_ne_truncated op 0 (Host.Outcome.next.inj h)

/-- `step()` runs one instruction, or the no-op of a word that matches no row (spec R88, R229). -/
theorem stepInstr_cases (h : stepInstr s = .next t) :
    s.status = .running ∧ ((∃ i, exec i s = .next t) ∨ ∃ op, execUnmatched op s = .next t) := by
  obtain ⟨hr, h⟩ := whenRunning_eq_next.1 h
  obtain ⟨d, hd, h⟩ := andThen_eq_next.1 h
  refine ⟨hr, ?_⟩
  match d, hd, h with
  | .ok i, _, h => exact .inl ⟨i, h⟩
  | .error (.unmatched op), _, h => exact .inr ⟨op, h⟩
  | .error .truncated, hd, _ => exact (fetch_ne_truncated hd).elim

theorem execUnmatched_eq_next {op : Word} (h : execUnmatched op s = .next t) :
    t = s.advance 1 s.params.cost.unmatched := by
  unfold execUnmatched at h
  split at h <;> cases h
  rfl

/-- `service_event()` does nothing, or takes the head off the list and calls its callback
(spec R334). -/
theorem serviceEvent_cases (h : serviceEvent s = .next t) :
    t = s ∨ ∃ e rest r, s.events = e :: rest ∧
      callEnv (.callback e.handle) (.callback e.handle s.cycles) { s with events := rest } =
        .next (r, t) := by
  unfold serviceEvent at h
  split at h
  · cases h; exact .inl rfl
  · rename_i e rest he
    split at h
    · obtain ⟨r, hr, h⟩ := andThen_eq_next.1 h
      cases h
      exact .inr ⟨e, rest, r.1, he, hr⟩
    · cases h; exact .inl rfl

/-- `dispatch()` does nothing, or takes an interrupt (spec R317). -/
theorem dispatchInterrupt_cases (h : dispatchInterrupt s = .next t) :
    t = s ∨ ∃ d, takeInterrupt d s = .next t := by
  unfold dispatchInterrupt at h
  split at h
  · split at h
    · cases h; exact .inl rfl
    · split at h
      · cases h; exact .inl rfl
      · exact .inr ⟨_, h⟩
  · cases h; exact .inl rfl

/-- `tick()` serves the clock events, then dispatches (spec R320). -/
theorem tick_cases (h : tick s = .next t) :
    s.status = .running ∧ ∃ u, serviceEvent s = .next u ∧ dispatchInterrupt u = .next t := by
  obtain ⟨hr, h⟩ := whenRunning_eq_next.1 h
  exact ⟨hr, andThen_eq_next.1 h⟩

/-! ## The tails of the instruction families keep the invariant -/

theorem CoreInv.writeResult (h : CoreInv s) {n : Nat} {d : Reg} {v : Byte} {f : Byte → Byte}
    (hw : writeResult n d v f s = .next t) : CoreInv t := by
  cases hw; exact ((h.setReg d v).updateSreg f).advance 1 n

theorem CoreInv.writeFlags (h : CoreInv s) {n : Nat} {f : Byte → Byte}
    (hw : writeFlags n f s = .next t) : CoreInv t := by
  cases hw; exact (h.updateSreg f).advance 1 n

theorem CoreInv.writePair (h : CoreInv s) {n : Nat} {p : Reg} {v : Word} {f : Byte → Byte}
    (hw : writePair n p v f s = .next t) : CoreInv t := by
  cases hw; exact ((h.setRegPair p v).updateSreg f).advance 1 n

theorem CoreInv.writeProduct (h : CoreInv s) {n : Nat} {P : Int}
    (hw : writeProduct n P s = .next t) : CoreInv t := by
  cases hw; exact ((h.setRegPair 0 _).updateSreg _).advance 1 n

theorem CoreInv.writeFractional (h : CoreInv s) {n : Nat} {P : Int}
    (hw : writeFractional n P s = .next t) : CoreInv t := by
  cases hw; exact ((h.setRegPair 0 _).updateSreg _).advance 1 n

theorem CoreInv.modifyIo (h : CoreInv s) {p : ReadWritePhase} {n : Nat} {a : Fin 32} {b : BitNo}
    {f : Byte → Byte} (hm : modifyIo p n a b f s = .next t) : CoreInv t := by
  obtain ⟨r, hr, hm⟩ := andThen_eq_next.1 hm
  cases hm
  exact (h.readWrite hr).advance 1 _

theorem CoreInv.branch (h : CoreInv s) {c : BranchCost} {taken : Bool} {k : BitVec 7}
    (hb : branch c taken k s = .next t) : CoreInv t := by
  cases hb
  split
  · exact h.jump _ _
  · exact h.advance _ _

/-! ## Every instruction keeps the invariant -/

theorem CoreInv.exec (h : CoreInv s) {i : Instr} (he : exec i s = .next t) : CoreInv t := by
  cases i with
  | add | adc | sub | subi | sbc | sbci | neg | inc | dec | and | andi | or | ori | eor | com
  | lsr | ror | asr => exact h.writeResult he
  | cp | cpc | cpi => exact h.writeFlags he
  | adiw | sbiw => exact h.writePair he
  | mul | muls | mulsu => exact h.writeProduct he
  | fmul | fmuls | fmulsu => exact h.writeFractional he
  | bset | bclr | bst => cases he; exact (h.setFlag _ _).advance _ _
  | swap | bld | mov | ldi => cases he; exact (h.setReg _ _).advance _ _
  | movw => cases he; exact (h.setRegPair _ _).advance _ _
  | sbi | cbi => exact h.modifyIo he
  | inp | lds | ldX | lddZ => exact h.load (fun _ hu => hu) he
  | lddY => exact h.load (fun _ hu => hu) (atDisplaced_eq_next.1 he).2
  | ldXInc => exact h.load (fun _ hu => hu.setX _) he
  | ldYInc => exact h.load (fun _ hu => hu.setY _) he
  | ldZInc => exact h.load (fun _ hu => hu.setZ _) he
  | ldXDec => exact (h.setX _).load (fun _ hu => hu) he
  | ldYDec => exact (h.setY _).load (fun _ hu => hu) he
  | ldZDec => exact (h.setZ _).load (fun _ hu => hu) he
  | out | sts | stX | stdZ => exact h.store (fun _ hu => hu) he
  | stdY => exact h.store (fun _ hu => hu) (atDisplaced_eq_next.1 he).2
  | stXInc => exact h.store (fun _ hu => hu.setX _) he
  | stYInc => exact h.store (fun _ hu => hu.setY _) he
  | stZInc => exact h.store (fun _ hu => hu.setZ _) he
  | stXDec => exact (h.setX _).store (fun _ hu => hu) he
  | stYDec => exact (h.setY _).store (fun _ hu => hu) he
  | stZDec => exact (h.setZ _).store (fun _ hu => hu) he
  | xch | las | lac | lat => unfold Machine.exec at he; exact h.exchangeZ he
  | push =>
    unfold Machine.exec at he
    obtain ⟨u, hu, he⟩ := andThen_eq_next.1 he
    cases he; exact (h.pushByte hu).advance _ _
  | pop =>
    unfold Machine.exec at he
    obtain ⟨r, hr, he⟩ := andThen_eq_next.1 he
    cases he; exact ((h.popByte hr).setReg _ _).advance _ _
  | lpmR0 | lpmZ | elpmR0 | elpmZ =>
    obtain ⟨v, -, he⟩ := andThen_eq_next.1 he
    cases he; exact (h.setReg _ _).advance _ _
  | lpmZInc =>
    obtain ⟨v, -, he⟩ := andThen_eq_next.1 he
    cases he; exact ((h.setReg _ _).setZ _).advance _ _
  | elpmZInc =>
    obtain ⟨v, -, he⟩ := andThen_eq_next.1 he
    cases he; exact ((h.setReg _ _).setElpmAddress _).advance _ _
  | spm | spmZInc | nop | sleep | brk => cases he; exact h.advance _ _
  | rjmp | ijmp | eijmp | jmp => cases he; exact h.jump _ _
  | rcall | icall | eicall | call =>
    unfold Machine.exec at he
    obtain ⟨u, hu, he⟩ := andThen_eq_next.1 he
    cases he; exact (h.pushRet hu).jump _ _
  | ret =>
    unfold Machine.exec at he
    obtain ⟨r, hr, he⟩ := andThen_eq_next.1 he
    cases he; exact (h.popRet hr).jump _ _
  | reti =>
    unfold Machine.exec at he
    obtain ⟨u, hu, he⟩ := andThen_eq_next.1 he
    cases he; exact (h.returnFromInterrupt hu).addCycles _
  | brbs | brbc => exact h.branch he
  | cpse | sbrc | sbrs => exact h.skip he
  | sbic | sbis =>
    obtain ⟨r, hr, he⟩ := andThen_eq_next.1 he
    exact (h.memRead hr).skip he
  | wdr =>
    obtain ⟨u, hu, he⟩ := andThen_eq_next.1 he
    cases he; exact (h.notifyWatchdog hu).advance _ _

/-! ## Every step keeps the invariant -/

theorem CoreInv.stepInstr (h : CoreInv s) (hs : stepInstr s = .next t) : CoreInv t := by
  obtain ⟨-, ⟨i, he⟩ | ⟨op, hu⟩⟩ := stepInstr_cases hs
  · exact h.exec he
  · rw [execUnmatched_eq_next hu]
    exact h.advance _ _

theorem CoreInv.serviceEvent (h : CoreInv s) (hs : serviceEvent s = .next t) : CoreInv t := by
  obtain rfl | ⟨e, rest, r, he, hc⟩ := serviceEvent_cases hs
  · exact h
  · have hev : (e :: rest).Pairwise fun a b => a.target ≤ b.target := he ▸ h.events
    exact (h.withEvents hev.of_cons).callEnv hc

theorem CoreInv.dispatchInterrupt (h : CoreInv s) (hd : dispatchInterrupt s = .next t) :
    CoreInv t := by
  obtain rfl | ⟨d, hd⟩ := dispatchInterrupt_cases hd
  · exact h
  · exact h.takeInterrupt hd

theorem CoreInv.tick (h : CoreInv s) (ht : tick s = .next t) : CoreInv t := by
  obtain ⟨-, u, hu, ht⟩ := tick_cases ht
  exact (h.serviceEvent hu).dispatchInterrupt ht

/-- Settles O40: `CoreInv` is kept by the instruction half of the step and by its tick. -/
theorem stepKeepsInvariant : Obligations.StepKeepsInvariant := by
  intro s t h hs
  obtain ⟨u, hu, ht⟩ := andThen_eq_next.1 hs
  exact (h.stepInstr hu).tick ht

end Sys2Proof.Machine
end

section
/-!
PROOF. The cycles of a step are entries of `COST`, and a step leaves the parameters, program memory,
the run status and the watchdog alone (spec R20, R21, R60, R372).
-/

namespace Sys2Proof.Machine

variable {s t u : State}

/-! ## Cycles that pass while the core is otherwise the same -/

/-- `n` cycles pass from `s` to `t`; what no instruction and no environment may change is as
before. -/
structure Spends (s t : State) (n : Nat) : Prop where
  params : t.params = s.params
  prog : t.prog = s.prog
  status : t.status = s.status
  watchdog : t.watchdog = s.watchdog
  cycles : t.cycles = s.cycles + n

theorem KeepsCore.spends (h : KeepsCore s t) : Spends s t 0 :=
  ⟨h.params, h.prog, h.status, h.watchdog, h.cycles⟩

theorem Spends.trans {m n : Nat} (h : Spends s t m) (k : Spends t u n) : Spends s u (m + n) :=
  ⟨k.params.trans h.params, k.prog.trans h.prog, k.status.trans h.status,
    k.watchdog.trans h.watchdog, by rw [k.cycles, h.cycles, Nat.add_assoc]⟩

theorem Spends.addCycles (s : State) (n : Nat) : Spends s (s.addCycles n) n :=
  ⟨rfl, rfl, rfl, rfl, rfl⟩

theorem Spends.jump (s : State) (k : Int) (n : Nat) : Spends s (s.jump k n) n :=
  ⟨rfl, rfl, rfl, rfl, rfl⟩

theorem Spends.advance (s : State) (w n : Nat) : Spends s (s.advance w n) n := .jump s _ n

theorem KeepsCore.setPair (s : State) (a : Nat) (v : Word) : KeepsCore s (s.setPair a v) :=
  (KeepsCore.poke s _ _).trans (.poke _ _ _)

theorem KeepsCore.trans_spends {n : Nat} (h : KeepsCore s t) (k : Spends t u n) :
    Spends s u n := by
  simpa using h.spends.trans k

theorem KeepsCore.setElpmAddress (e : Nat) (s : State) : KeepsCore s (setElpmAddress e s) :=
  (KeepsCore.setPair s _ _).trans (.poke _ _ _)

/-- An operation that keeps the core, then the end of an instruction that transfers control. -/
theorem KeepsCore.jump (h : KeepsCore s t) (k : Int) (n : Nat) : Spends s (t.jump k n) n :=
  h.trans_spends (.jump t k n)

theorem KeepsCore.advance (h : KeepsCore s t) (w n : Nat) : Spends s (t.advance w n) n :=
  h.jump _ n

theorem writeResult_spends {n : Nat} {d : Reg} {v : Byte} {f : Byte → Byte}
    (h : writeResult n d v f s = .next t) : Spends s t n := by
  cases h; exact ((KeepsCore.poke s d.val v).trans (.poke _ _ _)).advance 1 n

theorem writeFlags_spends {n : Nat} {f : Byte → Byte} (h : writeFlags n f s = .next t) :
    Spends s t n := by
  cases h; exact (KeepsCore.poke s _ _).advance 1 n

theorem writePair_spends {n : Nat} {p : Reg} {v : Word} {f : Byte → Byte}
    (h : writePair n p v f s = .next t) : Spends s t n := by
  cases h; exact ((KeepsCore.setPair s p.val v).trans (.poke _ _ _)).advance 1 n

theorem writeProduct_spends {n : Nat} {P : Int} (h : writeProduct n P s = .next t) :
    Spends s t n := by
  cases h; exact ((KeepsCore.setPair s 0 _).trans (.poke _ _ _)).advance 1 n

theorem writeFractional_spends {n : Nat} {P : Int} (h : writeFractional n P s = .next t) :
    Spends s t n := by
  cases h; exact ((KeepsCore.setPair s 0 _).trans (.poke _ _ _)).advance 1 n

/-! ## The shared operations -/

theorem load_spends {p : Phase} {n w : Nat} {d : Reg} {a : Nat} {f : State → State}
    (hf : ∀ u, KeepsCore u (f u)) (h : load p n w d a f s = .next t) : Spends s t n := by
  obtain ⟨r, hr, h⟩ := andThen_eq_next.1 h
  cases h
  have hk : KeepsCore (s.addCycles (early p n)) (f (r.2.setReg d r.1)) :=
    ((memRead_keeps hr).trans (.poke _ _ _)).trans (hf _)
  simpa [early_add] using (Spends.addCycles s _).trans (hk.advance w (n - early p n))

theorem store_spends {p : Phase} {n w a : Nat} {v : Byte} {f : State → State}
    (hf : ∀ u, KeepsCore u (f u)) (h : store p n w a v f s = .next t) : Spends s t n := by
  obtain ⟨u, hu, h⟩ := andThen_eq_next.1 h
  cases h
  have hk := (memWrite_keeps hu).trans (hf _)
  simpa [early_add] using (Spends.addCycles s _).trans (hk.advance w (n - early p n))

/-- The cycles of a read and write that are not left for after both (spec R373). -/
theorem readWrite_spends {p : ReadWritePhase} {n a : Nat} {f : Byte → State → Byte} {m : Byte}
    {r : Byte × State} (h : readWrite p n a f m s = .next r) :
    Spends s r.2 (earlyRead p n + earlyWrite p n) := by
  obtain ⟨q, hq, h⟩ := andThen_eq_next.1 h
  obtain ⟨u, hu, h⟩ := andThen_eq_next.1 h
  cases h
  have h1 := (Spends.addCycles s _).trans (memRead_keeps hq).spends
  have h2 := (Spends.addCycles q.2 _).trans (memWrite_keeps hu).spends
  exact h1.trans h2

theorem exchangeZ_spends {p : ReadWritePhase} {n : Nat} {d : Reg} {f : Byte → Byte → Byte}
    (h : exchangeZ p n d f s = .next t) : Spends s t n := by
  obtain ⟨r, hr, h⟩ := andThen_eq_next.1 h
  cases h
  have hk : KeepsCore r.2 (r.2.setReg d r.1) := .poke _ _ _
  simpa [earlyRead_add] using (readWrite_spends hr).trans (hk.advance 1 (lateCycles p n))

theorem modifyIo_spends {p : ReadWritePhase} {n : Nat} {a : Fin 32} {b : BitNo} {f : Byte → Byte}
    (h : modifyIo p n a b f s = .next t) : Spends s t n := by
  obtain ⟨r, hr, h⟩ := andThen_eq_next.1 h
  cases h
  simpa [earlyRead_add] using (readWrite_spends hr).trans (.advance r.2 1 (lateCycles p n))

theorem popByte_keeps {r : Byte × State} (h : popByte s = .next r) : KeepsCore s r.2 := by
  unfold popByte at h
  simp only at h
  obtain ⟨v, -, h⟩ := andThen_eq_next.1 h
  cases h
  exact .setPair _ _ _

theorem popRet_keeps {r : Nat × State} (h : popRet s = .next r) : KeepsCore s r.2 := by
  rw [popRet_state h]
  exact .setPair _ _ _

theorem returnFromInterrupt_spends (h : returnFromInterrupt s = .next t) : Spends s t 0 := by
  obtain ⟨r, hr, h⟩ := andThen_eq_next.1 h
  cases h
  exact (popRet_keeps hr).trans_spends ⟨rfl, rfl, rfl, rfl, rfl⟩

/-- A skip goes on by some words at one of the skip's costs (spec R215). -/
theorem skip_eq_next {c : SkipCost} {b : Bool} (h : skip c b s = .next t) :
    ∃ w, ∃ n ∈ [c.noSkip, c.oneWord, c.twoWords], t = s.advance w n := by
  unfold skip at h
  split at h
  · obtain ⟨nxt, -, h⟩ := andThen_eq_next.1 h
    cases h
    refine ⟨_, _, ?_, rfl⟩
    split <;> simp [skipCost]
  · cases h
    exact ⟨1, c.noSkip, by simp, rfl⟩

theorem skip_spends {c : SkipCost} {b : Bool} (h : skip c b s = .next t) :
    ∃ n ∈ [c.noSkip, c.oneWord, c.twoWords], Spends s t n := by
  obtain ⟨w, n, hn, rfl⟩ := skip_eq_next h
  exact ⟨n, hn, .advance s w n⟩

theorem branch_spends {c : BranchCost} {taken : Bool} {k : BitVec 7}
    (h : branch c taken k s = .next t) : ∃ n ∈ [c.notTaken, c.taken], Spends s t n := by
  cases h
  split
  · exact ⟨_, by simp [branchCost], .jump _ _ _⟩
  · exact ⟨_, by simp [branchCost], .advance _ _ _⟩

/-! ## An instruction spends one of its entries of `COST` -/

theorem Spends.own {i : Instr} {n : Nat} (h : Spends s t n) (hn : costOf s i = n) :
    ∃ n ∈ costOf s i :: extraCosts s i, Spends s t n :=
  ⟨n, hn ▸ List.mem_cons_self, h⟩

/-- An instruction that completes has spent an entry of its own, whatever the environment did in it
and wherever `HOOK_PHASE` placed the cycles. -/
theorem exec_spends {i : Instr} (h : exec i s = .next t) :
    ∃ n ∈ costOf s i :: extraCosts s i, Spends s t n := by
  cases i with
  | add | adc | sub | subi | sbc | sbci | neg | inc | dec | and | andi | or | ori | eor | com
  | lsr | ror | asr => exact (writeResult_spends h).own rfl
  | cp | cpc | cpi => exact (writeFlags_spends h).own rfl
  | adiw | sbiw => exact (writePair_spends h).own rfl
  | mul | muls | mulsu => exact (writeProduct_spends h).own rfl
  | fmul | fmuls | fmulsu => exact (writeFractional_spends h).own rfl
  | swap | bset | bclr | bst | bld | mov | ldi =>
    cases h; exact ((KeepsCore.poke s _ _).advance 1 _).own rfl
  | movw => cases h; exact ((KeepsCore.setPair s _ _).advance 1 _).own rfl
  | spm | spmZInc | nop | sleep | brk => cases h; exact (Spends.advance s 1 _).own rfl
  | rjmp | ijmp | eijmp | jmp => cases h; exact (Spends.jump s _ _).own rfl
  | sbi | cbi => exact (modifyIo_spends h).own rfl
  | inp | lds | ldX | lddZ => exact (load_spends .refl h).own rfl
  | lddY => exact (load_spends .refl (atDisplaced_eq_next.1 h).2).own rfl
  | ldXInc | ldYInc | ldZInc => exact (load_spends (fun u => .setPair u _ _) h).own rfl
  | ldXDec | ldYDec | ldZDec =>
    exact ((KeepsCore.setPair s _ _).trans_spends (load_spends .refl h)).own rfl
  | out | sts | stX | stdZ => exact (store_spends .refl h).own rfl
  | stdY => exact (store_spends .refl (atDisplaced_eq_next.1 h).2).own rfl
  | stXInc | stYInc | stZInc => exact (store_spends (fun u => .setPair u _ _) h).own rfl
  | stXDec | stYDec | stZDec =>
    exact ((KeepsCore.setPair s _ _).trans_spends (store_spends .refl h)).own rfl
  | xch | las | lac | lat => unfold exec at h; exact (exchangeZ_spends h).own rfl
  | lpmR0 | lpmZ | elpmR0 | elpmZ =>
    obtain ⟨v, -, h⟩ := andThen_eq_next.1 h
    cases h; exact ((KeepsCore.poke s _ _).advance 1 _).own rfl
  | lpmZInc =>
    obtain ⟨v, -, h⟩ := andThen_eq_next.1 h
    cases h; exact (((KeepsCore.poke s _ _).trans (.setPair _ _ _)).advance 1 _).own rfl
  | elpmZInc =>
    obtain ⟨v, -, h⟩ := andThen_eq_next.1 h
    cases h
    exact (((KeepsCore.poke s _ _).trans (.setElpmAddress _ _)).advance 1 _).own rfl
  | push =>
    unfold exec at h
    obtain ⟨u, hu, h⟩ := andThen_eq_next.1 h
    cases h; exact ((pushByte_keeps hu).advance 1 _).own rfl
  | pop =>
    unfold exec at h
    obtain ⟨r, hr, h⟩ := andThen_eq_next.1 h
    cases h; exact (((popByte_keeps hr).trans (.poke _ _ _)).advance 1 _).own rfl
  | rcall | icall | eicall | call =>
    unfold exec at h
    obtain ⟨u, hu, h⟩ := andThen_eq_next.1 h
    cases h; exact ((pushRet_keeps hu).jump _ _).own rfl
  | ret =>
    unfold exec at h
    obtain ⟨r, hr, h⟩ := andThen_eq_next.1 h
    cases h; exact ((popRet_keeps hr).jump _ _).own rfl
  | reti =>
    unfold exec at h
    obtain ⟨u, hu, h⟩ := andThen_eq_next.1 h
    cases h
    exact ((returnFromInterrupt_spends hu).trans (.addCycles u _)).own (Nat.zero_add _).symm
  | wdr =>
    obtain ⟨u, hu, h⟩ := andThen_eq_next.1 h
    cases h; exact ((notifyWatchdog_keeps hu).advance 1 _).own rfl
  | brbs | brbc => exact branch_spends h
  | cpse | sbrc | sbrs => exact skip_spends h
  | sbic | sbis =>
    obtain ⟨r, hr, h⟩ := andThen_eq_next.1 h
    obtain ⟨n, hn, hs⟩ := skip_spends h
    exact ⟨n, hn, (memRead_keeps hr).trans_spends hs⟩

/-! ## The bounds of `COST` (spec R20, R372) -/

theorem standard_cost_positive : CostTable.standard.Positive := by decide

/-- With the table of R372 no instruction takes more than 5 cycles. -/
theorem costOf_le_five (h : s.params.cost = .standard) (i : Instr) :
    ∀ n ∈ costOf s i :: extraCosts s i, n ≤ 5 := by
  cases i with
  | rcall | icall | eicall | call | ret | reti =>
    simp only [costOf, extraCosts, callCost, h]
    split <;> decide
  | _ => simp only [costOf, extraCosts, h]; decide

/-! ## The halves of a turn -/

/-- `step()` spends an entry of its instruction, or that of an unmatched word. -/
theorem stepInstr_spends (h : stepInstr s = .next t) :
    s.status = .running ∧ ∃ n, Spends s t n ∧
      ((∃ i, n ∈ costOf s i :: extraCosts s i) ∨ n = s.params.cost.unmatched) := by
  obtain ⟨hr, ⟨i, he⟩ | ⟨op, hu⟩⟩ := stepInstr_cases h
  · obtain ⟨n, hn, hs⟩ := exec_spends he
    exact ⟨hr, n, hs, .inl ⟨i, hn⟩⟩
  · rw [execUnmatched_eq_next hu]
    exact ⟨hr, _, .advance s 1 _, .inr rfl⟩

theorem stepInstr_cycles_pos (hp : s.params.cost.Positive) (h : stepInstr s = .next t) :
    s.cycles + 1 ≤ t.cycles := by
  obtain ⟨-, n, hs, hn⟩ := stepInstr_spends h
  have hn : 1 ≤ n := by
    obtain ⟨i, hi⟩ | rfl := hn
    · exact costOf_pos hp i n hi
    · exact hp _ (by simp [CostTable.entries, ProgramSystemCost.entries])
  have := hs.cycles
  omega

theorem stepInstr_cycles_le (hc : s.params.cost = .standard) (h : stepInstr s = .next t) :
    t.cycles ≤ s.cycles + 5 := by
  obtain ⟨-, n, hs, hn⟩ := stepInstr_spends h
  have hn : n ≤ 5 := by
    obtain ⟨i, hi⟩ | rfl := hn
    · exact costOf_le_five hc i n hi
    · rw [hc]; decide
  have := hs.cycles
  omega

theorem serviceEvent_keeps (h : serviceEvent s = .next t) : KeepsCore s t := by
  obtain rfl | ⟨e, rest, r, -, hc⟩ := serviceEvent_cases h
  · exact .refl t
  · have hk : KeepsCore s { s with events := rest } := ⟨rfl, rfl, rfl, rfl, rfl, rfl⟩
    exact hk.trans (callEnv_keeps hc)

theorem takeInterrupt_spends {d : Descriptor} (h : takeInterrupt d s = .next t) :
    Spends s t s.params.cost.dispatch := by
  unfold takeInterrupt at h
  split at h
  · obtain ⟨s1, h1, h⟩ := andThen_eq_next.1 h
    have hs : Spends s1 (((s1.setFlag flagI false).addCycles s.params.cost.dispatch).setPc d.vector)
        s.params.cost.dispatch := ⟨rfl, rfl, rfl, rfl, rfl⟩
    dsimp only at h
    split at h
    · cases h; exact (pushRet_keeps h1).trans_spends hs
    · exact ((pushRet_keeps h1).trans_spends hs).trans (clearInterrupt_keeps h).spends
  · cases h

/-- `tick()` spends nothing, or the entry of the dispatch (spec R317, R320). -/
theorem tick_spends (h : tick s = .next t) :
    ∃ n, (n = 0 ∨ n = s.params.cost.dispatch) ∧ Spends s t n := by
  obtain ⟨-, u, hu, h⟩ := tick_cases h
  have hk := serviceEvent_keeps hu
  obtain rfl | ⟨d, hd⟩ := dispatchInterrupt_cases h
  · exact ⟨0, .inl rfl, hk.spends⟩
  · have hs := hk.trans_spends (takeInterrupt_spends hd)
    exact ⟨_, .inr (by rw [hk.params]), hs⟩

theorem tick_cycles (h : tick s = .next t) :
    t.cycles = s.cycles ∨ t.cycles = s.cycles + s.params.cost.dispatch := by
  obtain ⟨n, rfl | rfl, hs⟩ := tick_spends h
  · exact .inl hs.cycles
  · exact .inr hs.cycles

/-! ## The statements -/

/-- Settles O42: both halves of a step spend cycles and leave the rest of `Spends` alone. -/
theorem stepKeepsProgramMemory : Obligations.StepKeepsProgramMemory := by
  intro s t h
  obtain ⟨u, hu, ht⟩ := andThen_eq_next.1 h
  obtain ⟨hr, m, h1, -⟩ := stepInstr_spends hu
  obtain ⟨n, -, h2⟩ := tick_spends ht
  have hs := h1.trans h2
  exact ⟨hs.prog, hs.params, hs.status.trans hr, hs.watchdog⟩

/-- Settles O43: `exec_spends` and `tick_cycles`, with the bounds of the entries of `COST`. -/
theorem cyclesAdvanceByCost : Obligations.CyclesAdvanceByCost := by
  refine ⟨fun s i t h => ?_, fun s t h => tick_cycles h, fun s t hl h => ?_, fun s t hc h => ?_⟩
  · obtain ⟨n, hn, hs⟩ := exec_spends h
    exact ⟨n, hn, hs.cycles⟩
  · obtain ⟨u, hu, ht⟩ := andThen_eq_next.1 h
    have h1 := stepInstr_cycles_pos hl.cost hu
    have h2 := tick_cycles ht
    omega
  · obtain ⟨u, hu, ht⟩ := andThen_eq_next.1 h
    obtain ⟨-, m, hs, -⟩ := stepInstr_spends hu
    have hd : u.params.cost.dispatch = 2 := by rw [hs.params, hc.cost]; rfl
    have hp : s.params.cost.Positive := hc.cost ▸ standard_cost_positive
    exact ⟨u, hu, stepInstr_cycles_pos hp hu, stepInstr_cycles_le hc.cost hu, hd ▸ tick_cycles ht⟩

end Sys2Proof.Machine
end

section
/-!
PROOF. Which instructions change the flags I and T (spec R15): those without a data-space access
reach SREG only through their flag computation.
-/

namespace Sys2Proof.Machine

variable {s t : State}

/-! ## Flag computations leave T and I alone (spec R14, R15) -/

theorem bit_putSVNZ_high {v n z : Bool} {g : Byte} {j : Nat} (hj : 6 ≤ j) :
    bit (putSVNZ v n z g) j = bit g j := by
  rw [bit_putSVNZ, if_neg (by omega), if_neg (by omega), if_neg (by omega), if_neg (by omega)]

theorem bit_putBit_high {v : Byte} {i j : Nat} {b : Bool} (hi : i < 6) (hj : 6 ≤ j) :
    bit (putBit v i b) j = bit v j := by
  rw [bit_putBit (by omega), if_neg (by omega)]

theorem bit_putSVNZC_high {v n z c : Bool} {g : Byte} {j : Nat} (hj : 6 ≤ j) :
    bit (putSVNZC v n z c g) j = bit g j := by
  rw [putSVNZC, bit_putBit_high (by decide) hj, bit_putSVNZ_high hj]

theorem bit_putHSVNZC_high {h v n z c : Bool} {g : Byte} {j : Nat} (hj : 6 ≤ j) :
    bit (putHSVNZC h v n z c g) j = bit g j := by
  rw [putHSVNZC, bit_putBit_high (by decide) hj, bit_putSVNZC_high hj]

theorem bit_comFlags_high {R g : Byte} {j : Nat} (hj : 6 ≤ j) :
    bit (comFlags R g) j = bit g j := by
  rw [comFlags, logicFlags, bit_putBit_high (by decide) hj, bit_putSVNZ_high hj]

theorem bit_mulFlags_high {P W : Word} {g : Byte} {j : Nat} (hj : 6 ≤ j) :
    bit (mulFlags P W g) j = bit g j := by
  rw [bit_mulFlags, if_neg (by omega), if_neg (by omega)]

/-! ## The flags after each family of instructions -/

theorem writeResult_flag {n : Nat} {d : Reg} {v : Byte} {f : Byte → Byte}
    (h : writeResult n d v f s = .next t) (j : Nat) : t.flag j = bit (f s.sreg) j := by
  obtain ⟨u, hu, -, hf, -⟩ := writeResult_spec n d v f s
  cases hu.symm.trans h
  exact hf j

theorem writeFlags_flag {n : Nat} {f : Byte → Byte} (h : writeFlags n f s = .next t) (j : Nat) :
    t.flag j = bit (f s.sreg) j := by
  obtain ⟨u, hu, hf, -⟩ := writeFlags_spec n f s
  cases hu.symm.trans h
  exact hf j

theorem writePair_flag {n : Nat} {p : Reg} {v : Word} {f : Byte → Byte}
    (h : writePair n p v f s = .next t) (j : Nat) : t.flag j = bit (f s.sreg) j := by
  cases h
  obtain ⟨u, rfl, -, -, hf, -⟩ := setPair_flags_spec n p.val p.isLt v f s
  exact hf j

theorem writeProduct_flag {n : Nat} {P : Int} (h : writeProduct n P s = .next t) {j : Nat}
    (hj : 6 ≤ j) : t.flag j = s.flag j := by
  cases h
  obtain ⟨u, rfl, -, -, hf, -⟩ := setPair_flags_spec n 0 (by decide) (BitVec.ofInt 16 P)
    (mulFlags (BitVec.ofInt 16 P) (BitVec.ofInt 16 P)) s
  exact (hf j).trans (bit_mulFlags_high hj)

theorem writeFractional_flag {n : Nat} {P : Int} (h : writeFractional n P s = .next t) {j : Nat}
    (hj : 6 ≤ j) : t.flag j = s.flag j := by
  cases h
  obtain ⟨u, rfl, -, -, hf, -⟩ := setPair_flags_spec n 0 (by decide) (BitVec.ofInt 16 (2 * P))
    (mulFlags (BitVec.ofInt 16 P) (BitVec.ofInt 16 (2 * P))) s
  exact (hf j).trans (bit_mulFlags_high hj)

/-! ## Registers, pointers and SP are not SREG -/

theorem flag_jump (s : State) (k : Int) (n j : Nat) : (s.jump k n).flag j = s.flag j := rfl

theorem flag_advance (s : State) (w n j : Nat) : (s.advance w n).flag j = s.flag j := rfl

theorem flag_setReg (s : State) (r : Reg) (v : Byte) (j : Nat) :
    (s.setReg r v).flag j = s.flag j := by
  simp [State.flag_eq, Reg.ne_of_ge r]

theorem flag_setRegPair (s : State) (r : Reg) (v : Word) (j : Nat) :
    (s.setPair r.val v).flag j = s.flag j := by
  have := r.isLt
  rw [State.flag_eq, State.peek_setPair, if_neg (by omega), if_neg (by omega)]; rfl

theorem flag_setSp (s : State) (v : Word) (j : Nat) : (s.setSp v).flag j = s.flag j := by
  simp [State.flag_eq]

theorem flag_setZ (s : State) (v : Word) (j : Nat) : (s.setZ v).flag j = s.flag j := by
  simp [State.flag_eq]

theorem flag_setElpmAddress (e : Nat) (s : State) (j : Nat) :
    (setElpmAddress e s).flag j = s.flag j := by
  simp [State.flag_eq, setElpmAddress]

theorem flag_setFlag_ne (s : State) {i j : Nat} (hi : i < 8) (hj : j ≠ i) (b : Bool) :
    (s.setFlag i b).flag j = s.flag j := by
  rw [State.flag_setFlag _ _ _ _ hi, if_neg hj]

theorem popByte_flag {r : Byte × State} (h : popByte s = .next r) (j : Nat) :
    r.2.flag j = s.flag j := by
  unfold popByte at h
  simp only at h
  obtain ⟨v, -, h⟩ := andThen_eq_next.1 h
  cases h
  exact flag_setSp s _ j

theorem popRet_flag {r : Nat × State} (h : popRet s = .next r) (j : Nat) :
    r.2.flag j = s.flag j := by
  rw [popRet_state h]
  exact flag_setSp s _ j

theorem skip_flag {c : SkipCost} {b : Bool} (h : skip c b s = .next t) (j : Nat) :
    t.flag j = s.flag j := by
  obtain ⟨w, n, -, rfl⟩ := skip_eq_next h
  exact flag_advance s w n j

theorem branch_flag {c : BranchCost} {b : Bool} {k : BitVec 7} (h : branch c b k s = .next t)
    (j : Nat) : t.flag j = s.flag j := by
  cases h
  split <;> rfl

/-! ## Instructions without a data-space access (spec R15) -/

/-- The instruction does not read or write the data space through an address, does not push and does
not notify the watchdog. -/
structure RegistersOnly (s : State) (i : Instr) : Prop where
  read : readAddress s i = none
  store : storeAddress s i = none
  push : ∀ r, i ≠ .push r
  rcall : ∀ k, i ≠ .rcall k
  icall : i ≠ .icall
  eicall : i ≠ .eicall
  call : ∀ k, i ≠ .call k
  wdr : i ≠ .wdr

/-- The instructions whose effect is to write bit `j` of SREG, T or I. -/
def WritesFlag (j : Nat) : Instr → Prop
  | .bset f | .bclr f => f.val = j
  | .bst _ _ => j = flagT
  | .reti => j = flagI
  | _ => False

theorem exec_flag_high {i : Instr} {j : Nat} (hj : 6 ≤ j) (hw : ¬ WritesFlag j i)
    (ho : RegistersOnly s i) (h : exec i s = .next t) : t.flag j = s.flag j := by
  cases i with
  | add | adc | sub | subi | sbc | sbci | neg =>
    exact (writeResult_flag h j).trans (bit_putHSVNZC_high hj)
  | cp | cpc | cpi => exact (writeFlags_flag h j).trans (bit_putHSVNZC_high hj)
  | adiw | sbiw => exact (writePair_flag h j).trans (bit_putSVNZC_high hj)
  | inc | dec | and | andi | or | ori | eor =>
    exact (writeResult_flag h j).trans (bit_putSVNZ_high hj)
  | com => exact (writeResult_flag h j).trans (bit_comFlags_high hj)
  | lsr | ror | asr => exact (writeResult_flag h j).trans (bit_putSVNZC_high hj)
  | mul | muls | mulsu => exact writeProduct_flag h hj
  | fmul | fmuls | fmulsu => exact writeFractional_flag h hj
  | bset f | bclr f => cases h; exact flag_setFlag_ne s f.isLt (Ne.symm hw) _
  | bst => cases h; exact flag_setFlag_ne s (by decide) hw _
  | swap | bld | mov | ldi => cases h; exact flag_setReg s _ _ j
  | movw => cases h; exact flag_setRegPair s _ _ j
  | lpmR0 | lpmZ | elpmR0 | elpmZ =>
    obtain ⟨v, -, h⟩ := andThen_eq_next.1 h
    cases h; exact flag_setReg s _ _ j
  | lpmZInc =>
    obtain ⟨v, -, h⟩ := andThen_eq_next.1 h
    cases h; exact (flag_setZ _ _ j).trans (flag_setReg s _ _ j)
  | elpmZInc =>
    obtain ⟨v, -, h⟩ := andThen_eq_next.1 h
    cases h
    exact (flag_advance _ _ _ j).trans ((flag_setElpmAddress _ _ j).trans (flag_setReg s _ _ j))
  | pop =>
    unfold exec at h
    obtain ⟨r, hr, h⟩ := andThen_eq_next.1 h
    cases h; exact (flag_setReg _ _ _ j).trans (popByte_flag hr j)
  | rjmp | ijmp | eijmp | jmp => cases h; exact flag_jump s _ _ j
  | spm | spmZInc | nop | sleep | brk => cases h; exact flag_advance s _ _ j
  | ret =>
    unfold exec at h
    obtain ⟨r, hr, h⟩ := andThen_eq_next.1 h
    cases h; exact popRet_flag hr j
  | reti =>
    unfold exec at h
    obtain ⟨u, hu, h⟩ := andThen_eq_next.1 h
    obtain ⟨r, hr, hu⟩ := andThen_eq_next.1 hu
    cases hu; cases h; exact (flag_setFlag_ne _ (by decide) hw _).trans (popRet_flag hr j)
  | brbs | brbc => exact branch_flag h j
  | cpse | sbrc | sbrs => exact skip_flag h j
  | sbi | cbi | inp | lds | ldX | ldXInc | ldXDec | ldYInc | ldYDec | lddY | ldZInc | ldZDec
  | lddZ | xch | las | lac | lat | sbic | sbis => cases ho.read
  | out | sts | stX | stXInc | stXDec | stYInc | stYDec | stdY | stZInc | stZDec | stdZ =>
    cases ho.store
  | push r => exact (ho.push r rfl).elim
  | rcall k => exact (ho.rcall k rfl).elim
  | icall => exact (ho.icall rfl).elim
  | eicall => exact (ho.eicall rfl).elim
  | call k => exact (ho.call k rfl).elim
  | wdr => exact (ho.wdr rfl).elim

theorem writesFlag_I {i : Instr} (h : WritesFlag flagI i) : i ∈ [.bset 7, .bclr 7, .reti] := by
  cases i with
  | bset f | bclr f => cases Fin.ext (a := f) (b := 7) h; simp
  | bst => cases h
  | reti => simp
  | _ => exact h.elim

theorem writesFlag_T {i : Instr} (h : WritesFlag flagT i) :
    i ∈ [.bset 6, .bclr 6] ∨ ∃ d b, i = .bst d b := by
  cases i with
  | bset f | bclr f => cases Fin.ext (a := f) (b := 6) h; simp
  | bst d b => exact .inr ⟨d, b, rfl⟩
  | reti => cases h
  | _ => exact h.elim

/-- Settles O44: an instruction that does not write I or T by its own effect leaves it as it was. -/
theorem interruptFlagWriters : Obligations.InterruptFlagWriters := by
  intro s i t h hr hs hp hrc hi he hc hw
  have ho : RegistersOnly s i := ⟨hr, hs, hp, hrc, hi, he, hc, hw⟩
  constructor
  · intro hne
    exact writesFlag_I (by_contra fun hn => hne (exec_flag_high (by decide) hn ho h))
  · intro hne
    exact writesFlag_T (by_contra fun hn => hne (exec_flag_high (by decide) hn ho h))

end Sys2Proof.Machine
end

section
/-!
PROOF. Construction gives the core that R30 and R350 describe, and it meets the invariant.
-/

namespace Sys2Proof.Machine

/-! ## The program and the data that construction stores -/

theorem Cells.wf_mono {w m n : Nat} {l : List (Nat × BitVec w)} (h : Cells.wf m l) (hmn : m ≤ n) :
    Cells.wf n l :=
  ⟨h.1, fun c hc => ⟨Nat.lt_of_lt_of_le (h.2 c hc).1 hmn, (h.2 c hc).2⟩⟩

/-- The values of a list from address 0 up. -/
theorem Cells.read_ofList_zero {w : Nat} (vs : List (BitVec w)) (i : Nat) :
    Cells.read (Cells.ofList 0 vs) i = vs.getD i 0 := by
  simpa using Cells.read_ofList 0 vs i

/-- Bytes with the low byte of each word first make the words (spec R350). -/
theorem wordsOfBytes_flatMap (ws : List Word) :
    wordsOfBytes (ws.flatMap fun w => [lowByte w, highByte w]) = some ws := by
  induction ws with
  | nil => rfl
  | cons w ws ih => simp [wordsOfBytes, ih]

theorem toWords_bytes (ws : List Word) :
    (ProgramImage.bytes (ws.flatMap fun w => [lowByte w, highByte w])).toWords = .next ws := by
  simp only [ProgramImage.toWords, wordsOfBytes_flatMap]

/-! ## The constructed core -/

/-- The parameters of a core built for the program `ws`. -/
def builtParams (ws : List Word) (sramBytes : Nat) (o : Options) : Params :=
  { sramBytes := sramBytes, progWords := ws.length, maxVectors := o.maxVectors,
    strictDecode := o.strictDecode, cost := o.cost, phase := o.phase }

/-- The core built for the program `ws`. -/
def builtCore (ws : List Word) (sramBytes : Nat) (o : Options) : State :=
  { State.reset with
    params := builtParams ws sramBytes o
    data := Cells.ofList 0 (o.initData.take (builtParams ws sramBytes o).dataSize)
    prog := Cells.ofList 0 ws }

theorem constructWith_eq (image : ProgramImage) {ws : List Word} (sramBytes : Nat) (o : Options)
    (hw : image.toWords = .next ws) (hl : (builtParams ws sramBytes o).Legal) :
    constructWith image sramBytes o = .next (builtCore ws sramBytes o) := by
  have hn := paramsError_eq_none.2 hl
  unfold builtParams at hn
  simp only [constructWith, hw, andThen_next, hn]
  rfl

theorem constructWith_fault (image : ProgramImage) {ws : List Word} (sramBytes : Nat) (o : Options)
    (hw : image.toWords = .next ws) (hl : ¬ (builtParams ws sramBytes o).Legal) :
    ∃ k, constructWith image sramBytes o = .fault (.configError k) := by
  obtain ⟨k, hk⟩ := Option.ne_none_iff_exists'.1 (mt paramsError_eq_none.1 hl)
  unfold builtParams at hk
  refine ⟨k, ?_⟩
  simp only [constructWith, hw, andThen_next, hk]

variable {ws : List Word} {sramBytes : Nat} {o : Options}

theorem builtCore_prog (i : Nat) : Cells.read (builtCore ws sramBytes o).prog i = ws.getD i 0 :=
  Cells.read_ofList_zero ws i

theorem builtCore_peek {a : Nat} (ha : a < (builtParams ws sramBytes o).dataSize) :
    (builtCore ws sramBytes o).peek a = o.initData.getD a 0 := by
  have h := Cells.read_ofList_zero (o.initData.take (builtParams ws sramBytes o).dataSize) a
  rw [List.getD_eq_getElem?_getD, List.getElem?_take_of_lt ha, ← List.getD_eq_getElem?_getD] at h
  exact h

/-- A core without pending interrupts, events and hooks meets the invariant if its memories, `pc`
and parameters do. -/
theorem CoreInv.of_empty {s : State} (hm : MemoryInv s) (hpc : PcInv s) (hp : s.pending = [])
    (hl : s.lowestPending = none) (he : s.events = []) (hr : s.readHooks = [])
    (hw : s.writeHooks = []) : CoreInv s where
  memory := hm
  pc := hpc
  pending := ⟨by simp [hp, Table.Sorted], by simp [hp], by simp [hp, hl], by simp [hp]⟩
  events := by simp [EventsInv, he]
  hooks := ⟨by simp [hr, Table.Sorted], by simp [hw, Table.Sorted]⟩

theorem builtCore_inv (h : (builtParams ws sramBytes o).Legal) :
    CoreInv (builtCore ws sramBytes o) :=
  .of_empty
    ⟨Cells.wf_mono (Cells.ofList_wf _) (List.length_take_le _ _), Cells.ofList_wf ws⟩
    ⟨h, h.prog_pos⟩ rfl rfl rfl rfl rfl

/-! ## The statements -/

/-- Settles O59: `constructWith` gives `builtCore` exactly for parameters in their ranges. -/
theorem constructedCore : Obligations.ConstructedCore := by
  intro ws sramBytes h1 h2
  have legal {o : Options} (hv : 128 ≤ o.maxVectors) (hc : o.cost.Positive) :
      (builtParams ws sramBytes o).Legal := ⟨h1, h2, hv, hc⟩
  refine ⟨?_, fun o hv hc => ?_, fun o ho => ?_⟩
  · have hl := legal (o := {}) (Nat.le_refl 128) standard_cost_positive
    refine ⟨_, constructWith_eq (.words ws) sramBytes {} rfl hl,
      constructWith_eq _ sramBytes {} (toWords_bytes ws) hl, builtCore_prog, fun a => ?_, rfl, rfl,
      rfl, rfl, rfl, ⟨rfl, rfl⟩, rfl, rfl, rfl, rfl, rfl, rfl, rfl, rfl, builtCore_inv hl⟩
    simp [State.peek, builtCore, Cells.ofList, Cells.read]
  · exact ⟨_, constructWith_eq (.words ws) sramBytes o rfl (legal hv hc), rfl,
      fun a ha => builtCore_peek ha, builtCore_prog, builtCore_inv (legal hv hc)⟩
  · refine constructWith_fault (.words ws) sramBytes o rfl fun hl => ?_
    rcases ho with hv | hc
    · exact Nat.not_lt.2 hl.vectors hv
    · exact hc hl.cost

theorem standard_legal : Config.standard.Legal :=
  ⟨by decide, by decide, by decide, standard_cost_positive⟩

/-- Settles O41: nothing is listed in either memory, pending, scheduled or hooked. -/
theorem resetMeetsInvariant : Obligations.ResetMeetsInvariant :=
  .of_empty ⟨Cells.nil_wf _, Cells.nil_wf _⟩ ⟨standard_legal, standard_legal.prog_pos⟩
    rfl rfl rfl rfl rfl

end Sys2Proof.Machine
end

section
/-!
PROOF. 16-bit values are two bytes (spec R16, R43, R44, R50).
-/

namespace Sys2Proof.Machine

variable {s t u : State}

theorem OnlyWrites.trans {p q : Nat → Prop} (h : OnlyWrites s t p) (k : OnlyWrites t u q) :
    OnlyWrites s u fun a => p a ∨ q a where
  beyond := h.beyond.trans k.beyond
  data a ha := (k.data a fun hq => ha (.inr hq)).trans (h.data a fun hp => ha (.inl hp))

/-- OUT to an address without a write hook stores its register there and nothing else
(spec R48, R159). -/
theorem execOut_plain {a : Fin 64} (r : Reg) (h : WritePlain s (ioAddress a.val)) :
    ∃ t, exec (.out a r) s = .next t ∧ t.peek (ioAddress a.val) = s.reg r ∧
      OnlyWrites s t fun x => x = ioAddress a.val := by
  refine ⟨_, store_plain h.inside h.unhooked, ?_, ⟨rfl, rfl, rfl, rfl, rfl, rfl, rfl, rfl, rfl, rfl,
    rfl, rfl⟩, fun x hx => ?_⟩
  · simp
  · simp [hx]

theorem WritePlain.of_sameBeyond {a : Nat} (h : WritePlain s a) (k : SameBeyond s t) :
    WritePlain t a where
  inside := by rw [State.dataSize, k.params]; exact h.inside
  unhooked := by rw [k.writeHooks]; exact h.unhooked

/-- Two OUTs write SP (spec R16). -/
theorem sp_of_outs (l h : Reg) (h93 : WritePlain s 93) (h94 : WritePlain s 94) :
    ∃ t u, exec (.out 0x3D l) s = .next t ∧ exec (.out 0x3E h) t = .next u ∧
      u.sp.toNat = (s.reg l).toNat + 256 * (s.reg h).toNat ∧
      OnlyWrites s u (fun a => a = 93 ∨ a = 94) := by
  obtain ⟨t, ht, hlow, hst⟩ := execOut_plain (a := 0x3D) l h93
  obtain ⟨u, hu, hhigh, htu⟩ := execOut_plain (a := 0x3E) h (h94.of_sameBeyond hst.beyond)
  refine ⟨t, u, ht, hu, ?_, hst.trans htu⟩
  have h1 : u.peek 93 = s.reg l := (htu.data 93 (by decide)).trans hlow
  have h2 : u.peek 94 = s.reg h :=
    hhigh.trans (hst.data h.val (Reg.ne_of_ge h (n := 93) (by decide)).symm)
  rw [State.sp_eq, word_toNat, h1, h2]

/-- A 16-bit accessor inside the data space writes the two bytes and reads them back. -/
theorem writeWord_spec (o : ByteOrder) {a : Nat} (v : Word) (h : a + 1 < s.dataSize) :
    ∃ t, writeWord o a v s = .next t ∧ readWord o a t = .next v ∧
      t.peek a = o.first v ∧ t.peek (a + 1) = o.second v ∧
      t.pc = s.pc ∧ t.cycles = s.cycles ∧ OnlyWrites s t fun x => x = a ∨ x = a + 1 := by
  have h1 : ((s.poke a (o.first v)).poke (a + 1) (o.second v)).peek a = o.first v := by simp
  have h2 : ((s.poke a (o.first v)).poke (a + 1) (o.second v)).peek (a + 1) = o.second v := by simp
  refine ⟨_, writeWord_next h, ?_, h1, h2, rfl, rfl, (SameBeyond.poke s _ _).trans (.poke _ _ _),
    fun x hx => ?_⟩
  · rw [readWord_next (by simpa using h), h1, h2, ByteOrder.join_split]
  · have hx := not_or.1 hx
    simp [hx.1, hx.2]

/-- A 16-bit accessor whose lower byte lies outside the data space aborts with its address. -/
theorem word_fault_first (o : ByteOrder) {a : Nat} (v : Word) (h : s.dataSize ≤ a) :
    readWord o a s = .fault (.dataAddressOutOfRange a) ∧
      writeWord o a v s = .fault (.dataAddressOutOfRange a) := by
  rw [readWord, writeWord, rawRead_fault (by omega), rawWrite_fault (by omega)]
  exact ⟨rfl, rfl⟩

/-- A 16-bit accessor whose higher byte alone lies outside aborts with the address after its own. -/
theorem word_fault_second (o : ByteOrder) {a : Nat} (v : Word) (h1 : a < s.dataSize)
    (h2 : s.dataSize ≤ a + 1) :
    readWord o a s = .fault (.dataAddressOutOfRange (a + 1)) ∧
      writeWord o a v s = .fault (.dataAddressOutOfRange (a + 1)) := by
  constructor
  · rw [readWord, rawRead_next (by omega) (by omega), andThen_next, rawRead_fault (by omega)]
    rfl
  · rw [writeWord, rawWrite_next (by omega) (by omega), andThen_next,
      rawWrite_fault (by rw [State.poke_dataSize]; omega)]

/-- Settles O60, from the rules above for OUT and for the two accessors. -/
theorem sixteenBitValuesAreTwoBytes : Obligations.SixteenBitValuesAreTwoBytes := by
  intro s
  refine ⟨sp_of_outs, fun a v h => ⟨?_, ?_⟩, fun o a v h => ?_⟩
  · obtain ⟨t, hw, hr, h1, h2, hrest⟩ := writeWord_spec .little v h
    exact ⟨t, hw, hr, h1 ▸ lowByte_toNat v, h2 ▸ highByte_toNat v, hrest⟩
  · obtain ⟨t, hw, hr, h1, h2, hrest⟩ := writeWord_spec .big v h
    exact ⟨t, hw, hr, h1 ▸ highByte_toNat v, h2 ▸ lowByte_toNat v, hrest⟩
  · by_cases ha : s.dataSize ≤ a
    · exact ⟨a, fun _ => rfl, fun _ => by omega, word_fault_first o v ha⟩
    · exact ⟨a + 1, fun _ => by omega, fun _ => rfl, word_fault_second o v (by omega) h⟩

end Sys2Proof.Machine
end

section
/-!
PROOF. The accesses of the data space: their bounds, the hooks they consult, and what the
environment must not do in a call (spec R44, R47 to R49, R170, R336, R362).
-/

namespace Sys2Proof.Machine

variable {s : State}

/-! ## Accesses outside the data space (spec R44, R170) -/

theorem modifyIo_fault {p : ReadWritePhase} {n : Nat} {a : Fin 32} {b : BitNo} {f : Byte → Byte}
    (h : s.dataSize ≤ ioAddress a.val) :
    modifyIo p n a b f s = .fault (.dataAddressOutOfRange (ioAddress a.val)) := by
  rw [modifyIo, readWrite_fault h, andThen_fault]

theorem exchangeZ_fault {p : ReadWritePhase} {n : Nat} {d : Reg} {f : Byte → Byte → Byte}
    (h : s.dataSize ≤ s.z.toNat) :
    exchangeZ p n d f s = .fault (.dataAddressOutOfRange s.z.toNat) := by
  rw [exchangeZ, readWrite_fault h, andThen_fault]

/-- The check against 65536 hides no abort of the access behind it (spec R170). -/
theorem atDisplaced_of_fault {a : Nat} {o : Res State}
    (h : o = .fault (.dataAddressOutOfRange a)) :
    atDisplaced a o = .fault (.dataAddressOutOfRange a) := by
  rw [atDisplaced, h, ite_self]

/-- An instruction whose hooked read lies outside the data space aborts with its address, also where
the form decrements its pointer first. -/
theorem exec_readAddress_fault {i : Instr} {a : Nat} (hr : readAddress s i = some a)
    (ha : s.dataSize ≤ a) : exec i s = .fault (.dataAddressOutOfRange a) := by
  cases i with
  | inp | lds | ldX | lddZ => cases hr; exact load_fault ha
  | ldXInc => cases hr; exact load_fault (f := (·.setX _)) ha
  | ldYInc => cases hr; exact load_fault (f := (·.setY _)) ha
  | ldZInc => cases hr; exact load_fault (f := (·.setZ _)) ha
  | ldXDec => cases hr; exact load_fault (s := s.setX _) ha
  | ldYDec => cases hr; exact load_fault (s := s.setY _) ha
  | ldZDec => cases hr; exact load_fault (s := s.setZ _) ha
  | lddY => cases hr; exact atDisplaced_of_fault (load_fault ha)
  | sbi | cbi => cases hr; exact modifyIo_fault ha
  | xch | las | lac | lat => cases hr; unfold exec; exact exchangeZ_fault ha
  | sbic a b => cases hr; rw [exec, execSbic, memRead_fault ha, andThen_fault]
  | sbis a b => cases hr; rw [exec, execSbis, memRead_fault ha, andThen_fault]
  | _ => cases hr

/-- A store outside the data space aborts with its address. -/
theorem exec_storeAddress_fault {i : Instr} {a : Nat} (hw : storeAddress s i = some a)
    (ha : s.dataSize ≤ a) : exec i s = .fault (.dataAddressOutOfRange a) := by
  cases i with
  | out | sts | stX | stXInc | stYInc | stZInc | stdZ => cases hw; exact store_fault ha
  | stXDec => cases hw; exact store_fault (s := s.setX _) ha
  | stYDec => cases hw; exact store_fault (s := s.setY _) ha
  | stZDec => cases hw; exact store_fault (s := s.setZ _) ha
  | stdY => cases hw; exact atDisplaced_of_fault (store_fault ha)
  | _ => cases hw

/-- Settles O18: outside the data space the access itself aborts, and above 65535 the check of the
displaced forms does. -/
theorem dataAddressOutsideAborts : Obligations.DataAddressOutsideAborts := by
  rintro s i a haddr (hout | ⟨hdisp, r, q, rfl | rfl⟩)
  · exact haddr.elim (exec_readAddress_fault · hout) (exec_storeAddress_fault · hout)
  · obtain hr | hw := haddr
    · cases hr; exact atDisplaced_fault hdisp _
    · cases hw
  · obtain hr | hw := haddr
    · cases hr
    · cases hw; exact atDisplaced_fault hdisp _

/-! ## Which hook an access consults (spec R47, R48) -/

theorem readHookAt_eq_some {a : Nat} {h : Handle} (ha : 31 < a)
    (hk : Table.find s.readHooks a = some h) : readHookAt s a = some h := by
  rw [readHookAt, if_pos ha, hk]

theorem readHookAt_eq_none {a : Nat} (h : a ≤ 31 ∨ Table.find s.readHooks a = none) :
    readHookAt s a = none := by
  obtain ha | hk := h
  · exact readHookAt_register (by omega)
  · rw [readHookAt, hk, ite_self]

/-- Settles O45: a hooked read is its hook's run, with the answer cut to a byte. -/
theorem memReadConsultsItsHook : Obligations.MemReadConsultsItsHook := by
  intro s a
  refine ⟨memRead_fault, fun ha hk => memRead_plain ha (readHookAt_eq_none hk),
    fun h ha h31 hk => ?_⟩
  rw [memRead_hook ha (readHookAt_eq_some h31 hk), readCall]
  refine ⟨fun r t hc => ?_, fun e hc => ?_, fun e hc => ?_, fun v b rest hin => ?_⟩
  · exact ⟨_, by rw [hc, andThen_next], BitVec.toNat_ofNat ..⟩
  · rw [hc, andThen_fault]
  · rw [hc, andThen_refused]
  · refine ⟨_, BitVec.toNat_ofNat v 8, ?_⟩
    rw [callEnv_ret hin, andThen_next]
    rfl

/-! ## One act of the environment (spec R48, R49) -/

section OneAct

variable {c : Contract} {rest : List EnvAct} {fs : List Frame}

theorem envRun_not_permitted {act : EnvAct} (hp : c.permits act = false) :
    envRun c (act :: rest) fs s = .refused .environmentBreaksContract := by
  simp [envRun.eq_def, hp]

/-- The outermost call returns. -/
theorem envRun_ret_outer {v : Nat} {b : Bool} :
    envRun c (.ret v b :: rest) [] s = .next (⟨v, b⟩, { s with envIn := rest }) := by
  cases c <;> rfl

/-- A hook call that the environment made returns, and what was left to do is done. -/
theorem envRun_ret_inner {v : Nat} {b : Bool} {f : Frame} :
    envRun c (.ret v b :: rest) (f :: fs) s = envRun c rest fs (f.finish b s) := by
  cases c <;> rfl

theorem envRun_readData_fault {a : Nat} (hp : c.permits (.readData a) = true)
    (ha : ¬ a < s.dataSize) :
    envRun c (.readData a :: rest) fs s = .fault (.dataAddressOutOfRange a) := by
  simp only [envRun, hp, ha, if_true, if_false]

theorem envRun_readData_plain {a : Nat} (hp : c.permits (.readData a) = true)
    (ha : a < s.dataSize) (hk : readHookAt s a = none) :
    envRun c (.readData a :: rest) fs s = envRun c rest fs s := by
  simp only [envRun, hp, ha, hk, if_true]

theorem envRun_readData_hook {a : Nat} {h : Handle} (hp : c.permits (.readData a) = true)
    (ha : a < s.dataSize) (hk : readHookAt s a = some h) :
    envRun c (.readData a :: rest) fs s =
      envRun c rest (.read :: fs) (s.logCall (readCall h a s)) := by
  simp only [envRun, hp, ha, hk, if_true]

theorem envRun_writeData_fault {a : Nat} {v m : Byte} (hp : c.permits (.writeData a v m) = true)
    (ha : ¬ a < s.dataSize) :
    envRun c (.writeData a v m :: rest) fs s = .fault (.dataAddressOutOfRange a) := by
  simp only [envRun, hp, ha, if_true, if_false]

theorem envRun_writeData_plain {a : Nat} {v m : Byte} (hp : c.permits (.writeData a v m) = true)
    (ha : a < s.dataSize) (hk : writeHookAt s a = none) :
    envRun c (.writeData a v m :: rest) fs s = envRun c rest fs (s.poke a v) := by
  simp only [envRun, hp, ha, hk, if_true]

theorem envRun_writeData_hook {a : Nat} {v m : Byte} {h : Handle}
    (hp : c.permits (.writeData a v m) = true) (ha : a < s.dataSize)
    (hk : writeHookAt s a = some h) :
    envRun c (.writeData a v m :: rest) fs s =
      envRun c rest (.write a v :: fs) (s.logCall (writeCall h a v m s)) := by
  simp only [envRun, hp, ha, hk, if_true]

theorem envRun_device {op : DeviceOp} (hp : c.permits (.device op) = true) :
    envRun c (.device op :: rest) fs s = andThen (deviceOp op s) (envRun c rest fs) := by
  simp only [envRun, hp, if_true]

end OneAct

/-! ## What a hook does before it answers (spec R48) -/

/-- A hook that writes a byte without a write hook and then returns. -/
theorem callEnv_writeData_ret {k : EnvCall} {c x : Nat} {w m : Byte} {b : Bool}
    {rest : List EnvAct} (hc : c < s.dataSize) (hk : Table.find s.writeHooks c = none)
    (hin : s.envIn = [.writeData c w m, .ret x b] ++ rest) :
    callEnv .hook k s = .next (⟨x, b⟩, { (s.logCall k).poke c w with envIn := rest }) := by
  rw [callEnv, hin]
  exact (envRun_writeData_plain (s := s.logCall k) rfl hc hk).trans envRun_ret_outer

/-- A hook that writes a byte with a write hook, which does not own that write, and then returns. -/
theorem callEnv_hooked_writeData_ret {k : EnvCall} {a x y : Nat} {w m : Byte} {b : Bool}
    {rest : List EnvAct} {h : Handle} (ha : a < s.dataSize)
    (hk : Table.find s.writeHooks a = some h)
    (hin : s.envIn = [.writeData a w m, .ret x false, .ret y b] ++ rest) :
    callEnv .hook k s =
      .next (⟨y, b⟩, { ((s.logCall k).logCall (writeCall h a w m (s.logCall k))).poke a w with
        envIn := rest }) := by
  rw [callEnv, hin, List.cons_append, envRun_writeData_hook (s := s.logCall k) rfl ha hk,
    List.cons_append, envRun_ret_inner, List.cons_append, envRun_ret_outer]
  rfl

theorem State.peek_withEnvIn (l : List EnvAct) (c : Nat) :
    ({ s with envIn := l } : State).peek c = s.peek c := rfl

/-- The default store puts the value at its address unless the hook owned the write. -/
theorem peek_finishWrite (a : Nat) (v : Byte) (b : Bool) (c : Nat) :
    (finishWrite a v b s).peek c = if c = a ∧ b = false then v else s.peek c := by
  cases b <;> simp [finishWrite]

/-- Settles O46: a hooked write is its hook's run and then the default store. -/
theorem memWriteConsultsItsHook : Obligations.MemWriteConsultsItsHook := by
  intro s a v m
  refine ⟨memWrite_fault, memWrite_plain, fun h ha hk => ?_⟩
  dsimp only
  rw [memWrite_hook ha hk, writeCall]
  refine ⟨fun r t hc hr => ?_, fun r t hc hr => ?_, fun e hc => ?_, fun e hc => ?_,
    fun x b rest hin => ?_, fun c w x b rest hc hck hin => ?_, fun w x y b rest hin => ?_⟩
  · rw [hc, andThen_next, hr]; rfl
  · rw [hc, andThen_next, hr]
    exact ⟨_, rfl, rfl, fun c => t.peek_poke a c v⟩
  · rw [hc, andThen_fault]
  · rw [hc, andThen_refused]
  · rw [callEnv_ret hin, andThen_next]
    refine ⟨_, rfl, fun c => peek_finishWrite a v b c, ?_, ?_⟩ <;> cases b <;> rfl
  · rw [callEnv_writeData_ret hc hck hin, andThen_next]
    refine ⟨_, rfl, fun e => ?_⟩
    simp only [peek_finishWrite, State.peek_withEnvIn, State.peek_poke, State.logCall_peek]
  · rw [callEnv_hooked_writeData_ret ha hk hin, andThen_next]
    refine ⟨_, rfl, fun e => ?_⟩
    simp only [peek_finishWrite, State.peek_withEnvIn, State.peek_poke, State.logCall_peek]
    by_cases he : e = a <;> cases b <;> simp [he]

/-! ## Acts that break the contract (spec R49, R336, R362) -/

/-- An act after which the call may still go on leads to one state and one stack of inner calls,
whatever the environment does next. -/
theorem envRun_cons_goesOn {c : Contract} {act : EnvAct} {rest : List EnvAct} {fs : List Frame}
    (h : envRun c (act :: rest) fs s = .refused .environmentDidNotReturn) :
    ∃ (gs : List Frame) (t : State), ∀ more, envRun c (act :: more) fs s = envRun c more gs t := by
  cases hp : c.permits act with
  | false => rw [envRun_not_permitted hp] at h; cases h
  | true =>
  cases act with
  | ret v b =>
    cases fs with
    | nil => rw [envRun_ret_outer] at h; cases h
    | cons f fs => exact ⟨_, _, fun _ => envRun_ret_inner⟩
  | readData a =>
    by_cases ha : a < s.dataSize
    · cases hk : readHookAt s a with
      | none => exact ⟨_, _, fun _ => envRun_readData_plain hp ha hk⟩
      | some k => exact ⟨_, _, fun _ => envRun_readData_hook hp ha hk⟩
    · rw [envRun_readData_fault hp ha] at h; cases h
  | writeData a v m =>
    by_cases ha : a < s.dataSize
    · cases hk : writeHookAt s a with
      | none => exact ⟨_, _, fun _ => envRun_writeData_plain hp ha hk⟩
      | some k => exact ⟨_, _, fun _ => envRun_writeData_hook hp ha hk⟩
    · rw [envRun_writeData_fault hp ha] at h; cases h
  | device op =>
    rw [envRun_device hp] at h
    cases hop : deviceOp op s with
    | next t => exact ⟨fs, t, fun _ => by rw [envRun_device hp, hop, andThen_next]⟩
    | fault r => rw [hop] at h; cases h
    | refused e => exact (deviceOp_ne_refused op s e hop).elim
  | forbidden x => cases c <;> cases hp

/-- Acts after which the call has not returned lead to one state and one stack of inner calls,
whatever the environment does next. -/
theorem envRun_append_goesOn {c : Contract} {acts : List EnvAct} {fs : List Frame}
    (h : envRun c acts fs s = .refused .environmentDidNotReturn) :
    ∃ (gs : List Frame) (t : State),
      ∀ more, envRun c (acts ++ more) fs s = envRun c more gs t := by
  induction acts generalizing fs s with
  | nil => exact ⟨fs, s, fun _ => rfl⟩
  | cons act acts ih =>
    obtain ⟨gs, t, hact⟩ := envRun_cons_goesOn h
    obtain ⟨gs', t', hacts⟩ := ih ((hact acts).symm.trans h)
    exact ⟨gs', t', fun more => (hact (acts ++ more)).trans (hacts more)⟩

/-- The acts that no contract permits, and those that a callback's does not: clearing or moving the
event that is firing. -/
theorem permits_eq_false {c : Contract} {act : EnvAct}
    (h : (∃ x, act = .forbidden x) ∨ ∃ firing, c = .callback firing ∧
      (act = .device (.clearClockEvent firing) ∨
        ∃ rel, act = .device (.updateClockEvent firing rel))) :
    c.permits act = false := by
  obtain ⟨x, rfl⟩ | ⟨firing, rfl, rfl | ⟨rel, rfl⟩⟩ := h
  · cases c <;> rfl
  · simp [Contract.permits]
  · simp [Contract.permits]

/-- An act that the contract does not permit makes the run refused, wherever in it it stands. -/
theorem envRun_append_not_permitted {c : Contract} {act : EnvAct} {acts rest : List EnvAct}
    {fs : List Frame} (hp : c.permits act = false)
    (h : envRun c acts fs s = .refused .environmentDidNotReturn) :
    envRun c (acts ++ act :: rest) fs s = .refused .environmentBreaksContract := by
  obtain ⟨gs, t, happ⟩ := envRun_append_goesOn h
  rw [happ, envRun_not_permitted hp]

theorem whenRunning_aborted {α : Type} {f : State → Res α} {r : Fault}
    (h : s.status = .aborted r) : whenRunning s f = .refused .coreAborted := by
  rw [whenRunning, h]

/-- Settles O48: the acts before the forbidden one lead to a state in which it comes next. -/
theorem forbiddenRunsAreRefused : Obligations.ForbiddenRunsAreRefused := by
  intro s
  refine ⟨fun c act hact => ?_, fun r op hr => ⟨?_, whenRunning_aborted hr⟩⟩
  · have hp : c.permits act = false := permits_eq_false hact
    refine ⟨fun _ _ _ h => envRun_append_not_permitted hp h, fun k acts rest hin h => ?_⟩
    rw [callEnv, hin, envRun_append_not_permitted hp h]
  · rw [step, stepInstr, whenRunning_aborted hr, andThen_refused]

end Sys2Proof.Machine
end

section
/-!
PROOF. The encoder and the decoder are inverse to each other, from words and from bytes (spec R70 to
R80).

A format of R73 is a `Format`: where its opcode bits are, how its operands are read from the words,
and how they are written. Its law is one equivalence: the words have the opcode bits of `op` and the
operands `a` exactly if `a` is admitted and its encoding under `op` is those words. Every row of R77
takes its law from its format, and both round trips are readings of that one equivalence.
-/

namespace Sys2Proof

/-! ## Runs of opcode bits (spec R73, R74) -/

/-- The mask whose bits are those of the runs: a run `(lo, len)` is bits `lo` to `lo + len - 1`. -/
def runsMask : List (Nat × Nat) → Nat
  | [] => 0
  | (lo, len) :: runs => 2 ^ lo * (2 ^ len - 1) + runsMask runs

/-- The number `n` with the bits outside the runs cleared. -/
def runsOf (n : Nat) : List (Nat × Nat) → Nat
  | [] => 0
  | (lo, len) :: runs => 2 ^ lo * (n / 2 ^ lo % 2 ^ len) + runsOf n runs

/-- Each run lies above all those after it. -/
def runsDescend : List (Nat × Nat) → Bool
  | [] => true
  | (lo, _) :: runs => decide (runsMask runs < 2 ^ lo) && runsDescend runs

theorem land_run (n lo len : Nat) :
    n &&& 2 ^ lo * (2 ^ len - 1) = 2 ^ lo * (n / 2 ^ lo % 2 ^ len) := by
  apply Nat.eq_of_testBit_eq
  intro j
  by_cases hj : lo ≤ j <;>
    simp [Nat.testBit_two_pow_mul, Nat.testBit_mod_two_pow, Nat.testBit_div_two_pow, hj,
      Bool.and_comm]

theorem land_runsMask {runs : List (Nat × Nat)} (h : runsDescend runs = true) (n : Nat) :
    n &&& runsMask runs = runsOf n runs := by
  induction runs with
  | nil => exact Nat.and_zero n
  | cons run runs ih =>
    obtain ⟨lo, len⟩ := run
    obtain ⟨hlt, hruns⟩ : runsMask runs < 2 ^ lo ∧ runsDescend runs = true := by
      simpa [runsDescend] using h
    have hn : (n &&& runsMask runs) < 2 ^ lo := Nat.lt_of_le_of_lt Nat.and_le_right hlt
    rw [runsMask, runsOf, ← ih hruns, Nat.two_pow_add_eq_or_of_lt hlt, Nat.and_or_distrib_left,
      land_run, Nat.two_pow_add_eq_or_of_lt hn]

/-! ## Fields as numbers (spec R73, R75) -/

section Fields

variable {w : Word}

theorem field_eq (w : Word) (hi lo : Nat) :
    field w hi lo = w.toNat / 2 ^ lo % 2 ^ (hi + 1 - lo) := by
  rw [field, Nat.shiftRight_eq_div_pow]

theorem pack_eq_iff {op fields : Nat} : pack op fields = w ↔ (op + fields) % 65536 = w.toNat := by
  rw [← BitVec.toNat_inj, pack, BitVec.toNat_ofNat]

@[simp] theorem fieldD5_eq_iff {d : Reg} : fieldD5 w = d ↔ w.toNat / 16 % 32 = d.val := by
  simp only [fieldD5, field_eq, Fin.ext_iff, Fin.val_ofNat]
  omega

@[simp] theorem fieldR5_eq_iff {r : Reg} :
    fieldR5 w = r ↔ w.toNat / 512 % 2 * 16 + w.toNat % 16 = r.val := by
  simp only [fieldR5, field_eq, Fin.ext_iff, Fin.val_ofNat]
  omega

@[simp] theorem fieldD4_eq_iff {d : Reg} : fieldD4 w = d ↔ 16 + w.toNat / 16 % 16 = d.val := by
  simp only [fieldD4, field_eq, Fin.ext_iff, Fin.val_ofNat]
  omega

@[simp] theorem fieldR4_eq_iff {r : Reg} : fieldR4 w = r ↔ 16 + w.toNat % 16 = r.val := by
  simp only [fieldR4, field_eq, Fin.ext_iff, Fin.val_ofNat]
  omega

@[simp] theorem fieldD3_eq_iff {d : Reg} : fieldD3 w = d ↔ 16 + w.toNat / 16 % 8 = d.val := by
  simp only [fieldD3, field_eq, Fin.ext_iff, Fin.val_ofNat]
  omega

@[simp] theorem fieldR3_eq_iff {r : Reg} : fieldR3 w = r ↔ 16 + w.toNat % 8 = r.val := by
  simp only [fieldR3, field_eq, Fin.ext_iff, Fin.val_ofNat]
  omega

@[simp] theorem fieldDPair_eq_iff {d : Reg} :
    fieldDPair w = d ↔ 2 * (w.toNat / 16 % 16) = d.val := by
  simp only [fieldDPair, field_eq, Fin.ext_iff, Fin.val_ofNat]
  omega

@[simp] theorem fieldRPair_eq_iff {r : Reg} : fieldRPair w = r ↔ 2 * (w.toNat % 16) = r.val := by
  simp only [fieldRPair, field_eq, Fin.ext_iff, Fin.val_ofNat]
  omega

@[simp] theorem fieldPair2_eq_iff {p : Reg} :
    fieldPair2 w = p ↔ 24 + 2 * (w.toNat / 16 % 4) = p.val := by
  simp only [fieldPair2, field_eq, Fin.ext_iff, Fin.val_ofNat]
  omega

@[simp] theorem fieldK8_eq_iff {k : Byte} :
    fieldK8 w = k ↔ w.toNat / 256 % 16 * 16 + w.toNat % 16 = k.toNat := by
  simp only [fieldK8, field_eq, ← BitVec.toNat_inj, BitVec.toNat_ofNat]
  omega

@[simp] theorem fieldK6_eq_iff {k : BitVec 6} :
    fieldK6 w = k ↔ w.toNat / 64 % 4 * 16 + w.toNat % 16 = k.toNat := by
  simp only [fieldK6, field_eq, ← BitVec.toNat_inj, BitVec.toNat_ofNat]
  omega

@[simp] theorem fieldS_eq_iff {f : BitNo} : fieldS w = f ↔ w.toNat / 16 % 8 = f.val := by
  simp only [fieldS, field_eq, Fin.ext_iff, Fin.val_ofNat]
  omega

@[simp] theorem fieldB_eq_iff {b : BitNo} : fieldB w = b ↔ w.toNat % 8 = b.val := by
  simp only [fieldB, field_eq, Fin.ext_iff, Fin.val_ofNat]
  omega

@[simp] theorem fieldA5_eq_iff {a : Fin 32} : fieldA5 w = a ↔ w.toNat / 8 % 32 = a.val := by
  simp only [fieldA5, field_eq, Fin.ext_iff, Fin.val_ofNat]
  omega

@[simp] theorem fieldA6_eq_iff {a : Fin 64} :
    fieldA6 w = a ↔ w.toNat / 512 % 4 * 16 + w.toNat % 16 = a.val := by
  simp only [fieldA6, field_eq, Fin.ext_iff, Fin.val_ofNat]
  omega

@[simp] theorem fieldQ_eq_iff {q : Fin 64} :
    fieldQ w = q ↔
      w.toNat / 8192 % 2 * 32 + w.toNat / 1024 % 4 * 8 + w.toNat % 8 = q.val := by
  simp only [fieldQ, field_eq, Fin.ext_iff, Fin.val_ofNat, Nat.reduceAdd, Nat.reduceSub,
    Nat.reducePow]
  omega

@[simp] theorem fieldK12_eq_iff {k : BitVec 12} : fieldK12 w = k ↔ w.toNat % 4096 = k.toNat := by
  simp only [fieldK12, field_eq, ← BitVec.toNat_inj, BitVec.toNat_ofNat]
  omega

@[simp] theorem fieldK7_eq_iff {k : BitVec 7} : fieldK7 w = k ↔ w.toNat / 8 % 128 = k.toNat := by
  simp only [fieldK7, field_eq, ← BitVec.toNat_inj, BitVec.toNat_ofNat]
  omega

@[simp] theorem fieldK22_eq_iff {k : Word} {x : BitVec 22} :
    fieldK22 w k = x ↔
      (w.toNat / 16 % 32 * 2 + w.toNat % 2) * 65536 + k.toNat = x.toNat := by
  have := k.isLt
  simp only [fieldK22, field_eq, ← BitVec.toNat_inj, BitVec.toNat_ofNat]
  omega

end Fields

/-! ## Formats (spec R73) -/

/-- The words of an instruction of `n` words, of which `k` is the second if there is one. -/
def wordsOf (n : Nat) (w k : Word) : List Word := if n = 2 then [w, k] else [w]

@[simp] theorem wordsOf_one (w k : Word) : wordsOf 1 w k = [w] := rfl

@[simp] theorem wordsOf_two (w k : Word) : wordsOf 2 w k = [w, k] := rfl

/-- A format of R73 with operands in `α`: the runs of its opcode bits, its length in words, the
operands of a first and second word, the words of operands under an opcode, and the operands that
its fields can name. -/
structure Format (α : Type) where
  opcode : List (Nat × Nat)
  words : Nat
  parse : Word → Word → α
  print : Nat → α → List Word
  valid : α → Bool

/-- Under an opcode `op`, the words that the operands `a` are read from are those that `a` is
written as; operands that the fields cannot name are read from no words. -/
structure Format.Lawful {α : Type} (F : Format α) : Prop where
  descend : runsDescend F.opcode = true
  parse_iff_print : ∀ {op : Nat}, runsOf op F.opcode = op → ∀ (w k : Word) (a : α),
    (runsOf w.toNat F.opcode = op ∧ F.parse w k = a) ↔
      (F.valid a = true ∧ F.print op a = wordsOf F.words w k)

namespace Format

/-! ### The formats, by the names of R73 -/

def rdRr : Format (Reg × Reg) where
  opcode := [(10, 6)]
  words := 1
  parse w _ := (fieldD5 w, fieldR5 w)
  print op a := encRdRr op a.1 a.2
  valid _ := true

def rdK8 : Format (Reg × Byte) where
  opcode := [(12, 4)]
  words := 1
  parse w _ := (fieldD4 w, fieldK8 w)
  print op a := encRdK8 op a.1 a.2
  valid a := isUpper a.1

def rpK6 : Format (Reg × BitVec 6) where
  opcode := [(8, 8)]
  words := 1
  parse w _ := (fieldPair2 w, fieldK6 w)
  print op a := encRpK6 op a.1 a.2
  valid a := isWordPair a.1

def rd : Format Reg where
  opcode := [(9, 7), (0, 4)]
  words := 1
  parse w _ := fieldD5 w
  print := encRd
  valid _ := true

def rd4Rr4 : Format (Reg × Reg) where
  opcode := [(8, 8)]
  words := 1
  parse w _ := (fieldD4 w, fieldR4 w)
  print op a := encRd4Rr4 op a.1 a.2
  valid a := isUpper a.1 && isUpper a.2

def rpRp : Format (Reg × Reg) where
  opcode := [(8, 8)]
  words := 1
  parse w _ := (fieldDPair w, fieldRPair w)
  print op a := encRpRp op a.1 a.2
  valid a := isEven a.1 && isEven a.2

def rd3Rr3 : Format (Reg × Reg) where
  opcode := [(7, 9), (3, 1)]
  words := 1
  parse w _ := (fieldD3 w, fieldR3 w)
  print op a := encRd3Rr3 op a.1 a.2
  valid a := isMiddle a.1 && isMiddle a.2

def s : Format BitNo where
  opcode := [(7, 9), (0, 4)]
  words := 1
  parse w _ := fieldS w
  print := encS
  valid _ := true

def rdB : Format (Reg × BitNo) where
  opcode := [(9, 7), (3, 1)]
  words := 1
  parse w _ := (fieldD5 w, fieldB w)
  print op a := encRdB op a.1 a.2
  valid _ := true

def a5B : Format (Fin 32 × BitNo) where
  opcode := [(8, 8)]
  words := 1
  parse w _ := (fieldA5 w, fieldB w)
  print op a := encA5B op a.1 a.2
  valid _ := true

def rdA6 : Format (Reg × Fin 64) where
  opcode := [(11, 5)]
  words := 1
  parse w _ := (fieldD5 w, fieldA6 w)
  print op a := encRdA6 op a.1 a.2
  valid _ := true

def rdK16 : Format (Reg × Word) where
  opcode := [(9, 7), (0, 4)]
  words := 2
  parse w k := (fieldD5 w, k)
  print op a := encRdK16 op a.1 a.2
  valid _ := true

def rdQ : Format (Reg × Fin 64) where
  opcode := [(14, 2), (12, 1), (9, 1), (3, 1)]
  words := 1
  parse w _ := (fieldD5 w, fieldQ w)
  print op a := encRdQ op a.1 a.2
  valid _ := true

def k12 : Format (BitVec 12) where
  opcode := [(12, 4)]
  words := 1
  parse w _ := fieldK12 w
  print := encK12
  valid _ := true

def k22 : Format (BitVec 22) where
  opcode := [(9, 7), (1, 3)]
  words := 2
  parse := fieldK22
  print := encK22
  valid _ := true

def sK7 : Format (BitNo × BitVec 7) where
  opcode := [(10, 6)]
  words := 1
  parse w _ := (fieldB w, fieldK7 w)
  print op a := encSK7 op a.1 a.2
  valid _ := true

def none : Format Unit where
  opcode := [(0, 16)]
  words := 1
  parse _ _ := ()
  print op _ := encNone op
  valid _ := true

/-! ### Their laws

Each is arithmetic of the digits of the first word: a run of bits is a digit, and the quotients are
nested (`n / 16 / 32` for `n / 512`), so that each is linear in the one before it. -/

/-- The law of a format of one word, as arithmetic of its fields. -/
theorem Lawful.of_pack {α : Type} {F : Format α} {fields : α → Nat}
    (descend : runsDescend F.opcode = true) (words : F.words = 1)
    (print : ∀ op a, F.print op a = [pack op (fields a)])
    (h : ∀ op, runsOf op F.opcode = op → ∀ (w k : Word) (a : α),
      w.toNat < 65536 →
      ((runsOf w.toNat F.opcode = op ∧ F.parse w k = a) ↔
        (F.valid a = true ∧ (op + fields a) % 65536 = w.toNat))) : F.Lawful where
  descend := descend
  parse_iff_print hop w k a := by
    rw [h _ hop w k a w.isLt, print, words, wordsOf_one, List.singleton_inj, pack_eq_iff]

theorem rdRr_lawful : rdRr.Lawful := by
  refine .of_pack rfl rfl (fun _ _ => rfl) fun op hop w k ⟨d, r⟩ hw => ?_
  have h9 (n : Nat) : n / 512 = n / 16 / 32 := by omega
  have h10 (n : Nat) : n / 1024 = n / 16 / 32 / 2 := by omega
  simp only [Nat.reducePow, rdRr, runsOf, Prod.mk.injEq, fieldD5_eq_iff, fieldR5_eq_iff, true_and,
    h9, h10] at hop ⊢
  simp (disch := omega) only [Nat.mod_eq_of_lt]
  omega

theorem rdK8_lawful : rdK8.Lawful := by
  refine .of_pack rfl rfl (fun _ _ => rfl) fun op hop w k ⟨d, x⟩ hw => ?_
  have h8 (n : Nat) : n / 256 = n / 16 / 16 := by omega
  have h12 (n : Nat) : n / 4096 = n / 16 / 16 / 16 := by omega
  simp only [Nat.reducePow, rdK8, runsOf, Prod.mk.injEq, fieldD4_eq_iff, fieldK8_eq_iff, isUpper,
    decide_eq_true_eq, h8, h12] at hop ⊢
  simp (disch := omega) only [Nat.mod_eq_of_lt]
  omega

theorem rpK6_lawful : rpK6.Lawful := by
  refine .of_pack rfl rfl (fun _ _ => rfl) fun op hop w k ⟨p, x⟩ hw => ?_
  have h6 (n : Nat) : n / 64 = n / 16 / 4 := by omega
  have h8 (n : Nat) : n / 256 = n / 16 / 4 / 4 := by omega
  simp only [Nat.reducePow, rpK6, runsOf, Prod.mk.injEq, fieldPair2_eq_iff, fieldK6_eq_iff,
    isWordPair, Bool.and_eq_true, decide_eq_true_eq, beq_iff_eq, h6, h8] at hop ⊢
  simp (disch := omega) only [Nat.mod_eq_of_lt]
  omega

theorem rd_lawful : rd.Lawful := by
  refine .of_pack rfl rfl (fun _ _ => rfl) fun op hop w k d hw => ?_
  have h9 (n : Nat) : n / 512 = n / 16 / 32 := by omega
  simp only [Nat.reducePow, rd, runsOf, fieldD5_eq_iff, true_and, Nat.div_one, h9] at hop ⊢
  simp (disch := omega) only [Nat.mod_eq_of_lt]
  omega

theorem rd4Rr4_lawful : rd4Rr4.Lawful := by
  refine .of_pack rfl rfl (fun _ _ => rfl) fun op hop w k ⟨d, r⟩ hw => ?_
  have h8 (n : Nat) : n / 256 = n / 16 / 16 := by omega
  simp only [Nat.reducePow, rd4Rr4, runsOf, Prod.mk.injEq, fieldD4_eq_iff, fieldR4_eq_iff, isUpper,
    Bool.and_eq_true, decide_eq_true_eq, h8] at hop ⊢
  simp (disch := omega) only [Nat.mod_eq_of_lt]
  omega

theorem rpRp_lawful : rpRp.Lawful := by
  refine .of_pack rfl rfl (fun _ _ => rfl) fun op hop w k ⟨d, r⟩ hw => ?_
  have h8 (n : Nat) : n / 256 = n / 16 / 16 := by omega
  simp only [Nat.reducePow, rpRp, runsOf, Prod.mk.injEq, fieldDPair_eq_iff, fieldRPair_eq_iff,
    isEven, Bool.and_eq_true, beq_iff_eq, h8] at hop ⊢
  simp (disch := omega) only [Nat.mod_eq_of_lt]
  omega

theorem rd3Rr3_lawful : rd3Rr3.Lawful := by
  refine .of_pack rfl rfl (fun _ _ => rfl) fun op hop w k ⟨d, r⟩ hw => ?_
  have h4 (n : Nat) : n / 16 = n / 8 / 2 := by omega
  have h7 (n : Nat) : n / 128 = n / 8 / 2 / 8 := by omega
  simp only [Nat.reducePow, rd3Rr3, runsOf, Prod.mk.injEq, fieldD3_eq_iff, fieldR3_eq_iff,
    isMiddle, Bool.and_eq_true, decide_eq_true_eq, h4, h7] at hop ⊢
  simp (disch := omega) only [Nat.mod_eq_of_lt]
  omega

theorem s_lawful : s.Lawful := by
  refine .of_pack rfl rfl (fun _ _ => rfl) fun op hop w k f hw => ?_
  have h7 (n : Nat) : n / 128 = n / 16 / 8 := by omega
  simp only [Nat.reducePow, s, runsOf, fieldS_eq_iff, true_and, Nat.div_one, h7] at hop ⊢
  simp (disch := omega) only [Nat.mod_eq_of_lt]
  omega

theorem rdB_lawful : rdB.Lawful := by
  refine .of_pack rfl rfl (fun _ _ => rfl) fun op hop w k ⟨d, b⟩ hw => ?_
  have h4 (n : Nat) : n / 16 = n / 8 / 2 := by omega
  have h9 (n : Nat) : n / 512 = n / 8 / 2 / 32 := by omega
  simp only [Nat.reducePow, rdB, runsOf, Prod.mk.injEq, fieldD5_eq_iff, fieldB_eq_iff, true_and,
    h4, h9] at hop ⊢
  simp (disch := omega) only [Nat.mod_eq_of_lt]
  omega

theorem a5B_lawful : a5B.Lawful := by
  refine .of_pack rfl rfl (fun _ _ => rfl) fun op hop w k ⟨a, b⟩ hw => ?_
  have h8 (n : Nat) : n / 256 = n / 8 / 32 := by omega
  simp only [Nat.reducePow, a5B, runsOf, Prod.mk.injEq, fieldA5_eq_iff, fieldB_eq_iff, true_and,
    h8] at hop ⊢
  simp (disch := omega) only [Nat.mod_eq_of_lt]
  omega

theorem rdA6_lawful : rdA6.Lawful := by
  refine .of_pack rfl rfl (fun _ _ => rfl) fun op hop w k ⟨d, a⟩ hw => ?_
  have h9 (n : Nat) : n / 512 = n / 16 / 32 := by omega
  have h11 (n : Nat) : n / 2048 = n / 16 / 32 / 4 := by omega
  simp only [Nat.reducePow, rdA6, runsOf, Prod.mk.injEq, fieldD5_eq_iff, fieldA6_eq_iff, true_and,
    h9, h11] at hop ⊢
  simp (disch := omega) only [Nat.mod_eq_of_lt]
  omega

theorem k12_lawful : k12.Lawful := by
  refine .of_pack rfl rfl (fun _ _ => rfl) fun op hop w k x hw => ?_
  simp only [Nat.reducePow, k12, runsOf, fieldK12_eq_iff, true_and] at hop ⊢
  simp (disch := omega) only [Nat.mod_eq_of_lt]
  omega

theorem sK7_lawful : sK7.Lawful := by
  refine .of_pack rfl rfl (fun _ _ => rfl) fun op hop w k ⟨f, x⟩ hw => ?_
  have h10 (n : Nat) : n / 1024 = n / 8 / 128 := by omega
  simp only [Nat.reducePow, sK7, runsOf, Prod.mk.injEq, fieldB_eq_iff, fieldK7_eq_iff, true_and,
    h10] at hop ⊢
  simp (disch := omega) only [Nat.mod_eq_of_lt]
  omega

theorem none_lawful : none.Lawful := by
  refine .of_pack rfl rfl (fun _ _ => rfl) fun op hop w k _ hw => ?_
  simp only [Nat.reducePow, none, runsOf, Nat.div_one, and_true, true_and] at hop ⊢
  omega

theorem rdK16_lawful : rdK16.Lawful := by
  refine ⟨rfl, fun hop w k ⟨d, x⟩ => ?_⟩
  have h := rd_lawful.parse_iff_print hop w k d
  simp only [rd, encRd, wordsOf_one, List.singleton_inj, true_and] at h
  simp only [rdK16, encRdK16, wordsOf_two, List.cons.injEq, and_true, true_and, Prod.mk.injEq,
    ← h, eq_comm (a := k), and_assoc]

/-- The digits of a word of format `RdQ`. Its opcode bits and its displacement lie in several runs,
too many for one system of inequalities, so the digits are compared one group at a time. -/
theorem rdQ_digits {n a x b y c d e z : Nat} (hx : x < 2) (hb : b < 2) (hy : y < 4) (hc : c < 2)
    (hd : d < 32) (he : e < 2) (hz : z < 8) :
    16384 * a + 8192 * x + 4096 * b + 1024 * y + 512 * c + 16 * d + 8 * e + z = n ↔
      n / 16384 = a ∧ n / 8192 % 2 = x ∧ n / 4096 % 2 = b ∧ n / 1024 % 4 = y ∧
        n / 512 % 2 = c ∧ n / 16 % 32 = d ∧ n / 8 % 2 = e ∧ n % 8 = z := by
  constructor
  · intro h
    refine ⟨?_, ?_, ?_, ?_, ?_, ?_, ?_, ?_⟩ <;> omega
  · have h4 : n / 16 = n / 8 / 2 := by omega
    have h9 : n / 512 = n / 16 / 32 := by omega
    have h10 : n / 1024 = n / 512 / 2 := by omega
    have h12 : n / 4096 = n / 1024 / 4 := by omega
    have h13 : n / 8192 = n / 4096 / 2 := by omega
    have h14 : n / 16384 = n / 8192 / 2 := by omega
    omega

theorem rdQ_opcode_digits {A B C E a b c e : Nat} (hB : B < 2) (hC : C < 2) (hE : E < 2)
    (hb : b < 2) (hc : c < 2) (he : e < 2) :
    16384 * A + (4096 * B + (512 * C + 8 * E)) = 16384 * a + 4096 * b + 512 * c + 8 * e ↔
      A = a ∧ B = b ∧ C = c ∧ E = e := by
  omega

theorem rdQ_displacement_digits {x y z q : Nat} (hy : y < 4) (hz : z < 8) :
    x * 32 + y * 8 + z = q ↔ x = q / 32 ∧ y = q / 8 % 4 ∧ z = q % 8 := by
  omega

theorem rdQ_lawful : rdQ.Lawful := by
  refine .of_pack rfl rfl (fun _ _ => rfl) fun op hop w k ⟨d, q⟩ hw => ?_
  have hmod (n : Nat) : n % 2 < 2 := by omega
  obtain ⟨a, b, c, e, ha, hb, hc, he, rfl⟩ : ∃ a b c e, a < 4 ∧ b < 2 ∧ c < 2 ∧ e < 2 ∧
      op = 16384 * a + 4096 * b + 512 * c + 8 * e := by
    simp only [rdQ, runsOf] at hop
    exact ⟨op / 16384 % 4, op / 4096 % 2, op / 512 % 2, op / 8 % 2, by omega⟩
  have hsum : (16384 * a + 4096 * b + 512 * c + 8 * e +
      (q.val / 32 * 8192 + q.val / 8 % 4 * 1024 + d.val * 16 + q.val % 8)) % 65536 =
      16384 * a + 8192 * (q / 32) + 4096 * b + 1024 * (q / 8 % 4) + 512 * c + 16 * d + 8 * e +
        q % 8 := by omega
  simp only [Nat.reducePow, pow_one, add_zero, rdQ, runsOf, Prod.mk.injEq, fieldD5_eq_iff,
    fieldQ_eq_iff, true_and]
  rw [hsum, rdQ_digits (by omega) hb (by omega) hc d.isLt he (by omega),
    rdQ_opcode_digits (hmod _) (hmod _) (hmod _) hb hc he,
    rdQ_displacement_digits (by omega) (by omega),
    Nat.mod_eq_of_lt (show w.toNat / 16384 < 4 by omega)]
  tauto

theorem k22_lawful : k22.Lawful := by
  refine ⟨rfl, fun hop w k x => ?_⟩
  have h4 (n : Nat) : n / 16 = n / 2 / 8 := by omega
  have h9 (n : Nat) : n / 512 = n / 2 / 8 / 32 := by omega
  have := w.isLt
  have := k.isLt
  have := x.isLt
  simp only [Nat.reducePow, pow_one, add_zero, k22, runsOf, fieldK22_eq_iff, encK22, wordsOf_two,
    List.cons.injEq, and_true, true_and, pack_eq_iff, ← BitVec.toNat_inj (x := BitVec.ofNat _ _),
    BitVec.toNat_ofNat, h4, h9] at hop ⊢
  simp (disch := omega) only [Nat.mod_eq_of_lt]
  omega

end Format

/-! ## Rows and instructions (spec R77) -/

theorem Instr.ctorIdx_lt (i : Instr) : i.ctorIdx < opcodeTable.length := by
  cases i <;> exact Nat.le_of_ble_eq_true rfl

/-- The row of an instruction: the rows of R77 stand in the order of the constructors. -/
def Instr.row (i : Instr) : Row := opcodeTable[i.ctorIdx]'i.ctorIdx_lt

theorem Instr.row_mem (i : Instr) : i.row ∈ opcodeTable := List.getElem_mem _

theorem ctorIdx_build (w k : Word) :
    opcodeTable.map (fun row => (row.build w k).ctorIdx) = List.range opcodeTable.length := by
  with_unfolding_all rfl

/-- What a row builds is an instruction of that row. -/
theorem row_build {row : Row} (h : row ∈ opcodeTable) (w k : Word) :
    (row.build w k).row = row := by
  obtain ⟨n, hn, rfl⟩ := List.mem_iff_getElem.1 h
  have hidx : (opcodeTable[n].build w k).ctorIdx = n := by
    simpa [hn] using congrArg (·[n]?) (ctorIdx_build w k)
  simp only [Instr.row, hidx]

theorem Row.selects_iff {row : Row} {w : Word} :
    row.selects w = true ↔ w.toNat &&& row.mask = row.bits := by
  simp [Row.selects]

/-- The law of an instruction in its row: what the row builds is written as the words that it is
built from, and the words that the instruction is written as select the row and build the instruction. -/
structure Row.Encodes (row : Row) (i : Instr) : Prop where
  of_selects : ∀ {w} k, row.selects w = true →
    (row.build w k).wellFormed = true ∧ encode (row.build w k) = wordsOf row.words w k
  of_encode : ∀ {w k}, i.wellFormed = true → encode i = wordsOf row.words w k →
    row.selects w = true ∧ row.build w k = i

section Formats

variable {α β : Type} {name : String} {op : Nat}

/-- A row takes its law from its format. -/
theorem Format.Lawful.encodes {F : Format α} (hF : F.Lawful) {con : α → Instr}
    (hop : runsOf op F.opcode = op) (hwf : ∀ a, (con a).wellFormed = F.valid a)
    (henc : ∀ a, encode (con a) = F.print op a) (a : α) :
    Row.Encodes ⟨name, op, runsMask F.opcode, F.words, fun w k => con (F.parse w k)⟩ (con a) := by
  have hmask (w : Word) := land_runsMask hF.descend w.toNat
  constructor <;> simp only [Row.selects_iff, hmask, hwf, henc]
  · exact fun k h => (hF.parse_iff_print hop _ k _).1 ⟨h, rfl⟩
  · exact fun hv hp => ((hF.parse_iff_print hop _ _ a).2 ⟨hv, hp⟩).imp_right (congrArg con)

theorem Format.Lawful.encodes₂ {F : Format (α × β)} (hF : F.Lawful) {con : α → β → Instr}
    (hop : runsOf op F.opcode = op) (hwf : ∀ a b, (con a b).wellFormed = F.valid (a, b))
    (henc : ∀ a b, encode (con a b) = F.print op (a, b)) (a : α) (b : β) :
    Row.Encodes ⟨name, op, runsMask F.opcode, F.words,
      fun w k => con (F.parse w k).1 (F.parse w k).2⟩ (con a b) :=
  hF.encodes (con := fun p => con p.1 p.2) hop (fun _ => hwf _ _) (fun _ => henc _ _) (a, b)

end Formats

open Format in
/-- Every instruction has the law of its row, which is that of its format. -/
theorem Instr.row_encodes (i : Instr) : i.row.Encodes i := by
  cases i with
  | add d r | adc d r | sub d r | sbc d r | cp d r | cpc d r | and d r | or d r | eor d r | mul d r
  | mov d r | cpse d r =>
    exact rdRr_lawful.encodes₂ rfl (fun _ _ => rfl) (fun _ _ => rfl) d r
  | subi d k | sbci d k | cpi d k | andi d k | ori d k | ldi d k =>
    exact rdK8_lawful.encodes₂ rfl (fun _ _ => rfl) (fun _ _ => rfl) d k
  | adiw p k | sbiw p k =>
    exact rpK6_lawful.encodes₂ rfl (fun _ _ => rfl) (fun _ _ => rfl) p k
  | neg d | inc d | dec d | com d | lsr d | ror d | asr d | swap d | push d | pop d
  | ldX d | ldXInc d | ldXDec d | ldYInc d | ldYDec d | ldZInc d | ldZDec d
  | stX d | stXInc d | stXDec d | stYInc d | stYDec d | stZInc d | stZDec d
  | xch d | las d | lac d | lat d | lpmZ d | lpmZInc d | elpmZ d | elpmZInc d =>
    exact rd_lawful.encodes rfl (fun _ => rfl) (fun _ => rfl) d
  | muls d r => exact rd4Rr4_lawful.encodes₂ rfl (fun _ _ => rfl) (fun _ _ => rfl) d r
  | mulsu d r | fmul d r | fmuls d r | fmulsu d r =>
    exact rd3Rr3_lawful.encodes₂ rfl (fun _ _ => rfl) (fun _ _ => rfl) d r
  | movw d r => exact rpRp_lawful.encodes₂ rfl (fun _ _ => rfl) (fun _ _ => rfl) d r
  | bset f | bclr f => exact s_lawful.encodes rfl (fun _ => rfl) (fun _ => rfl) f
  | bst d b | bld d b | sbrc d b | sbrs d b =>
    exact rdB_lawful.encodes₂ rfl (fun _ _ => rfl) (fun _ _ => rfl) d b
  | sbi a b | cbi a b | sbic a b | sbis a b =>
    exact a5B_lawful.encodes₂ rfl (fun _ _ => rfl) (fun _ _ => rfl) a b
  | inp d a => exact rdA6_lawful.encodes₂ rfl (fun _ _ => rfl) (fun _ _ => rfl) d a
  | out a r =>
    exact rdA6_lawful.encodes₂ (con := fun r a => .out a r) rfl (fun _ _ => rfl) (fun _ _ => rfl)
      r a
  | lds d k => exact rdK16_lawful.encodes₂ rfl (fun _ _ => rfl) (fun _ _ => rfl) d k
  | sts k r =>
    exact rdK16_lawful.encodes₂ (con := fun r k => .sts k r) rfl (fun _ _ => rfl) (fun _ _ => rfl)
      r k
  | lddY d q | lddZ d q => exact rdQ_lawful.encodes₂ rfl (fun _ _ => rfl) (fun _ _ => rfl) d q
  | stdY q r =>
    exact rdQ_lawful.encodes₂ (con := fun r q => .stdY q r) rfl (fun _ _ => rfl) (fun _ _ => rfl)
      r q
  | stdZ q r =>
    exact rdQ_lawful.encodes₂ (con := fun r q => .stdZ q r) rfl (fun _ _ => rfl) (fun _ _ => rfl)
      r q
  | rjmp k | rcall k => exact k12_lawful.encodes rfl (fun _ => rfl) (fun _ => rfl) k
  | jmp k | call k => exact k22_lawful.encodes rfl (fun _ => rfl) (fun _ => rfl) k
  | brbs f k | brbc f k => exact sK7_lawful.encodes₂ rfl (fun _ _ => rfl) (fun _ _ => rfl) f k
  | lpmR0 | elpmR0 | spm | spmZInc | ijmp | eijmp | icall | eicall | ret | reti | nop | sleep | wdr
  | brk =>
    exact none_lawful.encodes (con := fun _ => _) rfl (fun _ => rfl) (fun _ => rfl) ()

/-! ## Decoding is the inverse of encoding -/

section Inverse

variable {w k : Word} {i : Instr}

/-- Both round trips in one equivalence. -/
theorem decode_eq_ok_iff :
    decode w k = .ok i ↔ i.wellFormed = true ∧ encode i = wordsOf i.row.words w k := by
  constructor
  · intro h
    obtain ⟨row, hmem, hsel, rfl⟩ := decode_eq_ok h
    have hlaw := (row.build w k).row_encodes
    rw [row_build hmem] at hlaw ⊢
    exact hlaw.of_selects k hsel
  · rintro ⟨hwf, henc⟩
    obtain ⟨hsel, hbuild⟩ := i.row_encodes.of_encode hwf henc
    rw [decode_row i.row_mem k hsel, hbuild]

/-- The words of an encoding are as many as its row says. -/
theorem encode_eq_wordsOf (i : Instr) (k : Word) :
    encode i = wordsOf i.row.words ((encode i).getD 0 0) ((encode i).getD 1 k) := by
  cases i <;> rfl

theorem decode_encode (h : i.wellFormed = true) (k : Word) :
    decode ((encode i).getD 0 0) ((encode i).getD 1 k) = .ok i :=
  decode_eq_ok_iff.2 ⟨h, encode_eq_wordsOf i k⟩

/-! ## The instructions of two words (spec R70, R80) -/

/-- The rows of two words. -/
theorem twoWordRows :
    opcodeTable.filter (·.words == 2) =
      [Instr.row (.lds 0 0), Instr.row (.sts 0 0), Instr.row (.jmp 0), Instr.row (.call 0)] := by
  with_unfolding_all rfl

/-- `isTwoWord` is the test of the four rows of two words. -/
theorem isTwoWord_iff_selects :
    isTwoWord w = true ↔
      (Instr.row (.lds 0 0)).selects w = true ∨ (Instr.row (.sts 0 0)).selects w = true ∨
        (Instr.row (.call 0)).selects w = true ∨ (Instr.row (.jmp 0)).selects w = true := by
  simp only [isTwoWord, Row.selects_iff, Bool.or_eq_true, beq_iff_eq, ← BitVec.toNat_inj,
    BitVec.toNat_and, or_assoc]
  exact Iff.rfl

theorem isTwoWord_iff_exists_row :
    isTwoWord w = true ↔ ∃ row ∈ opcodeTable, row.words = 2 ∧ row.selects w = true := by
  have hrows (row : Row) : row ∈ opcodeTable ∧ row.words = 2 ↔ row ∈
      [Instr.row (.lds 0 0), Instr.row (.sts 0 0), Instr.row (.jmp 0), Instr.row (.call 0)] := by
    rw [← twoWordRows, List.mem_filter, beq_iff_eq]
  simp only [← and_assoc, hrows]
  simp only [isTwoWord_iff_selects, List.exists_mem_cons_iff, List.not_mem_nil, false_and,
    exists_false, or_false, or_comm (b := (Instr.row (.jmp 0)).selects w = true)]

/-- On a word that decodes, `isTwoWord` is the length of the row. -/
theorem isTwoWord_iff_words (h : decode w k = .ok i) : isTwoWord w = true ↔ i.row.words = 2 := by
  obtain ⟨row, hmem, hsel, rfl⟩ := decode_eq_ok h
  rw [row_build hmem, isTwoWord_iff_exists_row]
  refine ⟨fun ⟨other, hother, hwords, hselects⟩ => ?_, fun hwords => ⟨row, hmem, hwords, hsel⟩⟩
  have heq : other = row := by
    have hfind := find_of_selects opcodeTable_apart hother hselects
    rwa [find_of_selects opcodeTable_apart hmem hsel, Option.some_inj, eq_comm] at hfind
  rwa [← heq]

theorem wordsOf_of_decode (h : decode w k = .ok i) :
    wordsOf i.row.words w k = if isTwoWord w then [w, k] else [w] := by
  simp only [wordsOf, isTwoWord_iff_words h]

/-- An instruction of one word is decoded whatever word follows it. -/
theorem decode_of_oneWord (h : decode w k = .ok i) (h1 : isTwoWord w = false) (k' : Word) :
    decode w k' = .ok i := by
  have hwords : i.row.words ≠ 2 := by simp [← isTwoWord_iff_words h, h1]
  have hiff := decode_eq_ok_iff.1 h
  rw [wordsOf, if_neg hwords] at hiff
  rwa [decode_eq_ok_iff, wordsOf, if_neg hwords]

/-- The second word is the low 16 bits of a target (spec R75). -/
theorem fieldK22_mod (w k : Word) : (fieldK22 w k).toNat % 65536 = k.toNat := by
  have hk := k.isLt
  have h := (fieldK22_eq_iff (w := w) (k := k)).1 rfl
  omega

/-! ## Bytes (spec R53) -/

theorem highByte_append_lowByte (w : Word) : highByte w ++ lowByte w = w := by
  rw [highByte, lowByte,
    BitVec.extractLsb'_append_extractLsb'_eq_extractLsb' (start₁ := 0) (start₂ := 8) rfl]
  exact BitVec.extractLsb'_eq_self

theorem decodeBytes_of_decode (h : decode w k = .ok i) (rest : List Byte) :
    decodeBytes ((wordsOf i.row.words w k).flatMap (fun w => [lowByte w, highByte w]) ++ rest) =
      .ok (i, rest) := by
  rw [wordsOf_of_decode h]
  cases h1 : isTwoWord w with
  | true => simp [decodeBytes, highByte_append_lowByte, h1, h, Except.map]
  | false =>
    simp [decodeBytes, highByte_append_lowByte, h1, decode_of_oneWord h h1, Except.map]

end Inverse

/-! ## The statements -/

/-- Settles O35, by `decode_eq_ok_iff` read from right to left. -/
theorem decodeInvertsEncode : Obligations.DecodeInvertsEncode := by
  intro i hwf
  refine ⟨decode_encode hwf, fun rest => ?_⟩
  rw [encode_eq_wordsOf i 0]
  exact decodeBytes_of_decode (decode_encode hwf 0) rest

/-- Settles O36, by `decode_eq_ok_iff` read from left to right. -/
theorem encodeInvertsDecode : Obligations.EncodeInvertsDecode := by
  intro w k i h
  rw [← wordsOf_of_decode h]
  exact decode_eq_ok_iff.1 h

/-- Settles O37: the rows of two words are those of LDS, STS, CALL and JMP. -/
theorem twoWordInstructions : Obligations.TwoWordInstructions := by
  intro w k
  constructor
  · intro h
    obtain h | h | h | h := isTwoWord_iff_selects.1 h
    · exact .inl ⟨fieldD5 w, decode_row (Instr.row_mem _) k h⟩
    · exact .inr (.inl ⟨fieldD5 w, decode_row (Instr.row_mem _) k h⟩)
    · exact .inr (.inr (.inr
        ⟨fieldK22 w k, decode_row (Instr.row_mem _) k h, fieldK22_mod w k⟩))
    · exact .inr (.inr (.inl
        ⟨fieldK22 w k, decode_row (Instr.row_mem _) k h, fieldK22_mod w k⟩))
  · rintro (⟨d, h⟩ | ⟨r, h⟩ | ⟨x, h, -⟩ | ⟨x, h, -⟩) <;> exact (isTwoWord_iff_words h).2 rfl

/-- Settles O38: each word, looked up in the table. -/
theorem exampleWordsDecode : Obligations.ExampleWordsDecode :=
  ⟨rfl, rfl, rfl, rfl, rfl, rfl, rfl, rfl, rfl, rfl, rfl, rfl, rfl, rfl, rfl⟩

end Sys2Proof
end

section
/-!
PROOF. A step runs the instruction that the decoder gives for the words at `pc` (spec R52, R88,
R321).
-/

namespace Sys2Proof.Machine

variable {s : State}

/-- The fetch reads a second word only where the first asks for one. -/
theorem fetch_eq_ok {i : Instr} (hpc : s.pc < s.progWords)
    (hnext : isTwoWord (Cells.read s.prog s.pc) = true → s.pc + 1 < s.progWords)
    (h : decode (Cells.read s.prog s.pc) (Cells.read s.prog (s.pc + 1)) = .ok i) :
    fetch s = .next (.ok i) := by
  rw [fetch, progWord_next hpc, andThen_next]
  cases h1 : isTwoWord (Cells.read s.prog s.pc) with
  | true => rw [if_pos rfl, progWord_next (hnext h1), andThen_next, h]
  | false => rw [if_neg Bool.false_ne_true, decode_of_oneWord h h1]

theorem fetch_fault_of_last (h1 : isTwoWord (Cells.read s.prog s.pc) = true)
    (hlast : s.pc + 1 = s.progWords) :
    fetch s = .fault (.progAddressOutOfRange s.progWords) := by
  rw [fetch, progWord_next (by omega), andThen_next, if_pos h1, progWord_fault hlast.ge,
    andThen_fault, hlast]

theorem whenRunning_running {α : Type} {f : State → Res α} (h : s.status = .running) :
    whenRunning s f = f s := by
  rw [whenRunning, h]

/-- Settles O39, by what the fetch gives in each of the two cases. -/
theorem stepRunsTheDecodedInstruction : Obligations.StepRunsTheDecodedInstruction := by
  intro s hrun hpc
  refine ⟨fun i hnext h => ?_, fun h1 hlast => ?_⟩
  · rw [step, stepInstr, whenRunning_running hrun, fetch_eq_ok hpc hnext h, andThen_next,
      execDecoded]
  · rw [step, stepInstr, whenRunning_running hrun, fetch_fault_of_last h1 hlast, andThen_fault,
      andThen_fault]

end Sys2Proof.Machine
end


section
/-!
PROOF. The arithmetic and compare instructions: the result, the flags that are written, and those
that are kept (spec R100 to R116).

Each family is brought to one form (a tail of the model with the result and its flag computation);
the flags are then read off `bit_addFlags` and its companions.
-/

namespace Sys2Proof.Machine

variable {s t : State}

/-! ## Costs on this core (spec R372) -/

theorem Costs.of_table {i : Instr} {f : CostTable → Nat} (h : costOf s i = f s.params.cost) :
    Costs s i (f .standard) := fun hc => by rw [h, hc.cost]

/-! ## Which flags a computation can change (spec R15) -/

theorem FlagsKept.of_putHSVNZC {h v n z c : Bool}
    (hf : ∀ j, t.flag j = bit (putHSVNZC h v n z c s.sreg) j) :
    FlagsKept s t [flagH, flagS, flagV, flagN, flagZ, flagC] := by
  intro j hj
  simp only [List.mem_cons, List.not_mem_nil, or_false, not_or] at hj
  rw [hf, bit_putHSVNZC]
  simp [hj, State.flag]

theorem FlagsKept.of_putSVNZC {v n z c : Bool}
    (hf : ∀ j, t.flag j = bit (putSVNZC v n z c s.sreg) j) :
    FlagsKept s t [flagS, flagV, flagN, flagZ, flagC] := by
  intro j hj
  simp only [List.mem_cons, List.not_mem_nil, or_false, not_or] at hj
  rw [hf, bit_putSVNZC]
  simp [hj, State.flag]

theorem FlagsKept.of_putSVNZ {v n z : Bool} (hf : ∀ j, t.flag j = bit (putSVNZ v n z s.sreg) j) :
    FlagsKept s t [flagS, flagV, flagN, flagZ] := by
  intro j hj
  simp only [List.mem_cons, List.not_mem_nil, or_false, not_or] at hj
  rw [hf, bit_putSVNZ]
  simp [hj, State.flag]

/-- The form of S that every rule gives, where the new N and V are known. -/
theorem sign_eq_xor {n v : Bool} (hN : t.flag flagN = n) (hV : t.flag flagV = v)
    (hS : t.flag flagS = (n ^^ v)) : t.flag flagS = (t.flag flagN ^^ t.flag flagV) := by
  rw [hN, hV, hS]

/-! ## Results as numbers -/

theorem beq_eq_decide_toNat {n : Nat} (x y : BitVec n) : (x == y) = decide (x.toNat = y.toNat) := by
  rw [Bool.eq_iff_iff, beq_iff_eq, decide_eq_true_eq, BitVec.toNat_inj]

theorem add_bitByte_false (x : Byte) : x + bitByte false = x := add_zero x

theorem sub_bitByte_false (x : Byte) : x - bitByte false = x := sub_zero x

theorem sum_toNat (a b : Byte) (c : Bool) :
    (a + b + bitByte c).toNat = (a.toNat + b.toNat + c.toNat) % 256 := by
  rw [BitVec.toNat_add, BitVec.toNat_add, bitByte_toNat, Nat.mod_add_mod]

theorem difference_toNat (a b : Byte) (c : Bool) :
    ((a - b - bitByte c).toNat : Int) = ((a.toNat : Int) - b.toNat - c.toNat) % 256 := by
  have hb := b.isLt
  have hc := Bool.toNat_le c
  rw [BitVec.toNat_sub, BitVec.toNat_sub, bitByte_toNat]
  omega

theorem difference_beq_zero (a b : Byte) (c : Bool) :
    (a - b - bitByte c == 0) = decide (((a.toNat : Int) - b.toNat - c.toNat) % 256 = 0) := by
  rw [← difference_toNat, beq_eq_decide_toNat]
  exact_mod_cast rfl

theorem wordSum_toNat (v : Word) (k : BitVec 6) :
    (v + k.setWidth 16).toNat = (v.toNat + k.toNat) % 65536 := by
  rw [BitVec.toNat_add, BitVec.toNat_setWidth_of_le (by decide)]

theorem wordDifference_toNat (v : Word) (k : BitVec 6) :
    ((v - k.setWidth 16).toNat : Int) = ((v.toNat : Int) - k.toNat) % 65536 := by
  have hk := k.isLt
  rw [BitVec.toNat_sub, BitVec.toNat_setWidth_of_le (by decide)]
  omega

theorem negation_toNat (a : Byte) : (0 - a).toNat = (256 - a.toNat) % 256 := by
  rw [zero_sub, BitVec.toNat_neg]

theorem increment_toNat (a : Byte) : (a + 1).toNat = (a.toNat + 1) % 256 := BitVec.toNat_add a 1

theorem decrement_toNat (a : Byte) : (a - 1).toNat = (a.toNat + 255) % 256 := by
  rw [BitVec.toNat_sub, Nat.add_comm]; rfl

/-! ## Addition (spec R100, R103, R104) -/

theorem SumFlags.of_addFlags {a b g : Byte} {c : Bool}
    (hf : ∀ j, t.flag j = bit (addFlags a b (a + b + bitByte c) g) j) : SumFlags a b c t := by
  have hflag j := (hf j).trans (bit_addFlags ..)
  refine ⟨hflag flagH, hflag flagV, ?_, ?_, hflag flagC, ?_⟩
  · exact sum_toNat a b c ▸ (hflag flagN).trans (bit_seven _)
  · exact sum_toNat a b c ▸ (hflag flagZ).trans (beq_eq_decide_toNat _ 0)
  · exact sign_eq_xor (hflag flagN) (hflag flagV) (hflag flagS)

/-- ADD is the addition without carry, ADC the one with the old C. -/
theorem exec_addition {d r : Reg} {i : Instr} {c : Bool}
    (hi : (i, c) ∈ [(.add d r, false), (.adc d r, s.flag flagC)]) :
    exec i s = writeResult (costOf s i) d (s.reg d + s.reg r + bitByte c)
      (addFlags (s.reg d) (s.reg r) (s.reg d + s.reg r + bitByte c)) s ∧ Costs s i 1 := by
  simp only [List.mem_cons, List.not_mem_nil, or_false, Prod.mk.injEq] at hi
  obtain ⟨rfl, rfl⟩ | ⟨rfl, rfl⟩ := hi
  · exact ⟨by rw [add_bitByte_false]; rfl, .of_table (f := (·.add)) rfl⟩
  · exact ⟨rfl, .of_table (f := (·.adc)) rfl⟩

/-- Settles O1: both are one addition with a carry in. -/
theorem additionWritesSumAndFlags : Obligations.AdditionWritesSumAndFlags := by
  intro s d r i c hi
  obtain ⟨hexec, hcost⟩ := exec_addition hi
  obtain ⟨t, ht, hR, hf, hnext, hframe⟩ := writeResult_spec (costOf s i) d
    (s.reg d + s.reg r + bitByte c) (addFlags (s.reg d) (s.reg r) (s.reg d + s.reg r + bitByte c)) s
  exact ⟨t, hexec.trans ht, hR ▸ sum_toNat _ _ c, .of_addFlags hf, ⟨hnext, hcost⟩, hframe,
    .of_putHSVNZC hf⟩

/-! ## Subtraction and compare (spec R101, R106 to R109, R111 to R113) -/

/-- Where Z is kept, it stays set only if it was set before. -/
theorem DifferenceFlags.of_subFlags {a b : Byte} {c keepZ : Bool}
    (hf : ∀ j, t.flag j = bit (subFlags a b (a - b - bitByte c) keepZ s.sreg) j) :
    DifferenceFlags a b c (!keepZ || s.flag flagZ) t := by
  have hflag j := (hf j).trans (bit_subFlags ..)
  refine ⟨hflag flagH, hflag flagV, ?_, ?_, hflag flagC, ?_⟩
  · rw [← difference_toNat]
    exact_mod_cast (hflag flagN).trans (bit_seven _)
  · cases keepZ with
    | false => exact (hflag flagZ).trans ((difference_beq_zero a b c).trans (Bool.and_true _).symm)
    | true => exact (hflag flagZ).trans (congrArg (· && _) (difference_beq_zero a b c))
  · exact sign_eq_xor (hflag flagN) (hflag flagV) (hflag flagS)

/-- SUB, SUBI, SBC and SBCI are one subtraction with a borrow; SBC and SBCI keep Z. -/
theorem exec_subtraction {d r : Reg} {k b : Byte} {i : Instr} {c z : Bool}
    (hi : (i, b, c, z) ∈
      [(.sub d r, s.reg r, false, true), (.subi d k, k, false, true),
        (.sbc d r, s.reg r, s.flag flagC, s.flag flagZ),
        (.sbci d k, k, s.flag flagC, s.flag flagZ)]) :
    Costs s i 1 ∧ ∃ keepZ, z = (!keepZ || s.flag flagZ) ∧
      exec i s = writeResult (costOf s i) d (s.reg d - b - bitByte c)
        (subFlags (s.reg d) b (s.reg d - b - bitByte c) keepZ) s := by
  simp only [List.mem_cons, List.not_mem_nil, or_false, Prod.mk.injEq] at hi
  obtain ⟨rfl, rfl, rfl, rfl⟩ | ⟨rfl, rfl, rfl, rfl⟩ | ⟨rfl, rfl, rfl, rfl⟩ |
    ⟨rfl, rfl, rfl, rfl⟩ := hi
  · exact ⟨.of_table (f := (·.sub)) rfl, false, rfl, by rw [sub_bitByte_false]; rfl⟩
  · exact ⟨.of_table (f := (·.subi)) rfl, false, rfl, by rw [sub_bitByte_false]; rfl⟩
  · exact ⟨.of_table (f := (·.sbc)) rfl, true, rfl, rfl⟩
  · exact ⟨.of_table (f := (·.sbci)) rfl, true, rfl, rfl⟩

/-- CP, CPC and CPI are that subtraction without its result; CPC keeps Z. -/
theorem exec_compare {d r : Reg} {k b : Byte} {i : Instr} {c z : Bool}
    (hi : (i, b, c, z) ∈
      [(.cp d r, s.reg r, false, true), (.cpc d r, s.reg r, s.flag flagC, s.flag flagZ),
        (.cpi d k, k, false, true)]) :
    Costs s i 1 ∧ ∃ keepZ, z = (!keepZ || s.flag flagZ) ∧
      exec i s = writeFlags (costOf s i)
        (subFlags (s.reg d) b (s.reg d - b - bitByte c) keepZ) s := by
  simp only [List.mem_cons, List.not_mem_nil, or_false, Prod.mk.injEq] at hi
  obtain ⟨rfl, rfl, rfl, rfl⟩ | ⟨rfl, rfl, rfl, rfl⟩ | ⟨rfl, rfl, rfl, rfl⟩ := hi
  · exact ⟨.of_table (f := (·.cp)) rfl, false, rfl, by rw [sub_bitByte_false]; rfl⟩
  · exact ⟨.of_table (f := (·.cpc)) rfl, true, rfl, rfl⟩
  · exact ⟨.of_table (f := (·.cpi)) rfl, false, rfl, by rw [sub_bitByte_false]; rfl⟩

/-- Settles O2: all seven are one subtraction with a borrow, with or without its result. -/
theorem subtractionAndCompare : Obligations.SubtractionAndCompare := by
  intro s d r k
  constructor
  · intro i b c z hi
    obtain ⟨hcost, keepZ, rfl, hexec⟩ := exec_subtraction hi
    obtain ⟨t, ht, hR, hf, hnext, hframe⟩ := writeResult_spec (costOf s i) d
      (s.reg d - b - bitByte c) (subFlags (s.reg d) b (s.reg d - b - bitByte c) keepZ) s
    exact ⟨t, hexec.trans ht, hR ▸ difference_toNat _ b c, .of_subFlags hf, ⟨hnext, hcost⟩, hframe,
      .of_putHSVNZC hf⟩
  · intro i b c z hi
    obtain ⟨hcost, keepZ, rfl, hexec⟩ := exec_compare hi
    obtain ⟨t, ht, hf, hnext, hframe⟩ := writeFlags_spec (costOf s i)
      (subFlags (s.reg d) b (s.reg d - b - bitByte c) keepZ) s
    exact ⟨t, hexec.trans ht, .of_subFlags hf, ⟨hnext, hcost⟩, hframe, .of_putHSVNZC hf⟩

/-! ## Word immediates (spec R105, R110) -/

theorem halves_toNat (w : Word) : (lowByte w).toNat + 256 * (highByte w).toNat = w.toNat := by
  rw [← word_toNat, word_lowByte_highByte]

theorem wordDifference_beq_zero (v : Word) (k : BitVec 6) :
    (v - k.setWidth 16 == 0) = decide (v.toNat = k.toNat) := by
  rw [Bool.eq_iff_iff, beq_iff_eq, decide_eq_true_eq, sub_eq_zero, ← BitVec.toNat_inj,
    BitVec.toNat_setWidth_of_le (by decide)]

/-- Settles O3: the pair is written as one 16-bit value. -/
theorem wordImmediateArithmetic : Obligations.WordImmediateArithmetic := by
  intro s p k v
  constructor
  · obtain ⟨t, ht, hlow, hhigh, hf, hnext, hframe⟩ := setPair_flags_spec s.params.cost.adiw p.val
      p.isLt (v + k.setWidth 16) (adiwFlags v (v + k.setWidth 16)) s
    have hflag j := (hf j).trans (bit_adiwFlags ..)
    refine ⟨t, ht ▸ rfl, ?_, hflag flagC, hflag flagV, ?_, ?_, ?_,
      ⟨hnext, .of_table (f := (·.adiw)) rfl⟩, hframe, .of_putSVNZC hf⟩
    · rw [hlow, hhigh, halves_toNat, wordSum_toNat]
    · exact wordSum_toNat v k ▸ (hflag flagN).trans (word_bit_fifteen _)
    · exact wordSum_toNat v k ▸ (hflag flagZ).trans (beq_eq_decide_toNat _ 0)
    · exact sign_eq_xor (hflag flagN) (hflag flagV) (hflag flagS)
  · obtain ⟨t, ht, hlow, hhigh, hf, hnext, hframe⟩ := setPair_flags_spec s.params.cost.sbiw p.val
      p.isLt (v - k.setWidth 16) (sbiwFlags v (v - k.setWidth 16)) s
    have hflag j := (hf j).trans (bit_sbiwFlags ..)
    refine ⟨t, ht ▸ rfl, ?_, hflag flagC, hflag flagV, ?_,
      (hflag flagZ).trans (wordDifference_beq_zero v k), ?_,
      ⟨hnext, .of_table (f := (·.sbiw)) rfl⟩, hframe, .of_putSVNZC hf⟩
    · rw [hlow, hhigh, halves_toNat, wordDifference_toNat]
    · rw [← wordDifference_toNat]
      exact_mod_cast (hflag flagN).trans (word_bit_fifteen _)
    · exact sign_eq_xor (hflag flagN) (hflag flagV) (hflag flagS)

/-! ## NEG, INC and DEC (spec R114 to R116) -/

theorem increment_beq (a k : Byte) : (a + 1 == k) = decide (a.toNat = (k - 1).toNat) := by
  rw [← beq_eq_decide_toNat, Bool.eq_iff_iff, beq_iff_eq, beq_iff_eq, eq_sub_iff_add_eq]

theorem decrement_beq (a k : Byte) : (a - 1 == k) = decide (a.toNat = (k + 1).toNat) := by
  rw [← beq_eq_decide_toNat, Bool.eq_iff_iff, beq_iff_eq, beq_iff_eq, sub_eq_iff_eq_add]

/-- Settles O4: V and Z compare the result with a constant, which is a comparison of the operand. -/
theorem negateIncrementDecrement : Obligations.NegateIncrementDecrement := by
  intro s d a
  refine ⟨?_, ?_, ?_⟩
  · obtain ⟨t, ht, hR, hf, hnext, hframe⟩ := writeResult_spec s.params.cost.neg d (0 - s.reg d)
      (negFlags (s.reg d) (0 - s.reg d)) s
    have hflag j := (hf j).trans (bit_negFlags ..)
    refine ⟨t, ht, hR ▸ negation_toNat _, ?_, hflag flagH,
      (hflag flagV).trans (beq_eq_decide_toNat _ _), ?_,
      (hflag flagZ).trans (beq_eq_decide_toNat _ _), ?_,
      ⟨hnext, .of_table (f := (·.neg)) rfl⟩, hframe, .of_putHSVNZC hf⟩
    · rw [decide_not]
      exact (hflag flagC).trans (congrArg not (beq_eq_decide_toNat _ 0))
    · exact negation_toNat (s.reg d) ▸ (hflag flagN).trans (bit_seven _)
    · exact sign_eq_xor (hflag flagN) (hflag flagV) (hflag flagS)
  · obtain ⟨t, ht, hR, hf, hnext, hframe⟩ := writeResult_spec s.params.cost.inc d (s.reg d + 1)
      (incFlags (s.reg d + 1)) s
    have hflag j := (hf j).trans (bit_incFlags ..)
    refine ⟨t, ht, hR ▸ increment_toNat _, (hflag flagV).trans (increment_beq _ _), ?_,
      (hflag flagZ).trans (increment_beq _ _), ?_,
      ⟨hnext, .of_table (f := (·.inc)) rfl⟩, hframe, .of_putSVNZ hf⟩
    · exact increment_toNat (s.reg d) ▸ (hflag flagN).trans (bit_seven _)
    · exact sign_eq_xor (hflag flagN) (hflag flagV) (hflag flagS)
  · obtain ⟨t, ht, hR, hf, hnext, hframe⟩ := writeResult_spec s.params.cost.dec d (s.reg d - 1)
      (decFlags (s.reg d - 1)) s
    have hflag j := (hf j).trans (bit_decFlags ..)
    refine ⟨t, ht, hR ▸ decrement_toNat _, (hflag flagV).trans (decrement_beq _ _), ?_,
      (hflag flagZ).trans (decrement_beq _ _), ?_,
      ⟨hnext, .of_table (f := (·.dec)) rfl⟩, hframe, .of_putSVNZ hf⟩
    · exact decrement_toNat (s.reg d) ▸ (hflag flagN).trans (bit_seven _)
    · exact sign_eq_xor (hflag flagN) (hflag flagV) (hflag flagS)

end Sys2Proof.Machine
end

section
/-!
PROOF. The logical instructions, the shifts and the rotate: the result, the flags that are written,
and those that are kept (spec R120 to R131).

The instructions of one rule for the flags are brought to one form, the tail `writeResult` with that
rule's flag computation; SWAP, which has none, is a plain register write.
-/

namespace Sys2Proof.Machine

variable {s t : State}

/-! ## Results as numbers -/

theorem complement_toNat (a : Byte) : (0xFF - a).toNat = 255 - a.toNat := by
  have h : 0xFF - a = ~~~ a := BitVec.allOnes_sub_eq_not a
  rw [h, BitVec.toNat_not]

theorem halve_toNat (a : Byte) : (a >>> 1).toNat = a.toNat / 2 := by
  rw [BitVec.toNat_ushiftRight, Nat.shiftRight_one]

theorem swapNibbles_toNat (a : Byte) :
    (a <<< 4 ||| a >>> 4).toNat = a.toNat % 16 * 16 + a.toNat / 16 := by
  have ha := a.isLt
  have hhigh : (a <<< 4).toNat = (a.toNat % 16) <<< 4 := by
    rw [BitVec.toNat_shiftLeft, Nat.shiftLeft_eq, Nat.shiftLeft_eq]
    omega
  have hlow : (a >>> 4).toNat = a.toNat / 16 := by
    rw [BitVec.toNat_ushiftRight, Nat.shiftRight_eq_div_pow]
  rw [BitVec.toNat_or, hhigh, hlow, ← Nat.shiftLeft_add_eq_or_of_lt (by omega), Nat.shiftLeft_eq]

/-- A right shift by one with `c` as the new bit 7. -/
theorem shiftIn_toNat (c : Bool) (a : Byte) :
    (bitByte c <<< 7 ||| a >>> 1).toNat = 128 * c.toNat + a.toNat / 2 := by
  have ha := a.isLt
  have hc : (bitByte c <<< 7).toNat = c.toNat <<< 7 := by cases c <;> rfl
  rw [BitVec.toNat_or, hc, halve_toNat, ← Nat.shiftLeft_add_eq_or_of_lt (by omega),
    Nat.shiftLeft_eq, Nat.mul_comm]

theorem and_0x80_eq_bitByte (a : Byte) : a &&& (0x80 : Byte) = bitByte (bit a 7) <<< 7 := by
  have h : a &&& (0x80 : Byte) = if bit a 7 then 0x80 else 0 := BitVec.and_twoPow a 7
  rw [h]
  cases bit a 7 <;> rfl

/-- ASR is the shift with the old bit 7 coming in (spec R130). -/
theorem arithmeticHalve_toNat (a : Byte) :
    (a &&& (0x80 : Byte) ||| a >>> 1).toNat =
      if 128 ≤ a.toNat then 128 + a.toNat / 2 else a.toNat / 2 := by
  rw [and_0x80_eq_bitByte, shiftIn_toNat, bit_seven]
  split <;> simp [*]

/-! ## The logical instructions (spec R120 to R126, R131) -/

theorem LogicFlagsOf.of_bits {R : Byte} (hV : t.flag flagV = false) (hN : t.flag flagN = bit R 7)
    (hZ : t.flag flagZ = (R == 0)) (hS : t.flag flagS = bit R 7) : LogicFlagsOf R t :=
  ⟨hV, hN.trans (bit_seven R), hZ.trans (beq_eq_decide_toNat R 0), hS.trans (bit_seven R)⟩

theorem LogicFlagsOf.of_logicFlags {R g : Byte} (hf : ∀ j, t.flag j = bit (logicFlags R g) j) :
    LogicFlagsOf R t := by
  have hflag j := (hf j).trans (bit_logicFlags ..)
  exact .of_bits (hflag flagV) (hflag flagN) (hflag flagZ) (hflag flagS)

theorem LogicFlagsOf.of_comFlags {R g : Byte} (hf : ∀ j, t.flag j = bit (comFlags R g) j) :
    LogicFlagsOf R t := by
  have hflag j := (hf j).trans (bit_comFlags ..)
  exact .of_bits (hflag flagV) (hflag flagN) (hflag flagZ) (hflag flagS)

/-- The five instructions of two operands write a bitwise result and its `LogicFlags`. -/
theorem exec_logical {d r : Reg} {k b : Byte} {i : Instr} {f : Bool → Bool → Bool}
    (hi : (i, b, f) ∈
      [(.and d r, s.reg r, (· && ·)), (.andi d k, k, (· && ·)), (.or d r, s.reg r, (· || ·)),
        (.ori d k, k, (· || ·)), (.eor d r, s.reg r, (· ^^ ·))]) :
    Costs s i 1 ∧ ∃ R, (∀ n, bit R n = f (bit (s.reg d) n) (bit b n)) ∧
      exec i s = writeResult (costOf s i) d R (logicFlags R) s := by
  simp only [List.mem_cons, List.not_mem_nil, or_false, Prod.mk.injEq] at hi
  obtain ⟨rfl, rfl, rfl⟩ | ⟨rfl, rfl, rfl⟩ | ⟨rfl, rfl, rfl⟩ | ⟨rfl, rfl, rfl⟩ |
    ⟨rfl, rfl, rfl⟩ := hi
  · exact ⟨.of_table (f := (·.and)) rfl, _, fun _ => BitVec.getLsbD_and, rfl⟩
  · exact ⟨.of_table (f := (·.andi)) rfl, _, fun _ => BitVec.getLsbD_and, rfl⟩
  · exact ⟨.of_table (f := (·.or)) rfl, _, fun _ => BitVec.getLsbD_or, rfl⟩
  · exact ⟨.of_table (f := (·.ori)) rfl, _, fun _ => BitVec.getLsbD_or, rfl⟩
  · exact ⟨.of_table (f := (·.eor)) rfl, _, fun _ => BitVec.getLsbD_xor, rfl⟩

/-- Settles O5: five bitwise results under `LogicFlags`, COM with C set besides, and SWAP's register
write. -/
theorem logicalOperations : Obligations.LogicalOperations := by
  intro s d r k
  refine ⟨?_, ?_, ?_⟩
  · intro i b f hi
    obtain ⟨hcost, R, hbits, hexec⟩ := exec_logical hi
    obtain ⟨t, ht, rfl, hf, hnext, hframe⟩ :=
      writeResult_spec (costOf s i) d R (logicFlags R) s
    exact ⟨t, hexec.trans ht, fun n _ => hbits n, .of_logicFlags hf, ⟨hnext, hcost⟩, hframe,
      .of_putSVNZ hf⟩
  · obtain ⟨t, ht, hR, hf, hnext, hframe⟩ := writeResult_spec s.params.cost.com d (0xFF - s.reg d)
      (comFlags (0xFF - s.reg d)) s
    exact ⟨t, ht, hR ▸ complement_toNat _, hR ▸ .of_comFlags hf,
      (hf flagC).trans (bit_comFlags ..), ⟨hnext, .of_table (f := (·.com)) rfl⟩, hframe,
      .of_putSVNZC hf⟩
  · obtain ⟨hR, hnext, hframe⟩ := setReg_advance_spec d (s.reg d <<< 4 ||| s.reg d >>> 4) 1
      s.params.cost.swap s
    exact ⟨_, rfl, (congrArg BitVec.toNat hR).trans (swapNibbles_toNat _),
      ⟨hnext, .of_table (f := (·.swap)) rfl⟩, hframe⟩

/-! ## The right shifts and the rotate (spec R127 to R130) -/

theorem ShiftFlagsOf.of_shiftRightFlags {a R g : Byte}
    (hf : ∀ j, t.flag j = bit (shiftRightFlags a R g) j) : ShiftFlagsOf a R t := by
  have hflag j := (hf j).trans (bit_shiftRightFlags ..)
  have hC : t.flag flagC = bit a 0 := hflag flagC
  have hN : t.flag flagN = bit R 7 := hflag flagN
  have hV : t.flag flagV = (bit R 7 ^^ bit a 0) := hflag flagV
  refine ⟨hC.trans (bit_zero a), hN.trans (bit_seven R),
    (hflag flagZ).trans (beq_eq_decide_toNat R 0), ?_, sign_eq_xor hN hV (hflag flagS)⟩
  rw [hV, hN, hC]

/-- The three differ in the bit that comes in: 0, the old C, or the old bit 7. -/
theorem exec_rightShift {d : Reg} {i : Instr} {n : Nat}
    (hi : (i, n) ∈
      [(.lsr d, (s.reg d).toNat / 2),
        (.ror d, 128 * (s.flag flagC).toNat + (s.reg d).toNat / 2),
        (.asr d, if 128 ≤ (s.reg d).toNat then 128 + (s.reg d).toNat / 2
          else (s.reg d).toNat / 2)]) :
    Costs s i 1 ∧ ∃ R : Byte, R.toNat = n ∧
      exec i s = writeResult (costOf s i) d R (shiftRightFlags (s.reg d) R) s := by
  simp only [List.mem_cons, List.not_mem_nil, or_false, Prod.mk.injEq] at hi
  obtain ⟨rfl, rfl⟩ | ⟨rfl, rfl⟩ | ⟨rfl, rfl⟩ := hi
  · exact ⟨.of_table (f := (·.lsr)) rfl, _, halve_toNat _, rfl⟩
  · exact ⟨.of_table (f := (·.ror)) rfl, _, shiftIn_toNat _ _, rfl⟩
  · exact ⟨.of_table (f := (·.asr)) rfl, _, arithmeticHalve_toNat _, rfl⟩

/-- Settles O6: one result byte in each case, under one flag computation. -/
theorem rightShiftsAndRotate : Obligations.RightShiftsAndRotate := by
  intro s d i n hi
  obtain ⟨hcost, R, hn, hexec⟩ := exec_rightShift hi
  obtain ⟨t, ht, rfl, hf, hnext, hframe⟩ :=
    writeResult_spec (costOf s i) d R (shiftRightFlags (s.reg d) R) s
  exact ⟨t, hexec.trans ht, hn, .of_shiftRightFlags hf, ⟨hnext, hcost⟩, hframe, .of_putSVNZC hf⟩

end Sys2Proof.Machine
end

section
/-!
PROOF. The multiplies: the product or its double in R1:R0, the two flags that are written, and those
that are kept; Z and C after the fractional forms (spec R135 to R141).

The two tails of the model are one, which stores a multiple of the product.
-/

namespace Sys2Proof.Machine

variable {s t : State}

/-! ## The stored word as a number -/

theorem ofInt_toNat (P : Int) : ((BitVec.ofInt 16 P).toNat : Int) = P % 65536 := by
  rw [BitVec.toNat_ofInt]
  omega

theorem ofInt_beq_zero (P : Int) : (BitVec.ofInt 16 P == 0) = decide (P % 65536 = 0) := by
  rw [beq_eq_decide_toNat, ← ofInt_toNat]
  exact_mod_cast rfl

theorem ofInt_bit_fifteen (P : Int) :
    (BitVec.ofInt 16 P).getLsbD 15 = decide (32768 ≤ P % 65536) := by
  rw [word_bit_fifteen, ← ofInt_toNat]
  exact_mod_cast rfl

/-! ## One tail for the six multiplies (spec R135) -/

/-- A multiply of cost `n` that stores `m` times the exact product `P`. -/
def writeMultiple (n : Nat) (m P : Int) (s : State) : Res State :=
  .next (((s.setPair 0 (BitVec.ofInt 16 (m * P))).updateSreg
    (mulFlags (BitVec.ofInt 16 P) (BitVec.ofInt 16 (m * P)))).advance 1 n)

theorem writeProduct_eq (n : Nat) (P : Int) (s : State) :
    writeProduct n P s = writeMultiple n 1 P s := by
  rw [writeMultiple, one_mul]
  rfl

theorem writeFractional_eq (n : Nat) (P : Int) (s : State) :
    writeFractional n P s = writeMultiple n 2 P s := rfl

theorem FlagsKept.of_mulFlags {P W : Word} (hf : ∀ j, t.flag j = bit (mulFlags P W s.sreg) j) :
    FlagsKept s t [flagZ, flagC] := by
  intro j hj
  simp only [List.mem_cons, List.not_mem_nil, or_false, not_or] at hj
  rw [hf, bit_mulFlags]
  simp [hj, State.flag]

theorem writeMultiple_spec (n : Nat) (m P : Int) (s : State) :
    ∃ t, writeMultiple n m P s = .next t ∧
      (((t.reg 0).toNat + 256 * (t.reg 1).toNat : Nat) : Int) = m * P % 65536 ∧
      t.flag flagC = decide (32768 ≤ P % 65536) ∧
      t.flag flagZ = decide (m * P % 65536 = 0) ∧
      Follows s t 1 n ∧ OnlyWrites s t (fun a => a = 0 ∨ a = 1 ∨ a = addrSreg) ∧
      FlagsKept s t [flagZ, flagC] := by
  obtain ⟨t, ht, hlow, hhigh, hf, hnext, hframe⟩ := setPair_flags_spec n 0 (by decide)
    (BitVec.ofInt 16 (m * P)) (mulFlags (BitVec.ofInt 16 P) (BitVec.ofInt 16 (m * P))) s
  have hflag j := (hf j).trans (bit_mulFlags ..)
  have hR0 : t.reg 0 = lowByte (BitVec.ofInt 16 (m * P)) := hlow
  have hR1 : t.reg 1 = highByte (BitVec.ofInt 16 (m * P)) := hhigh
  refine ⟨t, ht ▸ rfl, ?_, (hflag flagC).trans (ofInt_bit_fifteen P),
    (hflag flagZ).trans (ofInt_beq_zero (m * P)), hnext, hframe, .of_mulFlags hf⟩
  rw [hR0, hR1, halves_toNat, ofInt_toNat]

/-- The operands are read from the state before, so R0 and R1 may be among them. -/
theorem exec_multiply {d r : Reg} {i : Instr} {P m : Int}
    (hi : (i, P, m) ∈
      [(.mul d r, ((s.reg d).toNat : Int) * (s.reg r).toNat, 1),
        (.muls d r, (s.reg d).toInt * (s.reg r).toInt, 1),
        (.mulsu d r, (s.reg d).toInt * (s.reg r).toNat, 1),
        (.fmul d r, ((s.reg d).toNat : Int) * (s.reg r).toNat, 2),
        (.fmuls d r, (s.reg d).toInt * (s.reg r).toInt, 2),
        (.fmulsu d r, (s.reg d).toInt * (s.reg r).toNat, 2)]) :
    exec i s = writeMultiple (costOf s i) m P s ∧ Costs s i 2 := by
  simp only [List.mem_cons, List.not_mem_nil, or_false, Prod.mk.injEq] at hi
  obtain ⟨rfl, rfl, rfl⟩ | ⟨rfl, rfl, rfl⟩ | ⟨rfl, rfl, rfl⟩ | ⟨rfl, rfl, rfl⟩ | ⟨rfl, rfl, rfl⟩ |
    ⟨rfl, rfl, rfl⟩ := hi
  · exact ⟨writeProduct_eq .., .of_table (f := (·.mul)) rfl⟩
  · exact ⟨writeProduct_eq .., .of_table (f := (·.muls)) rfl⟩
  · exact ⟨writeProduct_eq .., .of_table (f := (·.mulsu)) rfl⟩
  · exact ⟨writeFractional_eq .., .of_table (f := (·.fmul)) rfl⟩
  · exact ⟨writeFractional_eq .., .of_table (f := (·.fmuls)) rfl⟩
  · exact ⟨writeFractional_eq .., .of_table (f := (·.fmulsu)) rfl⟩

/-- Settles O7: all six store a multiple of the exact product. -/
theorem multiplyStoresProduct : Obligations.MultiplyStoresProduct := by
  intro s d r i P m hi
  obtain ⟨hexec, hcost⟩ := exec_multiply hi
  obtain ⟨t, ht, hR, hC, hZ, hnext, hframe, hkept⟩ := writeMultiple_spec (costOf s i) m P s
  exact ⟨t, hexec.trans ht, hR, hC, hZ, ⟨hnext, hcost⟩, hframe, hkept⟩

/-! ## Z and C of the fractional forms (spec R139, R141) -/

/-- `x` is the byte `a` read unsigned or signed, as far as the zero test of a product sees it. -/
structure Reads (a : Byte) (x : Int) : Prop where
  small : |x| < 2 ^ 8
  zero : x = 0 ↔ a = 0

theorem Reads.unsigned (a : Byte) : Reads a a.toNat := by
  refine ⟨?_, ?_⟩
  · rw [Nat.abs_cast]
    exact_mod_cast a.isLt
  · rw [Int.natCast_eq_zero]
    exact BitVec.toNat_inj (y := 0)

theorem Reads.signed (a : Byte) : Reads a a.toInt := by
  refine ⟨?_, BitVec.toInt_inj (y := 0)⟩
  have hlower : -2 ^ 7 ≤ a.toInt := a.le_toInt
  have hupper : a.toInt < 2 ^ 7 := BitVec.toInt_lt
  rw [abs_lt]
  omega

/-- Of the fifteen factors 2 one operand holds at least eight, and a byte has room for seven. -/
theorem Reads.zero_of_dvd {a b : Byte} {x y : Int} (hx : Reads a x) (hy : Reads b y)
    (h : 2 ^ 15 ∣ x * y) : x = 0 ∨ y = 0 := by
  obtain ⟨q, hq⟩ := h
  obtain ⟨i, j, p, p', hij, -, hxi, hyj⟩ :=
    mul_eq_mul_prime_pow Int.prime_two (hq.trans (mul_comm _ _))
  obtain hi | hj : 8 ≤ i ∨ 8 ≤ j := by omega
  · have hdvd : 2 ^ 8 ∣ x := hxi ▸ (pow_dvd_pow 2 hi).mul_left p
    exact .inl (Int.eq_zero_of_abs_lt_dvd hdvd hx.small)
  · have hdvd : 2 ^ 8 ∣ y := hyj ▸ (pow_dvd_pow 2 hj).mul_left p'
    exact .inr (Int.eq_zero_of_abs_lt_dvd hdvd hy.small)

theorem Reads.double_eq_zero_iff {a b : Byte} {x y : Int} (hx : Reads a x) (hy : Reads b y) :
    2 * (x * y) % 65536 = 0 ↔ x * y = 0 := by
  refine ⟨fun h => ?_, fun h => by rw [h]; rfl⟩
  exact mul_eq_zero.mpr (hx.zero_of_dvd hy (by omega))

/-- All three store the double of the product; they differ in the reading of the operands. -/
theorem exec_fractional {d r : Reg} {i : Instr} (hi : i ∈ [.fmul d r, .fmuls d r, .fmulsu d r]) :
    ∃ x y, Reads (s.reg d) x ∧ Reads (s.reg r) y ∧
      exec i s = writeMultiple (costOf s i) 2 (x * y) s := by
  simp only [List.mem_cons, List.not_mem_nil, or_false] at hi
  obtain rfl | rfl | rfl := hi
  · exact ⟨_, _, .unsigned _, .unsigned _, rfl⟩
  · exact ⟨_, _, .signed _, .signed _, rfl⟩
  · exact ⟨_, _, .signed _, .unsigned _, rfl⟩

/-- Settles O8: the doubled product is 0 modulo 65536 only where the product itself is 0, which then
has bit 15 clear. -/
theorem fractionalMultiplyZeroExcludesCarry : Obligations.FractionalMultiplyZeroExcludesCarry := by
  intro s d r i hi
  obtain ⟨x, y, hx, hy, hexec⟩ := exec_fractional (s := s) hi
  obtain ⟨t, ht, -, hC, hZ, -⟩ := writeMultiple_spec (costOf s i) 2 (x * y) s
  rw [decide_eq_decide.mpr (hx.double_eq_zero_iff hy)] at hZ
  refine ⟨t, hexec.trans ht, ?_, ?_⟩
  · rw [hZ, hC, ← Bool.decide_and, decide_eq_false_iff_not]
    rintro ⟨hzero, hcarry⟩
    omega
  · rw [hZ, decide_eq_true_iff, mul_eq_zero, hx.zero, hy.zero]

end Sys2Proof.Machine
end

section
/-!
PROOF. The bit instructions: the single bit of SREG or of a register that is written, and the read
and write of SBI and CBI (spec R145 to R150).

SBI and CBI are one operation, `modifyIo` with the bit that is put; its outcome is stated once for
whatever the two hooks do, and the plain case follows from that.
-/

namespace Sys2Proof.Machine

variable {s : State}

/-! ## One bit of SREG or of a register (spec R145 to R148) -/

theorem bit_eq_decide (x : Byte) (n : Nat) : bit x n = decide (x.toNat / 2 ^ n % 2 = 1) :=
  Nat.testBit_eq_decide_div_mod_eq

/-- The three that write SREG differ in the bit and in its new value. -/
theorem exec_setFlag {d : Reg} {f b : BitNo} {i : Instr} {n : Nat} {v : Bool}
    (hi : (i, n, v) ∈
      [(.bset f, f.val, true), (.bclr f, f.val, false),
        (.bst d b, flagT, decide ((s.reg d).toNat / 2 ^ b.val % 2 = 1))]) :
    n < 8 ∧ Costs s i 1 ∧ exec i s = .next ((s.setFlag n v).advance 1 (costOf s i)) := by
  simp only [List.mem_cons, List.not_mem_nil, or_false, Prod.mk.injEq] at hi
  obtain ⟨rfl, rfl, rfl⟩ | ⟨rfl, rfl, rfl⟩ | ⟨rfl, rfl, rfl⟩ := hi
  · exact ⟨f.isLt, .of_table (f := (·.bset)) rfl, rfl⟩
  · exact ⟨f.isLt, .of_table (f := (·.bclr)) rfl, rfl⟩
  · exact ⟨by decide, .of_table (f := (·.bst)) rfl, by rw [← bit_eq_decide]; rfl⟩

/-- Settles O9: a write of one flag, or of one register with one bit put. -/
theorem singleBitInstructions : Obligations.SingleBitInstructions := by
  intro s d f b
  refine ⟨fun i n v hi => ?_, ?_⟩
  · obtain ⟨hn, hcost, hexec⟩ := exec_setFlag hi
    obtain ⟨hflag, hnext, hframe, hkept⟩ := setFlag_advance_spec (costOf s i) hn v s
    exact ⟨_, hexec, hflag, ⟨hnext, hcost⟩, hframe, hkept⟩
  · obtain ⟨hR, hnext, hframe⟩ := setReg_advance_spec d (putBit (s.reg d) b.val (s.flag flagT)) 1
      s.params.cost.bld s
    refine ⟨_, rfl, fun n _ => ?_, ⟨hnext, .of_table (f := (·.bld)) rfl⟩, hframe⟩
    exact (congrArg (bit · n) hR).trans (bit_putBit b.isLt)

/-! ## SBI and CBI (spec R149, R150) -/

theorem oneBit_eq_ofNat (n : Nat) : oneBit n = BitVec.ofNat 8 (2 ^ n) := by
  apply BitVec.eq_of_toNat_eq
  simp [oneBit, Nat.shiftLeft_eq]

/-- SBI and CBI put a bit into the byte read; each has a phase of its own, which on this core comes
after both accesses (spec R373). -/
theorem exec_modifyIo {a : Fin 32} {b : BitNo} {i : Instr} {v : Bool}
    (hi : (i, v) ∈ [(.sbi a b, true), (.cbi a b, false)]) :
    Costs s i 2 ∧ ∃ p, (ThisCore s → p = .after) ∧
      cyclesAtRead s i = earlyRead p (costOf s i) ∧ cyclesAtWrite s i = beforeWrite p (costOf s i) ∧
      exec i s = modifyIo p (costOf s i) a b (putBit · b.val v) s := by
  simp only [List.mem_cons, List.not_mem_nil, or_false, Prod.mk.injEq] at hi
  obtain ⟨rfl, rfl⟩ | ⟨rfl, rfl⟩ := hi
  · exact ⟨.of_table (f := (·.sbi)) rfl, s.params.phase.sbi, fun hc => by rw [hc.phase]; rfl, rfl,
      rfl, rfl⟩
  · exact ⟨.of_table (f := (·.cbi)) rfl, s.params.phase.cbi, fun hc => by rw [hc.phase]; rfl, rfl,
      rfl, rfl⟩

/-- A read and write that both succeed, whatever the environment did in them: it can change neither
`pc` nor `cycles` (spec R49). -/
theorem modifyIo_eq {p : ReadWritePhase} {n : Nat} {a : Fin 32} {b : BitNo} {f : Byte → Byte}
    {old : Byte} {u w : State}
    (hread : memRead (a.val + 32) (s.addCycles (earlyRead p n)) = .next (old, u))
    (hwrite : memWrite (a.val + 32) (f old) (oneBit b.val) (u.addCycles (earlyWrite p n)) =
      .next w) :
    modifyIo p n a b f s =
      .next { w with pc := (s.pc + 1) % s.progWords, cycles := s.cycles + n } := by
  have hexec : modifyIo p n a b f s = .next (w.advance 1 (lateCycles p n)) := by
    rw [modifyIo, ioAddress, readWrite_eq hread hwrite]; rfl
  have hspends := modifyIo_spends hexec
  have hpc : w.pc = s.pc := (memWrite_keeps hwrite).pc.trans (memRead_keeps hread).pc
  have hprog : w.progWords = s.progWords := congrArg Params.progWords hspends.params
  have hcycles : w.cycles + lateCycles p n = s.cycles + n := hspends.cycles
  rw [hexec, State.advance_eq, hpc, hprog, hcycles]

/-- At an address without hooks the byte there is replaced, and nothing else changes. -/
theorem modifyIo_plain_spec (p : ReadWritePhase) (n : Nat) {a : Fin 32} (b : BitNo)
    (f : Byte → Byte) (hr : ReadPlain s (a.val + 32)) (hw : WritePlain s (a.val + 32)) :
    ∃ t, modifyIo p n a b f s = .next t ∧ t.peek (a.val + 32) = f (s.peek (a.val + 32)) ∧
      Follows s t 1 n ∧ OnlyWrites s t (fun x => x = a.val + 32) := by
  have hhook : readHookAt s (a.val + 32) = none :=
    readHookAt_eq_none (.inr (hr.unhooked (by omega)))
  have hexec := modifyIo_eq (p := p) (n := n) (b := b) (f := f)
    (memRead_plain (s := s.addCycles _) hr.inside hhook)
    (memWrite_plain (s := (s.addCycles _).addCycles _) hw.inside hw.unhooked)
  refine ⟨_, hexec, ?_, ⟨rfl, rfl⟩, ⟨rfl, rfl, rfl, rfl, rfl, rfl, rfl, rfl, rfl, rfl, rfl, rfl⟩,
    fun x hx => ?_⟩
  · exact (State.peek_poke ..).trans (if_pos rfl)
  · exact (State.peek_poke ..).trans (if_neg hx)

/-- Settles O10: both put one bit by `modifyIo`, under the mask of that bit. -/
theorem ioBitSetAndClear : Obligations.IoBitSetAndClear := by
  intro s a b i v hi
  obtain ⟨hcost, p, hafter, hearly, hbefore, hexec⟩ := exec_modifyIo (s := s) hi
  refine ⟨hcost, fun hc => ?_, fun old u w hread hwrite => ?_, fun hr hw => ?_⟩
  · obtain rfl := hafter hc
    exact ⟨hearly, hbefore⟩
  · rw [hearly] at hread
    rw [hearly, hbefore, beforeWrite, Nat.add_sub_cancel_left, ← oneBit_eq_ofNat] at hwrite
    exact hexec.trans (modifyIo_eq hread hwrite)
  · obtain ⟨t, ht, hbyte, hnext, hframe⟩ :=
      modifyIo_plain_spec p (costOf s i) b (putBit · b.val v) hr hw
    exact ⟨t, hexec.trans ht, fun n _ => hbyte ▸ bit_putBit b.isLt, ⟨hnext, hcost⟩, hframe⟩

end Sys2Proof.Machine
end

section
/-!
PROOF. How an instruction ends after accesses of the data space, and the loads (spec R158, R162,
R164 to R173, R373).

As for the stores below, every form is brought to its shared operation with a phase and a cost of
its own. What the operation does is stated once for whatever the environment does in the access,
and once for an access without a hook: there the result is `b.advance w n`, where `b` is the state
at the start with some bytes replaced.
-/

namespace Sys2Proof.Machine

variable {s t u : State}

/-! ## The end of an instruction (spec R88, R89) -/

theorem OnlyWrites.poke (s : State) (a : Nat) (v : Byte) :
    OnlyWrites s (s.poke a v) fun x => x = a :=
  ⟨.poke s a v, fun _ hx => (s.peek_poke a _ v).trans (if_neg hx)⟩

theorem OnlyWrites.setPair (s : State) (a : Nat) (v : Word) :
    OnlyWrites s (s.setPair a v) fun x => x = a ∨ x = a + 1 :=
  (OnlyWrites.poke s a _).trans (.poke _ _ _)

theorem OnlyWrites.advance {p : Nat → Prop} (h : OnlyWrites s t p) (w n : Nat) :
    OnlyWrites s (t.advance w n) p :=
  ⟨h.beyond.trans (.advance t w n), h.data⟩

theorem OnlyWrites.mono {p q : Nat → Prop} (h : OnlyWrites s t p) (hpq : ∀ a, p a → q a) :
    OnlyWrites s t q :=
  ⟨h.beyond, fun a ha => h.data a fun hp => ha (hpq a hp)⟩

/-- Where only bytes of memory were written, the next instruction follows. -/
theorem KeepsCore.follows (h : KeepsCore s t) (w n : Nat) : Follows s (t.advance w n) w n where
  pc := by rw [State.advance_pc, h.pc, State.progWords, h.params]; rfl
  cycles := by rw [State.advance_cycles, h.cycles]

/-- The end of an instruction that added `e` of its `n` cycles before: `pc` and `cycles` are those
of the start moved on, since nothing in between can have changed them (spec R49). -/
theorem Spends.advance_eq {e k n : Nat} (h : Spends s u e) (hpc : u.pc = s.pc) (he : e + k = n)
    (w : Nat) :
    u.advance w k = { u with pc := (s.pc + w) % s.progWords, cycles := s.cycles + n } := by
  have hprog : u.progWords = s.progWords := congrArg Params.progWords h.params
  rw [State.advance_eq, hpc, hprog, h.cycles, Nat.add_assoc, he]

theorem State.addCycles_advance (s : State) (e w k : Nat) :
    (s.addCycles e).advance w k = s.advance w (e + k) := by
  simp only [State.advance_eq, State.addCycles, Nat.add_assoc, State.progWords]

/-- On this core the early cycles of an instruction are those of the standard tables (spec R373). -/
theorem ThisCore.early_entry (hc : ThisCore s) (p : HookPhase → Phase) (c : CostTable → Nat) :
    early (p s.params.phase) (c s.params.cost) = early (p .standard) (c .standard) := by
  rw [hc.cost, hc.phase]

/-! ## Accesses without a hook (spec R47, R48) -/

theorem ReadPlain.readHookAt_eq {a : Nat} (h : ReadPlain s a) : readHookAt s a = none :=
  readHookAt_eq_none ((Nat.lt_or_ge 31 a).symm.imp id h.unhooked)

theorem ReadPlain.of_sameBeyond {a : Nat} (h : ReadPlain s a) (k : SameBeyond s t) :
    ReadPlain t a where
  inside := by rw [State.dataSize, k.params]; exact h.inside
  unhooked := by rw [k.readHooks]; exact h.unhooked

/-- A byte read after a pair was written, the pair's low byte named first. -/
theorem State.peek_setPair_low_first (s : State) (a b : Nat) (v : Word) :
    (s.setPair a v).peek b =
      if b = a then lowByte v else if b = a + 1 then highByte v else s.peek b := by
  by_cases h : b = a
  · simp [h]
  · simp [h]

/-! ## One load (spec R164, R373) -/

/-- A load whose read succeeds, whatever the environment did in it. -/
theorem load_hooked {p : Phase} {n w : Nat} {d : Reg} {a : Nat} {f : State → State} {v : Byte}
    (hf : ∀ u, KeepsCore u (f u)) (hread : memRead a (s.addCycles (early p n)) = .next (v, u)) :
    load p n w d a f s =
      .next { f (u.setReg d v) with
              pc := (s.pc + w) % s.progWords, cycles := s.cycles + n } := by
  have hk : KeepsCore (s.addCycles (early p n)) (f (u.setReg d v)) :=
    ((memRead_keeps hread).trans (.poke u d.val v)).trans (hf _)
  rw [load_eq hread, ((Spends.addCycles s _).trans hk.spends).advance_eq hk.pc (early_add p n)]

/-- A load without a hook; the write-back `f` does not depend on the cycles. -/
theorem load_readPlain {p : Phase} {n w : Nat} {d : Reg} {a : Nat} {f : State → State}
    (hf : ∀ u k, f (u.addCycles k) = (f u).addCycles k) (h : ReadPlain s a) :
    load p n w d a f s = .next ((f (s.setReg d (s.peek a))).advance w n) := by
  have hswap : (s.addCycles (early p n)).setReg d (s.peek a) =
    (s.setReg d (s.peek a)).addCycles (early p n) := rfl
  rw [load_plain h.inside h.readHookAt_eq, hswap, hf, State.addCycles_advance, early_add]

/-- The loads that leave their pointer alone: the address, the cycles before the read, the words and
the cost. -/
def steadyLoads (s : State) (d : Reg) (A q : Fin 64) (k : Word) :
    List (Instr × Nat × Nat × Nat × Nat) :=
  [(.inp d A, A.val + 32, 0, 1, 1), (.lds d k, k.toNat, 1, 2, 2), (.ldX d, s.x.toNat, 1, 1, 2),
    (.lddY d q, s.y.toNat + q.val, 1, 1, 2), (.lddZ d q, s.z.toNat + q.val, 1, 1, 2)]

/-- Each is `load` with a phase and a cost of its own. -/
theorem exec_steadyLoad {d : Reg} {A q : Fin 64} {k : Word} {i : Instr}
    {a before words cost : Nat} (hi : (i, a, before, words, cost) ∈ steadyLoads s d A q k) :
    Costs s i cost ∧ (ThisCore s → cyclesAtRead s i = before) ∧
      ∃ p, cyclesAtRead s i = early p (costOf s i) ∧
        ((i = .lddY d q → a < 65536) → exec i s = load p (costOf s i) words d a id s) := by
  simp only [steadyLoads, List.mem_cons, List.not_mem_nil, or_false, Prod.mk.injEq] at hi
  obtain ⟨rfl, rfl, rfl, rfl, rfl⟩ | ⟨rfl, rfl, rfl, rfl, rfl⟩ | ⟨rfl, rfl, rfl, rfl, rfl⟩ |
    ⟨rfl, rfl, rfl, rfl, rfl⟩ | ⟨rfl, rfl, rfl, rfl, rfl⟩ := hi
  · exact ⟨.of_table (f := (·.inp)) rfl, (·.early_entry (·.inp) (·.inp)), _, rfl, fun _ => rfl⟩
  · exact ⟨.of_table (f := (·.lds)) rfl, (·.early_entry (·.lds) (·.lds)), _, rfl, fun _ => rfl⟩
  · exact ⟨.of_table (f := (·.ldX)) rfl, (·.early_entry (·.ldX) (·.ldX)), _, rfl, fun _ => rfl⟩
  · exact ⟨.of_table (f := (·.lddY)) rfl, (·.early_entry (·.lddY) (·.lddY)), _, rfl,
      fun h => atDisplaced_eq (h rfl) _⟩
  · exact ⟨.of_table (f := (·.lddZ)) rfl, (·.early_entry (·.lddZ) (·.lddZ)), _, rfl, fun _ => rfl⟩

/-- The loads with write-back: the increment comes after the access, the decrement before it. -/
theorem exec_load_writeBack {d : Reg} {lo : Nat} {inc dec : Instr}
    (hi : (lo, inc, dec) ∈
      [(26, .ldXInc d, .ldXDec d), (28, .ldYInc d, .ldYDec d), (30, .ldZInc d, .ldZDec d)]) :
    ((Costs s inc 2 ∧ (ThisCore s → cyclesAtRead s inc = 1)) ∧
      ∃ p, cyclesAtRead s inc = early p (costOf s inc) ∧
        exec inc s =
          load p (costOf s inc) 1 d (s.pair lo).toNat (·.setPair lo (s.pair lo + 1)) s) ∧
    (Costs s dec 2 ∧ (ThisCore s → cyclesAtRead s dec = 1)) ∧
      ∃ p, cyclesAtRead s dec = early p (costOf s dec) ∧
        exec dec s =
          load p (costOf s dec) 1 d (s.pair lo - 1).toNat id (s.setPair lo (s.pair lo - 1)) := by
  simp only [List.mem_cons, List.not_mem_nil, or_false, Prod.mk.injEq] at hi
  obtain ⟨rfl, rfl, rfl⟩ | ⟨rfl, rfl, rfl⟩ | ⟨rfl, rfl, rfl⟩ := hi
  · exact
      ⟨⟨⟨.of_table (f := (·.ldXInc)) rfl, (·.early_entry (·.ldXInc) (·.ldXInc))⟩, _, rfl, rfl⟩,
        ⟨.of_table (f := (·.ldXDec)) rfl, (·.early_entry (·.ldXDec) (·.ldXDec))⟩, _, rfl, rfl⟩
  · exact
      ⟨⟨⟨.of_table (f := (·.ldYInc)) rfl, (·.early_entry (·.ldYInc) (·.ldYInc))⟩, _, rfl, rfl⟩,
        ⟨.of_table (f := (·.ldYDec)) rfl, (·.early_entry (·.ldYDec) (·.ldYDec))⟩, _, rfl, rfl⟩
  · exact
      ⟨⟨⟨.of_table (f := (·.ldZInc)) rfl, (·.early_entry (·.ldZInc) (·.ldZInc))⟩, _, rfl, rfl⟩,
        ⟨.of_table (f := (·.ldZDec)) rfl, (·.early_entry (·.ldZDec) (·.ldZDec))⟩, _, rfl, rfl⟩

/-- Settles O12: every form is `load`, whose read the environment answers as it likes. -/
theorem loadsAreOneMemRead : Obligations.LoadsAreOneMemRead := by
  intro s d A q k
  refine ⟨fun i a before words cost hi => ?_, fun lo inc dec hi => ?_⟩
  · obtain ⟨hcost, hbefore, p, hearly, hexec⟩ := exec_steadyLoad hi
    refine ⟨hcost, hbefore, fun v u hrange hread => ?_⟩
    rw [hearly] at hread
    exact (hexec hrange).trans (load_hooked .refl hread)
  · obtain ⟨⟨hcostInc, p, hinc, hexecInc⟩, hcostDec, p', hdec, hexecDec⟩ :=
      exec_load_writeBack (s := s) hi
    refine ⟨List.forall_mem_cons.2 ⟨hcostInc, List.forall_mem_singleton.2 hcostDec⟩,
      fun v u hread => ?_, fun v u hread => ?_⟩
    · rw [hinc] at hread
      exact hexecInc.trans (load_hooked (fun u => .setPair u lo _) hread)
    · rw [hdec] at hread
      exact hexecDec.trans (load_hooked .refl hread)

/-- Settles O13: without a hook a load that leaves its pointer alone writes its register. -/
theorem plainLoads : Obligations.PlainLoads := by
  intro s d A q k i a words cost hi hrange hread
  have hmap : (i, a, words, cost) ∈
    (steadyLoads s d A q k).map fun x => (x.1, x.2.1, x.2.2.2) := hi
  obtain ⟨⟨i, a, before, words, cost⟩, hform, ⟨⟩⟩ := List.mem_map.1 hmap
  obtain ⟨hcost, -, p, -, hexec⟩ := exec_steadyLoad hform
  obtain ⟨hreg, hnext, hframe⟩ := setReg_advance_spec d (s.peek a) words (costOf s i) s
  exact ⟨_, (hexec hrange).trans (load_readPlain (fun _ _ => rfl) hread), hreg, ⟨hnext, hcost⟩,
    hframe⟩

/-- Settles O14: the increment is written last, the decrement first. -/
theorem plainLoadsWithWriteBack : Obligations.PlainLoadsWithWriteBack := by
  intro s d lo inc dec hi
  obtain ⟨⟨⟨hcostInc, -⟩, p, -, hexecInc⟩, ⟨hcostDec, -⟩, p', -, hexecDec⟩ :=
    exec_load_writeBack (s := s) hi
  refine ⟨fun hread => ?_, ?_⟩
  · refine ⟨_, hexecInc.trans (load_readPlain (fun _ _ => rfl) hread), ?_, fun hlo hhi => ?_,
      ⟨?_, hcostInc⟩, ?_⟩
    · exact (congrArg BitVec.toNat (State.pair_setPair _ lo _)).trans (BitVec.toNat_add ..)
    · simp [State.reg_eq, hlo, hhi]
    · exact ((KeepsCore.poke s d.val _).trans (.setPair _ lo _)).follows 1 _
    · exact ((OnlyWrites.poke s d.val _).trans (.setPair _ lo _)).advance 1 _
  · rintro _ rfl hread
    refine ⟨_, hexecDec.trans (load_readPlain (fun _ _ => rfl)
      (hread.of_sameBeyond (.setPair s lo _))), ?_, fun hlo => ?_, fun hhi => ?_,
      ⟨?_, hcostDec⟩, ?_⟩
    · exact ((State.reg_setReg _ d d _).trans (if_pos rfl)).trans (State.peek_setPair_low_first ..)
    · simp [hlo.symm]
    · simp [hhi.symm]
    · exact ((KeepsCore.setPair s lo _).trans (.poke _ d.val _)).follows 1 _
    · exact (((OnlyWrites.setPair s lo _).trans (.poke _ d.val _)).advance 1 _).mono fun _ => .symm

end Sys2Proof.Machine
end

section
/-!
PROOF. The stores and the read-modify-write through Z (spec R159, R163, R174 to R186).
-/

namespace Sys2Proof.Machine

variable {s t u : State}

/-! ## One store (spec R164, R373) -/

/-- A store whose write succeeds, whatever the environment did in it. -/
theorem store_hooked {p : Phase} {n w a : Nat} {v : Byte} {f : State → State}
    (hf : ∀ u, KeepsCore u (f u))
    (hwrite : memWrite a v fullMask (s.addCycles (early p n)) = .next u) :
    store p n w a v f s =
      .next { f u with pc := (s.pc + w) % s.progWords, cycles := s.cycles + n } := by
  have hk : KeepsCore (s.addCycles (early p n)) (f u) := (memWrite_keeps hwrite).trans (hf _)
  rw [store_eq hwrite, ((Spends.addCycles s _).trans hk.spends).advance_eq hk.pc (early_add p n)]

/-- A store without a hook; the write-back `f` does not depend on the cycles. -/
theorem store_writePlain {p : Phase} {n w a : Nat} {v : Byte} {f : State → State}
    (hf : ∀ u k, f (u.addCycles k) = (f u).addCycles k) (h : WritePlain s a) :
    store p n w a v f s = .next ((f (s.poke a v)).advance w n) := by
  have hswap : (s.addCycles (early p n)).poke a v = (s.poke a v).addCycles (early p n) := rfl
  rw [store_plain h.inside h.unhooked, hswap, hf, State.addCycles_advance, early_add]

/-- The stores that leave their pointer alone are `store` with a phase and a cost of their own; on
this core their cycles come after the write (spec R373). -/
theorem exec_steadyStore {r : Reg} {A q : Fin 64} {k : Word} {i : Instr} {a words cost : Nat}
    (hi : (i, a, words, cost) ∈
      [(.out A r, A.val + 32, 1, 1), (.sts k r, k.toNat, 2, 2), (.stX r, s.x.toNat, 1, 2),
        (.stdY q r, s.y.toNat + q.val, 1, 2), (.stdZ q r, s.z.toNat + q.val, 1, 2)]) :
    Costs s i cost ∧ (ThisCore s → cyclesAtWrite s i = 0) ∧
      ∃ p, cyclesAtWrite s i = early p (costOf s i) ∧
        ((i = .stdY q r → a < 65536) →
          exec i s = store p (costOf s i) words a (s.reg r) id s) := by
  simp only [List.mem_cons, List.not_mem_nil, or_false, Prod.mk.injEq] at hi
  obtain ⟨rfl, rfl, rfl, rfl⟩ | ⟨rfl, rfl, rfl, rfl⟩ | ⟨rfl, rfl, rfl, rfl⟩ |
    ⟨rfl, rfl, rfl, rfl⟩ | ⟨rfl, rfl, rfl, rfl⟩ := hi
  · exact ⟨.of_table (f := (·.out)) rfl, (·.early_entry (·.out) (·.out)), _, rfl, fun _ => rfl⟩
  · exact ⟨.of_table (f := (·.sts)) rfl, (·.early_entry (·.sts) (·.sts)), _, rfl, fun _ => rfl⟩
  · exact ⟨.of_table (f := (·.stX)) rfl, (·.early_entry (·.stX) (·.stX)), _, rfl, fun _ => rfl⟩
  · exact ⟨.of_table (f := (·.stdY)) rfl, (·.early_entry (·.stdY) (·.stdY)), _, rfl,
      fun h => atDisplaced_eq (h rfl) _⟩
  · exact ⟨.of_table (f := (·.stdZ)) rfl, (·.early_entry (·.stdZ) (·.stdZ)), _, rfl, fun _ => rfl⟩

/-- The stores with write-back: the increment comes after the access, the decrement before it; the
register is read before both. -/
theorem exec_store_writeBack {r : Reg} {lo : Nat} {inc dec : Instr}
    (hi : (lo, inc, dec) ∈
      [(26, .stXInc r, .stXDec r), (28, .stYInc r, .stYDec r), (30, .stZInc r, .stZDec r)]) :
    ((Costs s inc 2 ∧ (ThisCore s → cyclesAtWrite s inc = 0)) ∧
      ∃ p, cyclesAtWrite s inc = early p (costOf s inc) ∧
        exec inc s = store p (costOf s inc) 1 (s.pair lo).toNat (s.reg r)
          (·.setPair lo (s.pair lo + 1)) s) ∧
    (Costs s dec 2 ∧ (ThisCore s → cyclesAtWrite s dec = 0)) ∧
      ∃ p, cyclesAtWrite s dec = early p (costOf s dec) ∧
        exec dec s = store p (costOf s dec) 1 (s.pair lo - 1).toNat (s.reg r) id
          (s.setPair lo (s.pair lo - 1)) := by
  simp only [List.mem_cons, List.not_mem_nil, or_false, Prod.mk.injEq] at hi
  obtain ⟨rfl, rfl, rfl⟩ | ⟨rfl, rfl, rfl⟩ | ⟨rfl, rfl, rfl⟩ := hi
  · exact
      ⟨⟨⟨.of_table (f := (·.stXInc)) rfl, (·.early_entry (·.stXInc) (·.stXInc))⟩, _, rfl, rfl⟩,
        ⟨.of_table (f := (·.stXDec)) rfl, (·.early_entry (·.stXDec) (·.stXDec))⟩, _, rfl, rfl⟩
  · exact
      ⟨⟨⟨.of_table (f := (·.stYInc)) rfl, (·.early_entry (·.stYInc) (·.stYInc))⟩, _, rfl, rfl⟩,
        ⟨.of_table (f := (·.stYDec)) rfl, (·.early_entry (·.stYDec) (·.stYDec))⟩, _, rfl, rfl⟩
  · exact
      ⟨⟨⟨.of_table (f := (·.stZInc)) rfl, (·.early_entry (·.stZInc) (·.stZInc))⟩, _, rfl, rfl⟩,
        ⟨.of_table (f := (·.stZDec)) rfl, (·.early_entry (·.stZDec) (·.stZDec))⟩, _, rfl, rfl⟩

/-- Settles O15: every form is `store`, in whose write the environment does as it likes. -/
theorem storesAreOneMemWrite : Obligations.StoresAreOneMemWrite := by
  intro s r A q k
  refine ⟨fun i a words cost hi => ?_, fun lo inc dec hi => ?_⟩
  · obtain ⟨hcost, hafter, p, hearly, hexec⟩ := exec_steadyStore hi
    refine ⟨hcost, hafter, fun u hrange hwrite => ?_⟩
    rw [hearly] at hwrite
    exact (hexec hrange).trans (store_hooked .refl hwrite)
  · obtain ⟨⟨hcostInc, p, hinc, hexecInc⟩, hcostDec, p', hdec, hexecDec⟩ :=
      exec_store_writeBack (s := s) hi
    refine ⟨List.forall_mem_cons.2 ⟨hcostInc, List.forall_mem_singleton.2 hcostDec⟩,
      fun u hwrite => ?_, fun u hwrite => ?_⟩
    · rw [hinc] at hwrite
      exact hexecInc.trans (store_hooked (fun u => .setPair u lo _) hwrite)
    · rw [hdec] at hwrite
      exact hexecDec.trans (store_hooked .refl hwrite)

/-- Settles O16: without a hook the byte is replaced, before the pointer is incremented and after it
is decremented. -/
theorem plainStores : Obligations.PlainStores := by
  intro s r A q k
  refine ⟨fun i a words cost hi hrange hwrite => ?_, fun lo inc dec hi => ?_⟩
  · obtain ⟨hcost, -, p, -, hexec⟩ := exec_steadyStore hi
    refine ⟨_, (hexec hrange).trans (store_writePlain (fun _ _ => rfl) hwrite), ?_, ⟨?_, hcost⟩, ?_⟩
    · exact (State.peek_poke ..).trans (if_pos rfl)
    · exact (KeepsCore.poke s a _).follows words _
    · exact (OnlyWrites.poke s a _).advance words _
  · obtain ⟨⟨⟨hcostInc, -⟩, p, -, hexecInc⟩, ⟨hcostDec, -⟩, p', -, hexecDec⟩ :=
      exec_store_writeBack (s := s) hi
    refine ⟨fun hwrite => ?_, fun hwrite => ?_⟩
    · refine ⟨_, hexecInc.trans (store_writePlain (fun _ _ => rfl) hwrite), ?_, fun hlo hhi => ?_,
        ⟨?_, hcostInc⟩, ?_⟩
      · exact State.pair_setPair _ lo _
      · simp [hlo, hhi]
      · exact ((KeepsCore.poke s _ _).trans (.setPair _ lo _)).follows 1 _
      · exact ((OnlyWrites.poke s _ _).trans (.setPair _ lo _)).advance 1 _
    · refine ⟨_, hexecDec.trans (store_writePlain (fun _ _ => rfl)
        (hwrite.of_sameBeyond (.setPair s lo _))), ?_, fun hlo => ?_, fun hhi => ?_,
        ⟨?_, hcostDec⟩, ?_⟩
      · exact (State.peek_poke ..).trans (if_pos rfl)
      · exact ((OnlyWrites.poke _ _ _).data lo hlo.symm).trans (by simp)
      · exact ((OnlyWrites.poke _ _ _).data (lo + 1) hhi.symm).trans (by simp)
      · exact ((KeepsCore.setPair s lo _).trans (.poke _ _ _)).follows 1 _
      · exact (((OnlyWrites.setPair s lo _).trans (.poke _ _ _)).advance 1 _).mono fun _ => .symm

/-! ## Read-modify-write through Z (spec R183 to R186) -/

/-- On this core the cycles of a read and write come where the standard tables say (spec R373). -/
theorem ThisCore.readWrite_entry (hc : ThisCore s) (p : HookPhase → ReadWritePhase)
    (c : CostTable → Nat) :
    earlyRead (p s.params.phase) (c s.params.cost) = earlyRead (p .standard) (c .standard) ∧
      beforeWrite (p s.params.phase) (c s.params.cost) =
        beforeWrite (p .standard) (c .standard) := by
  rw [hc.cost, hc.phase]
  exact ⟨rfl, rfl⟩

/-- An exchange whose read and write both succeed, whatever the environment did in them; the
register that is combined is that of after the read. -/
theorem exchangeZ_hooked {p : ReadWritePhase} {n : Nat} {d : Reg} {f : Byte → Byte → Byte}
    {old : Byte} {w : State}
    (hread : memRead s.z.toNat (s.addCycles (earlyRead p n)) = .next (old, u))
    (hwrite : memWrite s.z.toNat (f (u.reg d) old) fullMask (u.addCycles (earlyWrite p n)) =
      .next w) :
    exchangeZ p n d f s =
      .next { w.setReg d old with
              pc := (s.pc + 1) % s.progWords, cycles := s.cycles + n } := by
  have hrw := readWrite_eq (f := fun old s1 => f (s1.reg d) old) hread hwrite
  have hpc : w.pc = s.pc := (memWrite_keeps hwrite).pc.trans (memRead_keeps hread).pc
  have hspends := (readWrite_spends hrw).trans (KeepsCore.poke w d.val old).spends
  rw [exchangeZ, hrw]
  exact congrArg Host.Outcome.next (hspends.advance_eq hpc (earlyRead_add p n) 1)

/-- An exchange without a hook. -/
theorem exchangeZ_plain {p : ReadWritePhase} {n : Nat} {d : Reg} {f : Byte → Byte → Byte}
    (hr : ReadPlain s s.z.toNat) (hw : WritePlain s s.z.toNat) :
    exchangeZ p n d f s =
      .next (((s.poke s.z.toNat (f (s.reg d) (s.peek s.z.toNat))).setReg d
        (s.peek s.z.toNat)).advance 1 n) := by
  rw [exchangeZ_hooked (memRead_plain (s := s.addCycles _) hr.inside hr.readHookAt_eq)
    (memWrite_plain (s := (s.addCycles _).addCycles _) hw.inside hw.unhooked), State.advance_eq]
  rfl

/-- The four are `exchangeZ` with a phase, a cost and a combination of their own; on this core their
cycles come after both accesses (spec R373). -/
theorem exec_exchangeZ {d : Reg} {i : Instr} {f : Byte → Byte → Byte}
    (hi : (i, f) ∈
      [(.xch d, fun v _ => v), (.las d, fun v old => v ||| old),
        (.lac d, fun v old => (0xFF - v) &&& old), (.lat d, fun v old => v ^^^ old)]) :
    Costs s i 2 ∧ (ThisCore s → cyclesAtRead s i = 0 ∧ cyclesAtWrite s i = 0) ∧
      ∃ p, cyclesAtRead s i = earlyRead p (costOf s i) ∧
        cyclesAtWrite s i = beforeWrite p (costOf s i) ∧
        exec i s = exchangeZ p (costOf s i) d f s := by
  simp only [List.mem_cons, List.not_mem_nil, or_false, Prod.mk.injEq] at hi
  obtain ⟨rfl, rfl⟩ | ⟨rfl, rfl⟩ | ⟨rfl, rfl⟩ | ⟨rfl, rfl⟩ := hi
  · exact ⟨.of_table (f := (·.xch)) rfl, (·.readWrite_entry (·.xch) (·.xch)), _, rfl, rfl, rfl⟩
  · exact ⟨.of_table (f := (·.las)) rfl, (·.readWrite_entry (·.las) (·.las)), _, rfl, rfl, rfl⟩
  · exact ⟨.of_table (f := (·.lac)) rfl, (·.readWrite_entry (·.lac) (·.lac)), _, rfl, rfl, rfl⟩
  · exact ⟨.of_table (f := (·.lat)) rfl, (·.readWrite_entry (·.lat) (·.lat)), _, rfl, rfl, rfl⟩

/-- Settles O17: the register gets the old byte last, so it keeps its value where Z addresses it. -/
theorem readModifyWriteThroughZ : Obligations.ReadModifyWriteThroughZ := by
  intro s d i f hi
  obtain ⟨hcost, hafter, p, hearly, hbefore, hexec⟩ := exec_exchangeZ (s := s) hi
  refine ⟨hcost, hafter, fun old u w hread hwrite => ?_, fun hr hw => ?_⟩
  · rw [hearly] at hread
    rw [hearly, hbefore, beforeWrite, Nat.add_sub_cancel_left] at hwrite
    exact hexec.trans (exchangeZ_hooked hread hwrite)
  · refine ⟨_, hexec.trans (exchangeZ_plain hr hw), ?_, fun hz => ?_, ⟨?_, hcost⟩, ?_⟩
    · exact (State.reg_setReg _ d d _).trans (if_pos rfl)
    · simp [hz]
    · exact ((KeepsCore.poke s _ _).trans (.poke _ d.val _)).follows 1 _
    · exact ((OnlyWrites.poke s _ _).trans (.poke _ d.val _)).advance 1 _

end Sys2Proof.Machine
end

section
/-!
PROOF. The stack and the register moves (spec R155 to R157, R160, R161).
-/

namespace Sys2Proof.Machine

variable {s : State}

/-! ## PUSH and POP (spec R160, R161) -/

/-- A store elsewhere leaves SP alone. -/
theorem State.sp_poke_of_ne (s : State) {a : Nat} (v : Byte) (h93 : a ≠ 93) (h94 : a ≠ 94) :
    (s.poke a v).sp = s.sp := by
  simp [State.sp_eq, h93.symm, h94.symm]

theorem State.highByte_sp (s : State) : highByte s.sp = s.peek 94 := highByte_word ..

theorem State.lowByte_sp (s : State) : lowByte s.sp = s.peek 93 := lowByte_word ..

/-- PUSH inside the data space: SP goes down from what the store left of it. -/
theorem exec_push (r : Reg) (h : s.sp.toNat < s.dataSize) :
    ∃ t, exec (.push r) s = .next t ∧ t.sp = (s.poke s.sp.toNat (s.reg r)).sp - 1 ∧
      (s.sp.toNat ≠ 93 → s.sp.toNat ≠ 94 → t.peek s.sp.toNat = s.reg r) ∧
      Retires s t (.push r) 1 2 ∧ OnlyWrites s t fun a => a = s.sp.toNat ∨ a = 93 ∨ a = 94 := by
  rw [exec, execPush, pushByte_next h]
  refine ⟨_, rfl, State.sp_setSp .., fun h93 h94 => ?_, ⟨?_, .of_table (f := (·.push)) rfl⟩, ?_⟩
  · simp [h93, h94]
  · exact ((KeepsCore.poke s _ _).trans (.setPair _ 93 _)).follows 1 _
  · exact ((OnlyWrites.poke s _ _).trans (.setPair _ 93 _)).advance 1 _

/-- Settles O19: the store leaves SP alone, so the decrement is that of SP at the start. -/
theorem pushStoresThenDecrements : Obligations.PushStoresThenDecrements := by
  intro s r
  refine ⟨fun hin h93 h94 => ?_, fun hout => ?_⟩
  · have h93 : s.sp.toNat ≠ 93 := fun h => h93 (BitVec.eq_of_toNat_eq h)
    have h94 : s.sp.toNat ≠ 94 := fun h => h94 (BitVec.eq_of_toNat_eq h)
    obtain ⟨t, hexec, hsp, hbyte, hret, hframe⟩ := exec_push r hin
    rw [State.sp_poke_of_ne s _ h93 h94] at hsp
    have hdown : t.sp.toNat = (65535 + s.sp.toNat) % 65536 := by rw [hsp, BitVec.toNat_sub]; rfl
    exact ⟨t, hexec, hbyte h93 h94, by omega, hret, hframe⟩
  · rw [exec, execPush, pushByte_fault hout, andThen_fault]

/-- Settles O20: the decrement reads SP with the pushed byte as one of its halves. -/
theorem pushOverItsOwnPointer : Obligations.PushOverItsOwnPointer := by
  intro s r hsp
  have hin : s.sp.toNat < s.dataSize := s.low_lt (by obtain h | h := hsp <;> rw [h] <;> decide)
  obtain ⟨t, hexec, hdown, -, hret, hframe⟩ := exec_push r hin
  refine ⟨t, hexec, hdown.trans (congrArg (· - 1) ?_), hret, hframe.mono fun x hx => ?_⟩
  · rw [State.highByte_sp, State.lowByte_sp, State.sp_eq (s.poke _ _)]
    obtain h | h := hsp <;> simp [h]
  · obtain h | h := hsp <;> rw [h] at hx
    · exact hx.elim .inl id
    · exact hx.elim .inr id

/-- Settles O21: the byte is read after SP went up, also where it is half of SP. -/
theorem popIncrementsThenLoads : Obligations.PopIncrementsThenLoads := by
  intro s d p
  refine ⟨fun hin => ?_, fun hout => ?_⟩
  · rw [exec, execPop, popByte_next hin]
    refine ⟨_, rfl, ?_, ?_, ⟨?_, .of_table (f := (·.pop)) rfl⟩, ?_⟩
    · have hsp : ((s.setSp p).setReg d ((s.setSp p).peek p.toNat)).sp = p :=
        (State.sp_poke_of_ne _ _ (Reg.ne_of_ge d (by decide)).symm
          (Reg.ne_of_ge d (by decide)).symm).trans (State.sp_setSp s p)
      exact (congrArg BitVec.toNat hsp).trans (BitVec.toNat_add ..)
    · exact ((State.reg_setReg _ d d _).trans (if_pos rfl)).trans
        (State.peek_setPair_low_first s 93 p.toNat p)
    · exact ((KeepsCore.setPair s 93 p).trans (.poke _ d.val _)).follows 1 _
    · exact (((OnlyWrites.setPair s 93 p).trans (.poke _ d.val _)).advance 1 _).mono fun _ => .symm
  · rw [exec, execPop, popByte_fault hout, andThen_fault]

/-- Settles O22, from the rules for PUSH and POP: SP goes down and up again, and the POP reads at
the address of the store. -/
theorem popReturnsWhatPushStored : Obligations.PopReturnsWhatPushStored := by
  intro s r d hin h93 h94
  obtain ⟨t, hpush, hbyte, hsp, hretPush, hst⟩ := (pushStoresThenDecrements s r).1 hin h93 h94
  have h93 : s.sp.toNat ≠ 93 := fun h => h93 (BitVec.eq_of_toNat_eq h)
  have h94 : s.sp.toNat ≠ 94 := fun h => h94 (BitVec.eq_of_toNat_eq h)
  have hup : (t.sp.toNat + 1) % 65536 = s.sp.toNat := by
    have := s.sp.isLt
    omega
  have hp : t.sp + 1 = s.sp := BitVec.eq_of_toNat_eq ((BitVec.toNat_add ..).trans hup)
  have hpop := (popIncrementsThenLoads t d).1
  have hsize : t.dataSize = s.dataSize := congrArg Params.dataSize hst.beyond.params
  rw [hp, hsize] at hpop
  obtain ⟨u, hpop, hspu, hreg, hretPop, -⟩ := hpop hin
  refine ⟨t, u, hpush, hpop, ?_, BitVec.eq_of_toNat_eq (hspu.trans hup), ?_⟩
  · rw [hreg, if_neg h93, if_neg h94, hbyte]
  · simp only [hretPop.follows.cycles, hretPush.follows.cycles, costOf, hst.beyond.params]

/-! ## Register moves (spec R155 to R157) -/

/-- Settles O11: MOVW takes the pair as it was before either byte is written. -/
theorem registerMoves : Obligations.RegisterMoves := by
  intro s d r k
  refine ⟨?_, ?_, ?_⟩
  · obtain ⟨hreg, hnext, hframe⟩ := setReg_advance_spec d (s.reg r) 1 s.params.cost.mov s
    exact ⟨_, rfl, hreg, ⟨hnext, .of_table (f := (·.mov)) rfl⟩, hframe⟩
  · obtain ⟨hreg, hnext, hframe⟩ := setReg_advance_spec d k 1 s.params.cost.ldi s
    exact ⟨_, rfl, hreg, ⟨hnext, .of_table (f := (·.ldi)) rfl⟩, hframe⟩
  · refine ⟨_, rfl, ?_, ?_, ⟨?_, .of_table (f := (·.movw)) rfl⟩, ?_⟩
    · simp [State.pair_eq]
    · simp [State.pair_eq]
    · exact (KeepsCore.setPair s d.val _).follows 1 _
    · exact (OnlyWrites.setPair s d.val _).advance 1 _

end Sys2Proof.Machine
end

section
/-!
PROOF. The program-memory instructions (spec R191 to R196), and those that do nothing (spec R197,
R198, R225, R226, R228).

LPM and ELPM are one operation: a byte of program memory goes to a register, and then a write-back
changes the pointer, which in the forms without increment is `id`.
-/

namespace Sys2Proof.Machine

variable {s : State}

/-! ## One load from program memory (spec R191 to R196) -/

/-- The byte at `b` goes to `d`, then the write-back `f`. -/
def loadProgByte (n b : Nat) (d : Reg) (f : State → State) (s : State) : Res State :=
  andThen (progByte b s) fun v => .next ((f (s.setReg d v)).advance 1 n)

theorem loadProgByte_next {n b : Nat} {d : Reg} {f : State → State} (h : b < s.params.progBytes) :
    loadProgByte n b d f s = .next ((f (s.setReg d (programByte s b))).advance 1 n) := by
  rw [loadProgByte, progByte_next h]; rfl

theorem loadProgByte_fault {n b : Nat} {d : Reg} {f : State → State} (h : s.params.progBytes ≤ b) :
    loadProgByte n b d f s = .fault (.progAddressOutOfRange b) := by
  rw [loadProgByte, progByte_fault h, andThen_fault]

/-- Without a write-back only the register is written. -/
theorem loadProgByte_id_spec (n : Nat) {b : Nat} (d : Reg) (h : b < s.params.progBytes) :
    ∃ t, loadProgByte n b d id s = .next t ∧ t.reg d = programByte s b ∧ Follows s t 1 n ∧
      OnlyWrites s t fun a => a = d.val :=
  ⟨_, loadProgByte_next h, setReg_advance_spec d (programByte s b) 1 n s⟩

/-! ## The write-backs -/

/-- What a write-back of Z or RAMPZ:Z leaves alone. -/
structure WritesPointer (f : State → State) : Prop where
  keeps : ∀ u, KeepsCore u (f u)
  frame : ∀ u, OnlyWrites u (f u) fun a => a = 30 ∨ a = 31 ∨ a = 91

theorem WritesPointer.setZ (v : Word) : WritesPointer (·.setZ v) where
  keeps u := .setPair u 30 v
  frame u := (OnlyWrites.setPair u 30 v).mono fun _ => .imp_right .inl

theorem WritesPointer.setElpmAddress (e : Nat) : WritesPointer (setElpmAddress e) where
  keeps := .setElpmAddress e
  frame u := ((OnlyWrites.setPair u 30 _).trans (.poke _ 91 _)).mono fun _ => or_assoc.1

theorem State.z_poke_rampz (s : State) (v : Byte) : (s.poke 91 v).z = s.z := by
  simp [State.z_eq]

/-- RAMPZ:Z then holds the address modulo 2^24. -/
theorem elpmAddress_setElpmAddress (e : Nat) (s : State) :
    elpmAddress (setElpmAddress e s) = e % 2 ^ 24 := by
  have hz : (setElpmAddress e s).z = BitVec.ofNat 16 (e % 2 ^ 24) :=
    (State.z_poke_rampz _ _).trans (State.z_setZ s _)
  have hrampz : (setElpmAddress e s).rampz = BitVec.ofNat 8 (e % 2 ^ 24 / 65536) :=
    (State.peek_poke _ 91 91 _).trans (if_pos rfl)
  rw [elpmAddress, hz, hrampz, BitVec.toNat_ofNat, BitVec.toNat_ofNat]
  omega

/-! ## The six forms -/

/-- LPM and ELPM: the address of the byte, and the three forms. -/
def programLoads (s : State) (d : Reg) : List (Nat × Instr × Instr × Instr) :=
  [(s.z.toNat, .lpmR0, .lpmZ d, .lpmZInc d),
    ((s.peek 91).toNat * 65536 + s.z.toNat, .elpmR0, .elpmZ d, .elpmZInc d)]

/-- The forms without increment are `loadProgByte` with no write-back. -/
theorem exec_loadProgByte {d : Reg} {b : Nat} {implied plain inc : Instr}
    (hi : (b, implied, plain, inc) ∈ programLoads s d) :
    (Costs s implied 3 ∧ exec implied s = loadProgByte (costOf s implied) b 0 id s) ∧
      Costs s plain 3 ∧ exec plain s = loadProgByte (costOf s plain) b d id s := by
  simp only [programLoads, List.mem_cons, List.not_mem_nil, or_false, Prod.mk.injEq] at hi
  obtain ⟨rfl, rfl, rfl, -⟩ | ⟨rfl, rfl, rfl, -⟩ := hi
  · exact ⟨⟨.of_table (f := (·.lpmR0)) rfl, rfl⟩, .of_table (f := (·.lpmZ)) rfl, rfl⟩
  · exact ⟨⟨.of_table (f := (·.elpmR0)) rfl, rfl⟩, .of_table (f := (·.elpmZ)) rfl, rfl⟩

/-- The forms with increment write the pointer last: LPM the 16 bits of Z, ELPM 24 bits. -/
theorem exec_loadProgByte_increment {d : Reg} {b : Nat} {implied plain inc : Instr}
    (hi : (b, implied, plain, inc) ∈ programLoads s d) :
    Costs s inc 3 ∧ ∃ f, WritesPointer f ∧ exec inc s = loadProgByte (costOf s inc) b d f s ∧
      (inc = .lpmZInc d →
        ∀ u, (f u).z.toNat = (b + 1) % 65536 ∧ (f u).peek 91 = u.peek 91) ∧
      (inc = .elpmZInc d → ∀ u, elpmAddress (f u) = (b + 1) % 2 ^ 24) := by
  simp only [programLoads, List.mem_cons, List.not_mem_nil, or_false, Prod.mk.injEq] at hi
  obtain ⟨rfl, -, -, rfl⟩ | ⟨rfl, -, -, rfl⟩ := hi
  · refine ⟨.of_table (f := (·.lpmZInc)) rfl, _, .setZ (incremented s.z), rfl, fun _ u => ⟨?_, ?_⟩,
      nofun⟩
    · rw [State.z_setZ, incremented]; exact BitVec.toNat_add ..
    · exact (OnlyWrites.setPair u 30 _).data 91 (by decide)
  · exact ⟨.of_table (f := (·.elpmZInc)) rfl, _, .setElpmAddress _, rfl, nofun,
      fun _ => elpmAddress_setElpmAddress _⟩

/-- Settles O25: each form is `loadProgByte`, which reads before it writes and writes the pointer
last. -/
theorem loadProgramMemory : Obligations.LoadProgramMemory := by
  intro s d b implied plain inc hi
  obtain ⟨⟨hcostImplied, hexecImplied⟩, hcostPlain, hexecPlain⟩ := exec_loadProgByte hi
  obtain ⟨hcostInc, f, hf, hexecInc, hlpm, helpm⟩ := exec_loadProgByte_increment hi
  refine ⟨fun hin => ⟨?_, ?_, ?_⟩, fun hout => ?_⟩
  · obtain ⟨t, ht, hreg, hnext, hframe⟩ := loadProgByte_id_spec (costOf s implied) 0 hin
    exact ⟨t, hexecImplied.trans ht, hreg, ⟨hnext, hcostImplied⟩, hframe⟩
  · obtain ⟨t, ht, hreg, hnext, hframe⟩ := loadProgByte_id_spec (costOf s plain) d hin
    exact ⟨t, hexecPlain.trans ht, hreg, ⟨hnext, hcostPlain⟩, hframe⟩
  · refine ⟨_, hexecInc.trans (loadProgByte_next hin), fun hlo hhi => ?_,
      fun h => (hlpm h _).imp_right (Eq.trans · ?_), fun h => helpm h _, ⟨?_, hcostInc⟩, ?_⟩
    · have hd91 : d.val ≠ 91 := (Reg.ne_of_ge d (by decide)).symm
      exact ((hf.frame _).data d.val (by simp [hlo, hhi, hd91])).trans
        ((State.reg_setReg s d d _).trans (if_pos rfl))
    · exact (State.peek_setReg s d 91 _).trans (if_neg (Reg.ne_of_ge d (by decide)))
    · exact ((KeepsCore.poke s d.val _).trans (hf.keeps _)).follows 1 _
    · exact ((OnlyWrites.poke s d.val _).trans (hf.frame _)).advance 1 _
  · exact List.forall_mem_cons.2 ⟨hexecImplied.trans (loadProgByte_fault hout),
      List.forall_mem_cons.2 ⟨hexecPlain.trans (loadProgByte_fault hout),
        List.forall_mem_singleton.2 (hexecInc.trans (loadProgByte_fault hout))⟩⟩

/-! ## Instructions that do nothing (spec R197, R198, R225, R226, R228) -/

/-- The next instruction follows, and nothing else happens. -/
theorem advance_spec (w n : Nat) (s : State) :
    Follows s (s.advance w n) w n ∧ WritesNothing s (s.advance w n) :=
  ⟨(KeepsCore.refl s).follows w n, .advance s w n, fun _ _ => rfl⟩

/-- Each is the end of an instruction of one word, with a cost of its own. -/
theorem exec_noOperation {i : Instr} (hi : i ∈ [.nop, .sleep, .brk, .spm, .spmZInc]) :
    Costs s i 1 ∧ exec i s = .next (s.advance 1 (costOf s i)) := by
  simp only [List.mem_cons, List.not_mem_nil, or_false] at hi
  obtain rfl | rfl | rfl | rfl | rfl := hi
  · exact ⟨.of_table (f := (·.nop)) rfl, rfl⟩
  · exact ⟨.of_table (f := (·.sleep)) rfl, rfl⟩
  · exact ⟨.of_table (f := (·.brk)) rfl, rfl⟩
  · exact ⟨.of_table (f := (·.spm)) rfl, rfl⟩
  · exact ⟨.of_table (f := (·.spmZInc)) rfl, rfl⟩

/-- Settles O32: the five only end. -/
theorem noOperations : Obligations.NoOperations := by
  intro s i hi
  obtain ⟨hcost, hexec⟩ := exec_noOperation hi
  obtain ⟨hnext, hframe⟩ := advance_spec 1 (costOf s i) s
  exact ⟨_, hexec, ⟨hnext, hcost⟩, hframe⟩

end Sys2Proof.Machine
end

section
/-!
PROOF. Control transfer: the return address on the stack, the jumps, calls and returns, the branches
and the skips (spec R200, R201, R203 to R220).

A transfer is `u.jump`, where `u` is the state at the start or after the return address was moved;
such a `u` keeps `pc`, `cycles` and the parameters, so that the end of the instruction is stated
once for every `u` with `KeepsCore s u`.
-/

namespace Sys2Proof.Machine

variable {s u : State}

/-! ## The return address on the stack (spec R200, R201) -/

theorem pc22_iff (s : State) : s.pc22 = true ↔ 65536 < s.progWords := by
  rw [State.pc22, Params.pc22, Params.progBytes, State.progWords, decide_eq_true_eq]
  omega

theorem two_le_retBytes (s : State) : 2 ≤ s.retBytes := by
  rw [retBytes_eq]
  split <;> decide

/-- A return address of two bytes with its highest at `i` reaches below 0 only from 0, one of three
also from 1. -/
theorem eq_zero_or_one_of_lt_retBytes {i : Nat} (h : i + 1 < s.retBytes) :
    i = 0 ∨ i = 1 ∧ s.pc22 = true := by
  rw [retBytes_eq] at h
  split at h
  · next hpc => exact (show i = 0 ∨ i = 1 by omega).imp_right (⟨·, hpc⟩)
  · exact .inl (by omega)

theorem peek_twoBytes {p r n : Nat} (hp : 1 ≤ p) (hn : n < 2) :
    ((s.poke p (byteOf r 0)).poke (p - 1) (byteOf r 1)).peek (p - n) = byteOf r n := by
  obtain rfl | rfl : n = 0 ∨ n = 1 := by omega
  · rw [Nat.sub_zero, State.peek_poke, if_neg (by omega), State.peek_poke, if_pos rfl]
  · rw [State.peek_poke, if_pos rfl]

/-- Where the bytes fit, `PushRet` stores them below SP and then SP itself. -/
theorem pushRet_spec (ret : Nat) (h : PushRoom s) :
    ∃ t, pushRet ret s = .next t ∧ t.sp = s.sp - BitVec.ofNat 16 s.retBytes ∧
      (∀ n, n < s.retBytes → s.sp.toNat - n ≠ 93 → s.sp.toNat - n ≠ 94 →
        t.peek (s.sp.toNat - n) = byteOf (ret % s.progWords) n) ∧
      OnlyWrites s t fun a => (a ≤ s.sp.toNat ∧ s.sp.toNat < a + s.retBytes) ∨ a = 93 ∨ a = 94 := by
  have hbottom := h.bottom
  have htwo := (OnlyWrites.poke s s.sp.toNat (byteOf (ret % s.progWords) 0)).trans
    (.poke _ (s.sp.toNat - 1) (byteOf (ret % s.progWords) 1))
  rw [pushRet_next hbottom h.top]
  by_cases hpc : s.pc22 = true
  · have hthree : s.retBytes = 3 := by rw [retBytes_eq, if_pos hpc]
    rw [if_pos hpc, hthree]
    rw [hthree] at hbottom
    refine ⟨_, rfl, State.sp_setSp .., fun n hn h93 h94 => ?_, ?_⟩
    · rw [State.peek_setSp, if_neg h94, if_neg h93, State.peek_poke]
      split
      · next heq => rw [show n = 2 by omega]
      · exact peek_twoBytes (by omega) (by omega)
    · exact ((htwo.trans (.poke _ _ _)).trans (.setPair _ 93 _)).mono fun a ha => by omega
  · have hbytes : s.retBytes = 2 := by rw [retBytes_eq, if_neg hpc]
    rw [if_neg hpc, hbytes]
    rw [hbytes] at hbottom
    refine ⟨_, rfl, State.sp_setSp .., fun n hn h93 h94 => ?_, ?_⟩
    · rw [State.peek_setSp, if_neg h94, if_neg h93]
      exact peek_twoBytes (by omega) hn
    · exact (htwo.trans (.setPair _ 93 _)).mono fun a ha => by omega

theorem pushRet_fault_top (ret : Nat) (h : s.dataSize ≤ s.sp.toNat) :
    pushRet ret s = .fault (.dataAddressOutOfRange s.sp.toNat) := by
  rw [pushRet, rawWrite_fault (by omega), andThen_fault]

theorem pushRet_fault_bottom (ret : Nat) (hin : s.sp.toNat < s.dataSize)
    (h : s.sp.toNat + 1 < s.retBytes) : pushRet ret s = .fault (.dataAddressOutOfRange (-1)) := by
  have hdata := s.low_lt (a := 0) (by decide)
  simp only [pushRet]
  rw [rawWrite_next (by omega) (by omega), andThen_next]
  obtain h0 | ⟨h1, hpc⟩ := eq_zero_or_one_of_lt_retBytes h
  · rw [h0, rawWrite_fault (by omega), andThen_fault]
    rfl
  · rw [h1, rawWrite_next (by omega) (by rw [State.poke_dataSize]; omega), andThen_next, if_pos hpc,
      rawWrite_fault (by omega), andThen_fault]
    rfl

/-- Settles O23, by the rule for the store and those for the two aborts. -/
theorem returnAddressPushed : Obligations.ReturnAddressPushed := by
  intro s ret
  refine ⟨fun hroom => ?_, pushRet_fault_top ret, pushRet_fault_bottom ret⟩
  obtain ⟨t, hpush, hsp, hbytes, hframe⟩ := pushRet_spec ret hroom
  have hkeeps := pushRet_keeps hpush
  refine ⟨t, hpush, hsp, fun n hn h93 h94 => ?_, hkeeps.pc, hkeeps.cycles, hframe⟩
  rw [hbytes n hn h93 h94, byteOf_toNat]

/-- Where the bytes fit, `PopRet` reads them below the new SP. -/
theorem popRet_spec (h : PopRoom s) :
    popRet s =
      .next ((s.peek (popTop s).toNat).toNat + 256 * (s.peek ((popTop s).toNat - 1)).toNat +
          (if s.pc22 then 65536 * (s.peek ((popTop s).toNat - 2)).toNat else 0),
        s.setSp (popTop s)) := by
  rw [popRet_next h.bottom h.top, mul_ite, Nat.mul_zero]
  rfl

theorem popRet_fault_top (h : s.dataSize ≤ (popTop s).toNat) :
    popRet s = .fault (.dataAddressOutOfRange (popTop s).toNat) := by
  rw [popTop] at h ⊢
  rw [popRet, rawRead_fault (by omega), andThen_fault]

theorem popRet_fault_bottom (hin : (popTop s).toNat < s.dataSize)
    (h : (popTop s).toNat + 1 < s.retBytes) : popRet s = .fault (.dataAddressOutOfRange (-1)) := by
  have hdata := s.low_lt (a := 0) (by decide)
  have hlow := eq_zero_or_one_of_lt_retBytes h
  rw [popTop] at hin hlow
  simp only [popRet]
  rw [rawRead_next (by omega) (by omega), andThen_next]
  obtain h0 | ⟨h1, hpc⟩ := hlow
  · rw [h0, rawRead_fault (by omega), andThen_fault]
    rfl
  · rw [h1, rawRead_next (by omega) (by omega), andThen_next, if_pos hpc,
      rawRead_fault (by omega), andThen_fault]
    rfl

/-- A return address is its bytes: two where it lies below 2^16, three below 2^24. -/
theorem returnAddress_bytes {ret : Nat} (hret : ret < s.progWords) (hmax : s.progWords ≤ 2 ^ 22) :
    (byteOf ret 0).toNat + 256 * (byteOf ret 1).toNat +
      (if s.pc22 then 65536 * (byteOf ret 2).toNat else 0) = ret := by
  rw [byteOf_toNat, byteOf_toNat, byteOf_toNat]
  split
  · omega
  · next hpc =>
    rw [pc22_iff] at hpc
    omega

/-- Settles O24: PopRet reads the bytes at the addresses where PushRet stored them. -/
theorem popRetInvertsPushRet : Obligations.PopRetInvertsPushRet := by
  intro s ret hroom hmax hret hapart
  obtain ⟨t, hpush, hsp, hbytes, -⟩ := pushRet_spec ret hroom
  have hparams := (pushRet_keeps hpush).params
  have hretBytes : t.retBytes = s.retBytes := congrArg Params.retBytes hparams
  have hpc22 : t.pc22 = s.pc22 := congrArg Params.pc22 hparams
  have htop : popTop t = s.sp := by rw [popTop, hretBytes, hsp, BitVec.sub_add_cancel]
  have hpopRoom : PopRoom t :=
    ⟨by rw [htop, hretBytes]; exact hroom.bottom,
      by rw [htop, (pushRet_keeps hpush).dataSize]; exact hroom.top⟩
  have hpushed n (hn : n < s.retBytes) : t.peek (s.sp.toNat - n) = byteOf ret n := by
    rw [hbytes n hn (hapart n hn).1 (hapart n hn).2, Nat.mod_eq_of_lt hret]
  have hvalue : (t.peek s.sp.toNat).toNat + 256 * (t.peek (s.sp.toNat - 1)).toNat +
      (if s.pc22 then 65536 * (t.peek (s.sp.toNat - 2)).toNat else 0) = ret := by
    have htwo := two_le_retBytes s
    refine Eq.trans ?_ (returnAddress_bytes hret hmax)
    rw [← hpushed 0 (by omega), ← hpushed 1 (by omega), Nat.sub_zero]
    split
    · next hpc => rw [← hpushed 2 (by rw [retBytes_eq, if_pos hpc]; decide)]
    · rfl
  refine ⟨t, t.setSp s.sp, hpush, ?_, State.sp_setSp .., fun a h93 h94 => ?_⟩
  · rw [popRet_spec hpopRoom, htop, hpc22, hvalue]
  · rw [State.peek_setSp, if_neg h94, if_neg h93]

/-! ## The end of a transfer (spec R19, R202) -/

theorem OnlyWrites.jump {t : State} {p : Nat → Prop} (h : OnlyWrites s t p) (k : Int) (n : Nat) :
    OnlyWrites s (t.jump k n) p :=
  ⟨h.beyond.trans (.jump t k n), h.data⟩

theorem WritesNothing.refl (s : State) : WritesNothing s s := ⟨.refl s, fun _ _ => rfl⟩

/-- A target that may be negative. -/
theorem KeepsCore.jump_spec (h : KeepsCore s u) (hpos : 0 < s.progWords) (k : Int) (n : Nat) :
    ((u.jump k n).pc : Int) = k % s.progWords ∧ (u.jump k n).cycles = s.cycles + n ∧
      WritesNothing u (u.jump k n) := by
  have hprog : u.progWords = s.progWords := congrArg Params.progWords h.params
  refine ⟨?_, ?_, (WritesNothing.refl u).jump k n⟩
  · rw [State.jump_pc, hprog, Int.toNat_of_nonneg (Int.emod_nonneg k (by omega))]
  · rw [State.jump_cycles, h.cycles]

/-- A target that is a natural number. -/
theorem KeepsCore.jump_natCast_spec (h : KeepsCore s u) (k n : Nat) :
    (u.jump k n).pc = k % s.progWords ∧ (u.jump k n).cycles = s.cycles + n ∧
      WritesNothing u (u.jump k n) := by
  have hprog : u.progWords = s.progWords := congrArg Params.progWords h.params
  refine ⟨?_, ?_, (WritesNothing.refl u).jump k n⟩
  · rw [State.jump_natCast, hprog]
  · rw [State.jump_cycles, h.cycles]

/-- `sext_N` where `m` is the weight of the sign bit (spec R75). -/
theorem offset_eq {n m : Nat} (hm : 2 ^ n = 2 * m) (k : BitVec n) :
    offset k = if k.toNat < m then (k.toNat : Int) else k.toNat - (2 * m : Nat) := by
  rw [offset, BitVec.toInt_eq_toNat_cond, hm]
  exact if_congr (Nat.mul_lt_mul_left (by decide)) rfl rfl

theorem relTarget_twelve (s : State) (k : BitVec 12) :
    relTarget s k =
      (s.pc : Int) + 1 + (if k.toNat < 2048 then (k.toNat : Int) else k.toNat - 4096) :=
  congrArg _ (offset_eq (m := 2048) rfl k)

theorem relTarget_seven (s : State) (k : BitVec 7) :
    relTarget s k =
      (s.pc : Int) + 1 + (if k.toNat < 64 then (k.toNat : Int) else k.toNat - 128) :=
  congrArg _ (offset_eq (m := 64) rfl k)

/-! ## Jumps (spec R203 to R206) -/

/-- Settles O26: each is `jump` to its target. -/
theorem jumpsReduceTheirTarget : Obligations.JumpsReduceTheirTarget := by
  intro s k k22 hpos
  have hs := KeepsCore.refl s
  refine ⟨?_, ?_, ?_, ?_⟩
  · obtain ⟨hpc, hcycles, hframe⟩ := hs.jump_spec hpos (relTarget s k) s.params.cost.rjmp
    exact ⟨_, rfl, relTarget_twelve s k ▸ hpc, hcycles, .of_table (f := (·.rjmp)) rfl, hframe⟩
  · obtain ⟨hpc, hcycles, hframe⟩ := hs.jump_natCast_spec s.z.toNat s.params.cost.ijmp
    exact ⟨_, rfl, hpc, hcycles, .of_table (f := (·.ijmp)) rfl, hframe⟩
  · obtain ⟨hpc, hcycles, hframe⟩ := hs.jump_natCast_spec (eindTarget s) s.params.cost.eijmp
    exact ⟨_, rfl, hpc, hcycles, .of_table (f := (·.eijmp)) rfl, hframe⟩
  · obtain ⟨hpc, hcycles, hframe⟩ := hs.jump_natCast_spec k22.toNat s.params.cost.jmp
    exact ⟨_, rfl, hpc, hcycles, .of_table (f := (·.jmp)) rfl, hframe⟩

/-! ## Calls (spec R207 to R210) -/

theorem Costs.of_callCost {i : Instr} {c : CostTable → CallCost}
    (h : costOf s i = callCost (c s.params.cost) s.pc22) :
    Costs s i (callCost (c .standard) s.pc22) := fun hc => by rw [h, hc.cost]

/-- A call after whose push the state is `u` ends as a jump from `u`. -/
theorem exec_calls {k : BitVec 12} (hu : pushRet (s.pc + 1) s = .next u) :
    exec (.rcall k) s = .next (u.jump (relTarget s k) (costOf s (.rcall k))) ∧
      exec .icall s = .next (u.jump u.z.toNat (costOf s .icall)) ∧
      exec .eicall s = .next (u.jump (eindTarget u) (costOf s .eicall)) := by
  refine ⟨?_, ?_, ?_⟩
  · rw [exec, execRcall, hu, andThen_next, relTarget, (pushRet_keeps hu).pc]
    rfl
  · rw [exec, execIcall, hu]
    rfl
  · rw [exec, execEicall, hu]
    rfl

theorem exec_call {k : BitVec 22} (hu : pushRet (s.pc + 2) s = .next u) :
    exec (.call k) s = .next (u.jump k.toNat (costOf s (.call k))) := by
  rw [exec, execCall, hu]
  rfl

/-- Settles O27: the push keeps what the transfer needs of the start. -/
theorem callsPushThenTransfer : Obligations.CallsPushThenTransfer := by
  intro s k k22 hpos hroom
  obtain ⟨u, hpush, -⟩ := pushRet_spec (s.pc + 1) hroom
  obtain ⟨v, hpush2, -⟩ := pushRet_spec (s.pc + 2) hroom
  have hu := pushRet_keeps hpush
  have hv := pushRet_keeps hpush2
  obtain ⟨hrcall, hicall, heicall⟩ := exec_calls (k := k) hpush
  refine ⟨⟨u, hpush, ?_⟩, ⟨u, hpush, ?_, ?_⟩, ⟨v, hpush2, ?_⟩⟩
  · obtain ⟨hpc, hcycles, hframe⟩ := hu.jump_spec hpos (relTarget s k) (costOf s (.rcall k))
    exact ⟨_, hrcall, relTarget_twelve s k ▸ hpc, hcycles, .of_callCost (c := (·.rcall)) rfl,
      hframe⟩
  · obtain ⟨hpc, hcycles, hframe⟩ := hu.jump_natCast_spec u.z.toNat (costOf s .icall)
    exact ⟨_, hicall, hpc, hcycles, .of_callCost (c := (·.icall)) rfl, hframe⟩
  · obtain ⟨hpc, hcycles, hframe⟩ := hu.jump_natCast_spec (eindTarget u) (costOf s .eicall)
    exact ⟨_, heicall, hpc, hcycles, .of_callCost (c := (·.eicall)) rfl, hframe⟩
  · obtain ⟨hpc, hcycles, hframe⟩ := hv.jump_natCast_spec k22.toNat (costOf s (.call k22))
    exact ⟨_, exec_call hpush2, hpc, hcycles, .of_callCost (c := (·.call)) rfl, hframe⟩

/-! ## Returns (spec R211, R212) -/

theorem exec_ret {v : Nat} (h : popRet s = .next (v, u)) :
    exec .ret s = .next (u.jump v (costOf s .ret)) := by
  rw [exec, execRet, h]
  rfl

/-- RETI is a return that then sets I. -/
theorem exec_reti {v : Nat} (h : popRet s = .next (v, u)) :
    exec .reti s = .next ((u.jump v (costOf s .reti)).setFlag flagI true) := by
  rw [exec, execReti, returnFromInterrupt, h]
  rfl

theorem exec_return_fault {i : Instr} (hi : i ∈ [Instr.ret, .reti]) {e : Fault}
    (h : popRet s = .fault e) : exec i s = .fault e := by
  simp only [List.mem_cons, List.not_mem_nil, or_false] at hi
  obtain rfl | rfl := hi
  · rw [exec, execRet, h, andThen_fault]
  · rw [exec, execReti, returnFromInterrupt, h, andThen_fault, andThen_fault]

theorem State.sp_setFlag (s : State) (j : Nat) (b : Bool) : (s.setFlag j b).sp = s.sp :=
  s.sp_poke_of_ne _ (by decide) (by decide)

/-- Settles O28: both jump from the state with SP moved; RETI then writes I. -/
theorem returnsPopThenTransfer : Obligations.ReturnsPopThenTransfer := by
  intro s i v
  refine ⟨fun hroom => ?_, fun hout r hr => exec_return_fault hr (popRet_fault_top hout),
    fun hin hlow r hr => exec_return_fault hr (popRet_fault_bottom hin hlow)⟩
  have hpop : popRet s = .next (v, s.setSp (popTop s)) := popRet_spec hroom
  have hkeeps : KeepsCore s (s.setSp (popTop s)) := .setPair s 93 _
  have hframe : OnlyWrites s (s.setSp (popTop s)) fun a => a = 93 ∨ a = 94 := .setPair s 93 _
  refine ⟨?_, ?_⟩
  · obtain ⟨hpc, hcycles, -⟩ := hkeeps.jump_natCast_spec v (costOf s .ret)
    exact ⟨_, exec_ret hpop, hpc, State.sp_setSp s _, hcycles,
      .of_callCost (c := (·.ret)) rfl, hframe.jump _ _⟩
  · obtain ⟨hpc, hcycles, -⟩ := hkeeps.jump_natCast_spec v (costOf s .reti)
    refine ⟨_, exec_reti hpop, hpc, ?_, ?_, hcycles,
      .of_callCost (c := (·.reti)) rfl, ?_, fun j hj => ?_⟩
    · exact (State.sp_setFlag ..).trans (State.sp_setSp s _)
    · exact (State.flag_setFlag _ _ _ _ (by decide)).trans (if_pos rfl)
    · exact ((hframe.jump _ _).trans (.poke _ addrSreg _)).mono fun _ => or_assoc.1
    · rw [flag_setFlag_ne _ (by decide) (List.mem_singleton.not.1 hj)]
      exact flag_setSp s _ j

/-! ## Branches (spec R213, R214) -/

/-- BRBS and BRBC are `branch` on a bit of SREG or on its complement, with a cost of their own. -/
theorem exec_branch {f : BitNo} {k : BitVec 7} {i : Instr} {taken : Bool} {c : BranchCost}
    (hi : (i, taken, c) ∈
      [(.brbs f k, s.flag f.val, s.params.cost.brbs),
        (.brbc f k, !s.flag f.val, s.params.cost.brbc)]) :
    (ThisCore s → c = ⟨1, 2⟩) ∧ exec i s = branch c taken k s := by
  simp only [List.mem_cons, List.not_mem_nil, or_false, Prod.mk.injEq] at hi
  obtain ⟨rfl, rfl, rfl⟩ | ⟨rfl, rfl, rfl⟩ := hi
  · exact ⟨fun hc => hc.cost ▸ rfl, rfl⟩
  · exact ⟨fun hc => hc.cost ▸ rfl, rfl⟩

/-- Settles O29: a jump if taken, else the end of a one-word instruction. -/
theorem branchesOnOneStatusBit : Obligations.BranchesOnOneStatusBit := by
  intro s f k i taken c hpos hi
  obtain ⟨hcost, hexec⟩ := exec_branch hi
  refine ⟨hcost, _, hexec, ?_⟩
  cases taken with
  | true =>
    obtain ⟨hpc, hcycles, hframe⟩ := (KeepsCore.refl s).jump_spec hpos (relTarget s k) c.taken
    exact ⟨fun _ => ⟨relTarget_seven s k ▸ hpc, hcycles⟩, nofun, hframe⟩
  | false =>
    obtain ⟨hnext, hframe⟩ := advance_spec 1 c.notTaken s
    exact ⟨nofun, fun _ => hnext, hframe⟩

/-! ## Skips (spec R215 to R220) -/

theorem not_bit_eq_decide (x : Byte) (n : Nat) :
    (!bit x n) = decide (x.toNat / 2 ^ n % 2 = 0) := by
  rw [bit_eq_decide, ← decide_not]
  exact decide_eq_decide.2 Nat.mod_two_not_eq_one

/-- The words that a skip would skip: those of the next instruction (spec R215). -/
def skippedWords (s : State) : Nat := if isTwoWord (Cells.read s.prog (s.pc + 1)) then 2 else 1

/-- The entry of a skip's cost for a skip over those words. -/
def skippedCost (c : SkipCost) (s : State) : Nat :=
  if isTwoWord (Cells.read s.prog (s.pc + 1)) then c.twoWords else c.oneWord

/-- `pc` and `cycles` of the start moved on, in a state that has kept them. -/
theorem KeepsCore.advance_eq (h : KeepsCore s u) (w n : Nat) :
    u.advance w n = { u with pc := (s.pc + w) % s.progWords, cycles := s.cycles + n } :=
  h.spends.advance_eq h.pc (Nat.zero_add n) w

theorem KeepsCore.skip_true (h : KeepsCore s u) {c : SkipCost} (hnext : s.pc + 1 < s.progWords) :
    skip c true u = .next (u.advance (1 + skippedWords s) (skippedCost c s)) := by
  have hprog : u.progWords = s.progWords := congrArg Params.progWords h.params
  rw [Machine.skip_true (by rw [h.pc, hprog]; exact hnext), h.pc, h.prog]
  rfl

theorem KeepsCore.skip_true_fault (h : KeepsCore s u) {c : SkipCost}
    (hlast : s.progWords ≤ s.pc + 1) :
    skip c true u = .fault (.progAddressOutOfRange (s.pc + 1)) := by
  have hprog : u.progWords = s.progWords := congrArg Params.progWords h.params
  rw [Machine.skip_true_fault (by rw [h.pc, hprog]; exact hlast), h.pc]

/-- CPSE, SBRC and SBRS are `skip` with a condition and a cost of their own. -/
theorem exec_skipOnRegisters {d r : Reg} {b : BitNo} {i : Instr} {cond : Bool} {c : SkipCost}
    (hi : (i, cond, c) ∈
      [(.cpse d r, decide (s.reg d = s.reg r), s.params.cost.cpse),
        (.sbrc r b, decide ((s.reg r).toNat / 2 ^ b.val % 2 = 0), s.params.cost.sbrc),
        (.sbrs r b, decide ((s.reg r).toNat / 2 ^ b.val % 2 = 1), s.params.cost.sbrs)]) :
    (ThisCore s → c = ⟨1, 2, 3⟩) ∧ exec i s = skip c cond s := by
  simp only [List.mem_cons, List.not_mem_nil, or_false, Prod.mk.injEq] at hi
  obtain ⟨rfl, rfl, rfl⟩ | ⟨rfl, rfl, rfl⟩ | ⟨rfl, rfl, rfl⟩ := hi
  · exact ⟨fun hc => hc.cost ▸ rfl, rfl⟩
  · exact ⟨fun hc => hc.cost ▸ rfl, by rw [← not_bit_eq_decide]; rfl⟩
  · exact ⟨fun hc => hc.cost ▸ rfl, by rw [← bit_eq_decide]; rfl⟩

/-- Settles O30, by the three cases of `skip`. -/
theorem skipsOnRegisters : Obligations.SkipsOnRegisters := by
  intro s d r b i cond c hi
  obtain ⟨hcost, hexec⟩ := exec_skipOnRegisters hi
  have hs := KeepsCore.refl s
  refine ⟨hcost, ?_, ?_, ?_⟩
  · rintro rfl
    obtain ⟨hnext, hframe⟩ := advance_spec 1 c.noSkip s
    exact ⟨_, hexec, hnext, hframe⟩
  · rintro rfl hnext
    obtain ⟨hfollows, hframe⟩ := advance_spec (1 + skippedWords s) (skippedCost c s) s
    refine ⟨_, hexec.trans (hs.skip_true hnext), fun hone => ?_, fun htwo => ?_, hframe⟩
    · rw [skippedWords, skippedCost, hone] at hfollows ⊢
      exact hfollows
    · rw [skippedWords, skippedCost, htwo] at hfollows ⊢
      exact hfollows
  · rintro rfl hlast
    exact hexec.trans (hs.skip_true_fault hlast)

/-- SBIC and SBIS are a hooked read and then `skip` on one bit of its answer. -/
theorem exec_skipOnIoBit {a : Fin 32} {b : BitNo} {i : Instr} {want : Nat} {c : SkipCost}
    (hi : (i, want, c) ∈
      [(.sbic a b, 0, s.params.cost.sbic), (.sbis a b, 1, s.params.cost.sbis)]) :
    (ThisCore s → c = ⟨1, 2, 3⟩) ∧
      ∀ v u, memRead (a.val + 32) s = .next (v, u) →
        exec i s = skip c (decide (v.toNat / 2 ^ b.val % 2 = want)) u := by
  simp only [List.mem_cons, List.not_mem_nil, or_false, Prod.mk.injEq] at hi
  obtain ⟨rfl, rfl, rfl⟩ | ⟨rfl, rfl, rfl⟩ := hi
  · refine ⟨fun hc => hc.cost ▸ rfl, fun v u hread => ?_⟩
    rw [exec, execSbic, ioAddress, hread, ← not_bit_eq_decide]
    rfl
  · refine ⟨fun hc => hc.cost ▸ rfl, fun v u hread => ?_⟩
    rw [exec, execSbis, ioAddress, hread, ← bit_eq_decide]
    rfl

/-- Settles O31: whatever the environment does in the read, `pc` and `cycles` are still those of the
start when the skip moves them. -/
theorem skipsOnIoBits : Obligations.SkipsOnIoBits := by
  intro s a b i want c hi
  obtain ⟨hcost, hexec⟩ := exec_skipOnIoBit hi
  refine ⟨hcost, fun v u hread => ⟨fun hbit => ?_, fun hbit hnext => ?_, fun hbit hlast => ?_⟩,
    fun hplain hnext => ?_⟩
  · rw [hexec v u hread, decide_eq_false hbit, skip_false, (memRead_keeps hread).advance_eq]
  · rw [hexec v u hread, decide_eq_true hbit, (memRead_keeps hread).skip_true hnext,
      (memRead_keeps hread).advance_eq]
    rfl
  · rw [hexec v u hread, decide_eq_true hbit, (memRead_keeps hread).skip_true_fault hlast]
  · have hexec := hexec _ _ (memRead_plain hplain.inside hplain.readHookAt_eq)
    by_cases hbit : (s.peek (a.val + 32)).toNat / 2 ^ b.val % 2 = want
    · rw [decide_eq_true hbit, (KeepsCore.refl s).skip_true hnext] at hexec
      obtain ⟨hfollows, hframe⟩ := advance_spec (1 + skippedWords s) (skippedCost c s) s
      exact ⟨_, hexec, fun _ => hfollows, fun h => absurd hbit h, hframe⟩
    · rw [decide_eq_false hbit, skip_false] at hexec
      obtain ⟨hfollows, hframe⟩ := advance_spec 1 c.noSkip s
      exact ⟨_, hexec, fun h => absurd h hbit, fun _ => hfollows, hframe⟩

end Sys2Proof.Machine
end

section
/-!
PROOF. WDR and its watchdog (spec R49, R227), and the word that matches no row (spec R229).

An attached watchdog may act on its own clock event or return. Each act on the event replaces the
event list and lets the call go on, so that a run of them is followed by induction on the acts.
-/

namespace Sys2Proof.Machine

variable {s t : State} {h : Handle}

/-! ## What a watchdog may do (spec R227) -/

/-- An operation on the scheduler with the handle `h`. -/
def MovesEvent (h : Handle) (act : EnvAct) : Prop :=
  ∃ rel, act ∈ [.device (.addClockEvent h rel), .device (.clearClockEvent h),
    .device (.updateClockEvent h rel)]

theorem movesEvent_iff {act : EnvAct} :
    MovesEvent h act ↔ (∃ rel, act = .device (.addClockEvent h rel)) ∨
      act = .device (.clearClockEvent h) ∨ ∃ rel, act = .device (.updateClockEvent h rel) := by
  simp only [MovesEvent, List.mem_cons, List.not_mem_nil, or_false, exists_or, exists_const]

theorem permits_watchdog_iff {act : EnvAct} :
    (Contract.watchdog h).permits act = true ↔ (∃ v b, act = .ret v b) ∨ MovesEvent h act := by
  rw [movesEvent_iff]
  cases act with
  | device op => cases op <;> simp [Contract.permits]
  | _ => simp [Contract.permits]

/-! ## A run of the watchdog -/

theorem updateClockEvent_eq (h : Handle) (rel : Int) (s : State) :
    updateClockEvent h rel s = { s with events := (updateClockEvent h rel s).events } := by
  unfold updateClockEvent
  split <;> rfl

/-- The event list is updated the same whether or not a call was recorded before. -/
theorem updateClockEvent_logCall (rel : Int) (k : EnvCall) :
    updateClockEvent h rel (s.logCall k) =
      { s.logCall k with events := (updateClockEvent h rel s).events } := by
  unfold updateClockEvent
  rw [State.logCall_events]
  split <;> rfl

/-- After an act on its event the watchdog is still running, and only the event list differs. -/
theorem envRun_movesEvent {act : EnvAct} (hact : MovesEvent h act) (s : State) :
    ∃ es, ∀ rest fs, envRun (.watchdog h) (act :: rest) fs s =
      envRun (.watchdog h) rest fs { s with events := es } := by
  have hp := permits_watchdog_iff.2 (.inr hact)
  obtain ⟨rel, rfl⟩ | rfl | ⟨rel, rfl⟩ := movesEvent_iff.1 hact
  · exact ⟨_, fun _ _ => envRun_device hp⟩
  · exact ⟨_, fun _ _ => envRun_device hp⟩
  · exact ⟨_, fun rest fs => (envRun_device hp).trans
      (congrArg (envRun _ rest fs) (updateClockEvent_eq h rel s))⟩

/-- Acts on its event alone do not end the watchdog's call. -/
theorem envRun_movesEvent_goesOn {acts : List EnvAct} (hacts : ∀ x ∈ acts, MovesEvent h x)
    (s : State) :
    envRun (.watchdog h) acts [] s = .refused .environmentDidNotReturn := by
  induction acts generalizing s with
  | nil => rfl
  | cons act acts ih =>
    obtain ⟨hact, hacts⟩ := List.forall_mem_cons.1 hacts
    obtain ⟨es, hrun⟩ := envRun_movesEvent hact s
    rw [hrun, ih hacts]

/-- A watchdog that returns has changed the event list and consumed input. -/
theorem envRun_watchdog_eq_next {acts : List EnvAct} {r : Reply} {t : State}
    (hrun : envRun (.watchdog h) acts [] s = .next (r, t)) :
    ∃ es l, t = { s with events := es, envIn := l } := by
  induction acts generalizing s with
  | nil => cases hrun
  | cons act rest ih =>
    cases hp : (Contract.watchdog h).permits act with
    | false => rw [envRun_not_permitted hp] at hrun; cases hrun
    | true =>
      obtain ⟨v, b, rfl⟩ | hact := permits_watchdog_iff.1 hp
      · rw [envRun_ret_outer] at hrun
        cases hrun
        exact ⟨_, _, rfl⟩
      · obtain ⟨es, hes⟩ := envRun_movesEvent hact s
        obtain ⟨es', l, rfl⟩ := ih ((hes rest []).symm.trans hrun)
        exact ⟨es', l, rfl⟩

/-- A watchdog that reschedules its event once and returns. -/
theorem callEnv_updateClockEvent_ret {k : EnvCall} {rel : Int} {v : Nat} {b : Bool}
    {rest : List EnvAct}
    (hin : s.envIn = [.device (.updateClockEvent h rel), .ret v b] ++ rest) :
    callEnv (.watchdog h) k s =
      .next (⟨v, b⟩,
        { s.logCall k with events := (updateClockEvent h rel s).events, envIn := rest }) := by
  have hp : (Contract.watchdog h).permits (.device (.updateClockEvent h rel)) = true :=
    permits_watchdog_iff.2 (.inr (movesEvent_iff.2 (.inr (.inr ⟨rel, rfl⟩))))
  rw [callEnv, hin, List.cons_append, envRun_device hp, deviceOp, andThen_next,
    List.singleton_append, envRun_ret_outer, updateClockEvent_logCall]

/-! ## WDR (spec R227) -/

theorem exec_wdr_of_no_watchdog (hw : s.watchdog = none) :
    exec .wdr s = .next ((s.logCall (.watchdogReset s.cycles)).advance 1 (costOf s .wdr)) := by
  rw [exec, execWdr, notifyWatchdog, hw]
  rfl

theorem exec_wdr_of_watchdog (hw : s.watchdog = some h) :
    exec .wdr s = andThen (callEnv (.watchdog h) (.watchdogReset s.cycles) s) fun r =>
      .next (r.2.advance 1 (costOf s .wdr)) := by
  rw [exec, execWdr, notifyWatchdog, hw]
  exact andThen_assoc _ _ _

/-- Settles O33: the call of the watchdog changes the event list alone, or breaks the contract, and
then WDR ends like any instruction of one word. -/
theorem watchdogResetNotifies : Obligations.WatchdogResetNotifies := by
  intro s
  refine ⟨.of_table (f := (·.wdr)) rfl, fun hw => ?_, fun h rel v b rest hw hin => ?_,
    fun h t hw hexec => ?_, fun h acts act rest hw hin hacts hret hadd hclear hupdate => ?_⟩
  · rw [exec_wdr_of_no_watchdog hw, State.advance_eq]
    rfl
  · rw [exec_wdr_of_watchdog hw, callEnv_updateClockEvent_ret hin, andThen_next, State.advance_eq]
    rfl
  · rw [exec_wdr_of_watchdog hw] at hexec
    obtain ⟨⟨r, u⟩, hcall, hnext⟩ := andThen_eq_next.1 hexec
    obtain ⟨es, l, rfl⟩ := envRun_watchdog_eq_next hcall
    cases hnext
    rw [State.advance_eq]
    rfl
  · have hp : (Contract.watchdog h).permits act = false := by
      rw [← Bool.not_eq_true, permits_watchdog_iff, movesEvent_iff]
      rintro (⟨v, b, hact⟩ | ⟨rel, hact⟩ | hact | ⟨rel, hact⟩)
      · exact hret v b hact
      · exact hadd rel hact
      · exact hclear hact
      · exact hupdate rel hact
    rw [exec_wdr_of_watchdog hw, callEnv, hin,
      envRun_append_not_permitted hp (envRun_movesEvent_goesOn hacts _), andThen_refused]

/-! ## A word that matches no row (spec R229) -/

/-- No second word is fetched after a first word that no row selects (spec R80). -/
theorem isTwoWord_of_decode_error {w k : Word} {r : DecodeReject} (hd : decode w k = .error r) :
    isTwoWord w = false := by
  obtain ⟨hnone, -⟩ := decode_eq_error.1 hd
  rw [← Bool.not_eq_true, isTwoWord_iff_exists_row]
  rintro ⟨row, hmem, -, hsel⟩
  exact Bool.false_ne_true ((hnone row hmem).symm.trans hsel)

/-- The instruction half of a step at such a word. -/
theorem stepInstr_of_decode_error {r : DecodeReject} (hrun : s.status = .running)
    (hpc : s.pc < s.progWords) (hd : decode (Cells.read s.prog s.pc) 0 = .error r) :
    stepInstr s = execUnmatched (Cells.read s.prog s.pc) s := by
  have hfetch : fetch s = .next (.error r) := by
    rw [fetch, progWord_next hpc, andThen_next, isTwoWord_of_decode_error hd,
      if_neg Bool.false_ne_true, hd]
  obtain ⟨-, rfl⟩ := decode_eq_error.1 hd
  rw [stepInstr, whenRunning_running hrun, hfetch, andThen_next, execDecoded]

/-- Settles O34: the fetch reads no second word, and `execUnmatched` decides by STRICT_DECODE. -/
theorem unmatchedWordIsNoOperation : Obligations.UnmatchedWordIsNoOperation := by
  intro s r hrun hpc hd
  rw [stepInstr_of_decode_error hrun hpc hd, execUnmatched]
  refine ⟨fun hc => hc.cost ▸ rfl, fun hstrict => ?_, fun hstrict => ?_⟩
  · rw [hstrict, if_neg Bool.false_ne_true, State.advance_eq]
  · rw [hstrict, if_pos rfl]

end Sys2Proof.Machine
end

section
/-!
PROOF. The interrupt controller's operations on the pending table, its two cached values and the
flag registers (spec R310 to R314).

An operation that completes is given as the state it leads to. What `lowest_pending` is after
`clear_interrupt` follows from `CoreInv`, which the operation keeps.
-/

namespace Sys2Proof.Machine

variable {s t : State} {d : Descriptor}

/-! ## Tables and memories written or erased twice -/

theorem Table.erase_of_find_none {α : Type} {l : List (Nat × α)} {k : Nat}
    (h : Table.find l k = none) : Table.erase l k = l := by
  induction l with
  | nil => rfl
  | cons e l ih =>
    rw [Table.find] at h
    split at h
    · cases h
    · next hk => rw [Table.erase_cons, if_neg hk, ih h]

theorem Table.erase_erase {α : Type} (l : List (Nat × α)) (k : Nat) :
    Table.erase (Table.erase l k) k = Table.erase l k :=
  Table.erase_of_find_none (by rw [Table.find_erase, if_pos rfl])

theorem Table.put_put {α : Type} (l : List (Nat × α)) (k : Nat) (u v : α) :
    Table.put (Table.put l k u) k v = Table.put l k v := by
  induction l with
  | nil => simp [Table.put]
  | cons e l ih =>
    by_cases hlt : k < e.1
    · simp [Table.put, hlt]
    · by_cases heq : k = e.1
      · simp [Table.put, heq]
      · simp [Table.put, hlt, heq, ih]

/-- Sorted tables that hold the same at every key are equal. -/
theorem Table.ext {α : Type} {l m : List (Nat × α)} (hl : Table.Sorted l) (hm : Table.Sorted m)
    (h : ∀ k, Table.find l k = Table.find m k) : l = m := by
  have hirrefl : Std.Irrefl fun x y : Nat × α => x.1 < y.1 := ⟨fun x => Nat.lt_irrefl x.1⟩
  have hantisymm : Std.Antisymm fun x y : Nat × α => x.1 < y.1 :=
    ⟨fun _ _ hxy hyx => (Nat.lt_asymm hxy hyx).elim⟩
  refine hl.eq_of_mem_iff hm fun e => ?_
  rw [← Table.find_eq_some_iff hl, ← Table.find_eq_some_iff hm, h]

theorem Cells.write_write_self {w : Nat} (m : List (Nat × BitVec w)) (a : Nat) (v : BitVec w) :
    Cells.write (Cells.write m a v) a v = Cells.write m a v := by
  unfold Cells.write
  split
  · exact Table.erase_erase m a
  · exact Table.put_put m a v v

theorem State.poke_poke_self (s : State) (a : Nat) (v : Byte) :
    (s.poke a v).poke a v = s.poke a v :=
  congrArg (fun m => { s with data := m }) (Cells.write_write_self s.data a v)

/-! ## `queue_interrupt` (spec R312) -/

/-- The state after a descriptor was queued. -/
def queued (d : Descriptor) (s : State) : State :=
  { s with
    pending := Table.put s.pending d.vector d
    lowestPending := some (s.lowestPending.elim d.vector (min · d.vector))
    highestBound := max s.highestBound d.vector }

theorem queueInterrupt_next (h : d.vector < s.params.maxVectors) :
    queueInterrupt d s = .next (queued d s) := by
  rw [queueInterrupt, if_pos h, queued]
  congr 2
  · cases s.lowestPending with
    | none => rfl
    | some v =>
      dsimp only [Option.elim]
      split
      · rw [min_eq_right (by omega)]
      · rw [min_eq_left (by omega)]
  · split <;> omega

/-- Settles O49: `queued` has the two cached values as a minimum and a maximum. -/
theorem queueMakesVectorPending : Obligations.QueueMakesVectorPending := by
  intro s d
  refine ⟨fun hin => ?_, queueInterrupt_fault⟩
  refine ⟨queued d s, queueInterrupt_next hin, fun v => Table.find_put s.pending d.vector v d,
    fun hnone => ?_, fun v hsome => ?_, rfl, rfl⟩
  · rw [queued, hnone]; rfl
  · rw [queued, hsome]; rfl

/-! ## `lowest_pending` names the least vector pending (spec R24) -/

/-- The least key of a sorted table. -/
theorem Table.head_eq_some_iff {α : Type} {l : List (Nat × α)} (h : Table.Sorted l) {k : Nat} :
    (l.map (·.1)).head? = some k ↔
      (Table.find l k).isSome ∧ ∀ j, j < k → Table.find l j = none := by
  cases l with
  | nil => simp
  | cons e l =>
    have hrest : ∀ c ∈ l, e.1 < c.1 := (List.pairwise_cons.1 h).1
    have hbelow : ∀ j, j < e.1 → Table.find (e :: l) j = none := fun j hj =>
      Table.find_none_of_lt (List.forall_mem_cons.2 ⟨hj, fun c hc => hj.trans (hrest c hc)⟩)
    have hhead : (Table.find (e :: l) e.1).isSome := by simp [Table.find]
    rw [List.map_cons, List.head?_cons, Option.some.injEq]
    refine ⟨fun hk => hk ▸ ⟨hhead, hbelow⟩, fun ⟨hsome, hnone⟩ => ?_⟩
    obtain hlt | heq | hgt := Nat.lt_trichotomy e.1 k
    · rw [hnone e.1 hlt] at hhead; cases hhead
    · exact heq
    · rw [hbelow k hgt] at hsome; cases hsome

theorem PendingInv.lowest_eq_some_iff (h : PendingInv s) {v : Nat} :
    s.lowestPending = some v ↔
      (Table.find s.pending v).isSome ∧ ∀ w, w < v → Table.find s.pending w = none := by
  rw [h.lowest, Table.head_eq_some_iff h.sorted]

theorem PendingInv.lowest_eq_none_iff (h : PendingInv s) :
    s.lowestPending = none ↔ s.pending = [] := by
  rw [h.lowest, List.head?_eq_none_iff, List.map_eq_nil_iff]

theorem PendingInv.lowest_eq_some_iff_mem (h : PendingInv s) {v : Nat} :
    s.lowestPending = some v ↔ (∃ e, (v, e) ∈ s.pending) ∧ ∀ e ∈ s.pending, v ≤ e.1 := by
  rw [h.lowest_eq_some_iff, Option.isSome_iff_exists]
  refine and_congr (exists_congr fun e => Table.find_eq_some_iff h.sorted)
    ⟨fun hnone e he => ?_, fun hle w hw => ?_⟩
  · by_contra hlt
    have hsome : Table.find s.pending e.1 = some e.2 := Table.find_of_mem h.sorted he
    rw [hnone e.1 (by omega)] at hsome
    cases hsome
  · rw [Option.eq_none_iff_forall_ne_some]
    intro e he
    have := hle _ (Table.mem_of_find he)
    dsimp only at this
    omega

/-- Something pending, the cached vector names the entry that the dispatch takes. -/
theorem PendingInv.exists_lowest (h : PendingInv s) (hne : s.pending ≠ []) :
    ∃ d, s.lowestPending = some d.vector ∧ (d.vector, d) ∈ s.pending := by
  obtain ⟨v, hv⟩ := Option.ne_none_iff_exists'.1 (mt h.lowest_eq_none_iff.1 hne)
  obtain ⟨⟨d, hd⟩, -⟩ := h.lowest_eq_some_iff_mem.1 hv
  obtain rfl : d.vector = v := (h.entry _ hd).1
  exact ⟨d, hv, hd⟩

/-! ## `clear_interrupt` (spec R313) -/

theorem clearFlagBits_next (h : d.flagReg < s.dataSize) :
    clearFlagBits d s = .next (s.poke d.flagReg (s.peek d.flagReg &&& ~~~ d.flagMask)) := by
  rw [clearFlagBits, rawRead_next (by omega) (by omega), andThen_next,
    rawWrite_next (by omega) (by omega)]
  rfl

/-- Whether or not the vector was pending, afterwards the table is without it, and only the cached
`lowest_pending` can differ besides. -/
theorem removePending_eq (v : Nat) (s : State) :
    removePending v s =
      { s with
        pending := Table.erase s.pending v
        lowestPending := (removePending v s).lowestPending } := by
  cases hfind : Table.find s.pending v with
  | none => rw [removePending_absent hfind, Table.erase_of_find_none hfind]
  | some e =>
    rw [removePending, hfind]
    dsimp only
    split <;> rfl

theorem clearInterrupt_true_next (h : d.flagReg < s.dataSize) :
    clearInterrupt d true s =
      .next (removePending d.vector
        (s.poke d.flagReg (s.peek d.flagReg &&& ~~~ d.flagMask))) := by
  rw [clearInterrupt, if_pos rfl, clearFlagBits_next h, andThen_next]

/-- The flag bits are cleared in a data space `m`, and then the entry is removed. -/
theorem clearInterrupt_next {c : Bool} (h : c = true → d.flagReg < s.dataSize) :
    ∃ m : Memory, clearInterrupt d c s = .next (removePending d.vector { s with data := m }) ∧
      ∀ a, Cells.read m a =
        if c = true ∧ a = d.flagReg then s.peek a &&& ~~~ d.flagMask else s.peek a := by
  cases c with
  | false => exact ⟨s.data, rfl, fun a => (if_neg (by simp)).symm⟩
  | true =>
    refine ⟨_, clearInterrupt_true_next (h rfl), fun a => (State.peek_poke ..).trans ?_⟩
    by_cases ha : a = d.flagReg <;> simp [ha]

/-- Settles O50: the flag bits, then the entry; the invariant afterwards gives `lowest_pending`. -/
theorem clearRemovesEntryAndRescans : Obligations.ClearRemovesEntryAndRescans := by
  intro s d clearFlag hinv hflag
  obtain ⟨m, hclear, hbytes⟩ := clearInterrupt_next hflag
  have hpending := (hinv.clearInterrupt hclear).pending
  refine ⟨_, hclear, ?_⟩
  rw [removePending_eq] at hpending ⊢
  exact ⟨Table.find_erase s.pending d.vector, fun _ => hpending.lowest_eq_some_iff, rfl, hbytes,
    rfl, rfl, rfl, rfl, rfl⟩

/-! ## The flag and enable operations (spec R310, R311, R314) -/

/-- The flag register written by `set_interrupt_flag`: the bits are set, or cleared where the flag
is inverse. -/
def flagWritten (d : Descriptor) (s : State) : State :=
  s.poke d.flagReg
    (if d.inverseFlag then s.peek d.flagReg &&& ~~~ d.flagMask else s.peek d.flagReg ||| d.flagMask)

theorem setInterruptFlag_eq (hflag : d.flagReg < s.dataSize) (henable : d.enableReg < s.dataSize) :
    setInterruptFlag d s =
      if (flagWritten d s).peek d.enableReg &&& d.enableMask ≠ 0
      then queueInterrupt d (flagWritten d s) else .next (flagWritten d s) := by
  rw [setInterruptFlag, rawRead_next (by omega) (by omega), andThen_next,
    rawWrite_next (by omega) (by omega), andThen_next,
    rawRead_next (by omega) (by rw [State.poke_dataSize]; omega), andThen_next]
  simp only [bne_iff_ne, Int.toNat_natCast]
  rfl

theorem flagHolds_eq_true_iff {v : Byte} :
    flagHolds d v = true ↔ (v &&& d.flagMask ≠ 0 ↔ d.inverseFlag = false) := by
  rw [flagHolds, ← bne_iff_ne]
  cases v &&& d.flagMask != 0 <;> cases d.inverseFlag <;> decide

theorem flagHolds_eq_false_iff {v : Byte} :
    flagHolds d v = false ↔ (v &&& d.flagMask ≠ 0 ↔ d.inverseFlag = true) := by
  rw [flagHolds, ← bne_iff_ne]
  cases v &&& d.flagMask != 0 <;> cases d.inverseFlag <;> decide

theorem updateInterruptEnable_enabled {n : Byte} (hn : n &&& d.enableMask ≠ 0)
    (hflag : d.flagReg < s.dataSize) :
    updateInterruptEnable d n s =
      if flagHolds d (s.peek d.flagReg) then queueInterrupt d s else .next s := by
  rw [updateInterruptEnable, if_pos (bne_iff_ne.2 hn), rawRead_next (by omega) (by omega),
    andThen_next]
  rfl

theorem updateInterruptEnable_disabled {n : Byte} (hn : n &&& d.enableMask = 0) :
    updateInterruptEnable d n s = clearInterrupt d false s := by
  rw [updateInterruptEnable, hn]
  rfl

/-- The flag bits are cleared twice, which is as good as once. -/
theorem clearInterruptByFlag_written {n : Byte} (hn : n &&& d.flagMask ≠ 0)
    (hflag : d.flagReg < s.dataSize) :
    clearInterruptByFlag d n s = clearInterrupt d true s := by
  have htwice : (s.poke d.flagReg (s.peek d.flagReg &&& ~~~ d.flagMask)).peek d.flagReg &&&
      ~~~ d.flagMask = s.peek d.flagReg &&& ~~~ d.flagMask := by
    rw [State.peek_poke, if_pos rfl, BitVec.and_assoc, BitVec.and_self]
  rw [clearInterruptByFlag, if_pos (bne_iff_ne.2 hn), clearFlagBits_next hflag, andThen_next,
    clearInterrupt_true_next hflag, clearInterrupt_true_next (s := s.poke _ _) hflag, htwice,
    State.poke_poke_self]

theorem clearInterruptByFlag_not_written {n : Byte} (hn : n &&& d.flagMask = 0) :
    clearInterruptByFlag d n s = .next s := by
  rw [clearInterruptByFlag, hn]
  rfl

/-- Settles O51, from the equations of the three operations. -/
theorem flagAndEnableOperations : Obligations.FlagAndEnableOperations := by
  intro s d n hflag henable
  have hset := setInterruptFlag_eq hflag henable
  refine ⟨fun h => hset.trans (if_pos h), fun h => hset.trans (if_neg (not_not.2 h)),
    fun hn => ⟨fun h => ?_, fun h => ?_⟩, updateInterruptEnable_disabled,
    (clearInterruptByFlag_written · hflag), clearInterruptByFlag_not_written⟩
  · rw [updateInterruptEnable_enabled hn hflag, if_pos (flagHolds_eq_true_iff.2 h)]
  · rw [updateInterruptEnable_enabled hn hflag, flagHolds_eq_false_iff.2 h,
      if_neg Bool.false_ne_true]

end Sys2Proof.Machine
end

section
/-!
PROOF. The tick: which interrupt is taken and what its entry does (spec R315 to R318, R320, R364,
R365).

Taking an interrupt is the push of `pc`, then `vectorEntered`, which writes SREG, `cycles` and `pc`,
then `clear_interrupt` unless the descriptor is constant. Neither of the first two touches the
pending table.
-/

namespace Sys2Proof.Machine

variable {s t u : State} {v : Nat} {d : Descriptor}

/-! ## What the dispatch does (spec R317) -/

theorem dispatchInterrupt_disabled (hI : s.flag flagI = false) : dispatchInterrupt s = .next s := by
  rw [dispatchInterrupt, hI, if_neg Bool.false_ne_true]

theorem dispatchInterrupt_none (hlow : s.lowestPending = none) : dispatchInterrupt s = .next s := by
  rw [dispatchInterrupt, hlow, ite_self]

theorem dispatchInterrupt_pending (hI : s.flag flagI = true) (hlow : s.lowestPending = some v)
    (hfind : Table.find s.pending v = some d) : dispatchInterrupt s = takeInterrupt d s := by
  rw [dispatchInterrupt, hI, if_pos rfl, hlow]
  dsimp only
  rw [hfind]

/-- With no head of the event list due, no event is served. -/
theorem serviceEvent_idle (h : ∀ e, s.events.head? = some e → s.cycles < e.target) :
    serviceEvent s = .next s := by
  rw [serviceEvent]
  split
  · rfl
  · next e rest he => exact if_neg (Nat.not_le.2 (h e (by rw [he]; rfl)))

theorem tick_idle (hrun : s.status = .running)
    (h : ∀ e, s.events.head? = some e → s.cycles < e.target) : tick s = dispatchInterrupt s := by
  rw [tick, whenRunning_running hrun, serviceEvent_idle h, andThen_next]

/-- Settles O55: without a due event the tick is the dispatch. -/
theorem idleTickAndBadVector : Obligations.IdleTickAndBadVector := by
  intro s hrun hevents
  rw [tick_idle hrun hevents]
  refine ⟨fun h => h.elim dispatchInterrupt_disabled dispatchInterrupt_none,
    fun v d hI hlow hfind hout => ?_⟩
  rw [dispatchInterrupt_pending hI hlow hfind, takeInterrupt_fault hout]

theorem flag_setFlag_same (s : State) (i : Nat) (b : Bool) (hi : i < 8) :
    (s.setFlag i b).flag i = b :=
  (State.flag_setFlag s i i b hi).trans (if_pos rfl)

/-- RETI ends with I set and changes nothing of the interrupt controller. -/
theorem exec_reti_interrupts (h : exec .reti s = .next t) :
    t.flag flagI = true ∧ t.lowestPending = s.lowestPending ∧ t.pending = s.pending := by
  unfold exec at h
  obtain ⟨u, hu, h⟩ := andThen_eq_next.1 h
  obtain ⟨⟨n, w⟩, hpop, hu⟩ := andThen_eq_next.1 hu
  obtain rfl : w = s.setSp (s.sp + BitVec.ofNat 16 s.retBytes) := popRet_state hpop
  cases hu
  cases h
  exact ⟨flag_setFlag_same (State.setPc _ n) flagI true (by decide), rfl, rfl⟩

/-- Settles O54: SEI, RETI and CLI write the I that the dispatch reads, and leave the pending table
alone. -/
theorem interruptEnableActsAtOnce : Obligations.InterruptEnableActsAtOnce := by
  intro s t v d hlow hfind
  refine ⟨fun h => ?_, fun h => ?_⟩
  · obtain h | h := h
    · cases h
      exact dispatchInterrupt_pending (flag_setFlag_same s flagI true (by decide)) hlow hfind
    · obtain ⟨hI, hlow', hpending⟩ := exec_reti_interrupts h
      exact dispatchInterrupt_pending hI (hlow'.trans hlow) (hpending ▸ hfind)
  · cases h
    exact dispatchInterrupt_disabled (flag_setFlag_same s flagI false (by decide))

/-! ## The interrupt entry (spec R317, R318) -/

/-- The part of the entry after the push and before the interrupt is cleared. -/
def vectorEntered (d : Descriptor) (s : State) : State :=
  ((s.setFlag flagI false).addCycles s.params.cost.dispatch).setPc d.vector

theorem vectorEntered_pc (h : d.vector < s.progWords) : (vectorEntered d s).pc = d.vector := by
  show ((d.vector : Int) % (s.progWords : Int)).toNat = d.vector
  rw [← Int.natCast_emod, Int.toNat_natCast, Nat.mod_eq_of_lt h]

theorem vectorEntered_peek {a : Nat} (ha : a ≠ 95) : (vectorEntered d s).peek a = s.peek a :=
  (State.peek_setFlag ..).trans (if_neg ha)

theorem vectorEntered_flag (j : Nat) :
    (vectorEntered d s).flag j = if j = flagI then false else s.flag j :=
  State.flag_setFlag s flagI j false (by decide)

theorem takeInterrupt_eq (h : d.vector < s.progWords) (hpush : pushRet s.pc s = .next u) :
    takeInterrupt d s =
      if d.constant then .next (vectorEntered d u)
      else clearInterrupt d true (vectorEntered d u) := by
  rw [takeInterrupt, if_pos h, hpush, andThen_next, vectorEntered, (pushRet_keeps hpush).params]

theorem takeInterrupt_cases (h : takeInterrupt d s = .next t) :
    d.vector < s.progWords ∧ ∃ u, pushRet s.pc s = .next u := by
  have hin : d.vector < s.progWords := by
    by_contra hout
    rw [takeInterrupt_fault (by omega)] at h
    cases h
  rw [takeInterrupt, if_pos hin] at h
  obtain ⟨u, hpush, -⟩ := andThen_eq_next.1 h
  exact ⟨hin, u, hpush⟩

/-- A push that completes found room for its bytes. -/
theorem PushRoom.of_pushRet {ret : Nat} (h : pushRet ret s = .next u) : PushRoom s := by
  have htop : s.sp.toNat < s.dataSize := by
    by_contra hout
    rw [pushRet_fault_top ret (by omega)] at h
    cases h
  refine ⟨?_, htop⟩
  by_contra hlow
  rw [pushRet_fault_bottom ret htop (by omega)] at h
  cases h

theorem pushRet_sameBeyond {ret : Nat} (h : pushRet ret s = .next u) : SameBeyond s u := by
  obtain ⟨u', hu', -, -, hframe⟩ := pushRet_spec ret (.of_pushRet h)
  cases h.symm.trans hu'
  exact hframe.beyond

/-- Where the flag register lies in the data space, the entry is `vectorEntered` after the push,
with the flag bits and the table entry cleared unless the descriptor is constant. -/
theorem takeInterrupt_next (hin : d.vector < s.progWords) (hflag : d.flagReg < s.dataSize)
    (hpush : pushRet s.pc s = .next u) :
    ∃ (m : Memory) (p : List (Nat × Descriptor)) (l : Option Nat),
      takeInterrupt d s =
        .next { vectorEntered d u with data := m, pending := p, lowestPending := l } ∧
      (∀ a, Cells.read m a = if d.constant = false ∧ a = d.flagReg
        then (vectorEntered d u).peek a &&& ~~~ d.flagMask else (vectorEntered d u).peek a) ∧
      ∀ w, Table.find p w =
        if w = d.vector ∧ d.constant = false then none else Table.find s.pending w := by
  have hpending : (vectorEntered d u).pending = s.pending := (pushRet_sameBeyond hpush).pending
  rw [takeInterrupt_eq hin hpush, ← hpending]
  cases d.constant with
  | true => exact ⟨_, _, _, rfl, fun a => (if_neg (by simp)).symm, fun w => (if_neg (by simp)).symm⟩
  | false =>
    have hsize : (vectorEntered d u).dataSize = s.dataSize := (pushRet_keeps hpush).dataSize
    obtain ⟨m, hclear, hbytes⟩ :=
      clearInterrupt_next (s := vectorEntered d u) (c := true) fun _ => hsize ▸ hflag
    rw [removePending_eq] at hclear
    refine ⟨m, _, _, hclear, fun a => ?_, fun w => ?_⟩
    · simpa using hbytes a
    · simpa using Table.find_erase (vectorEntered d u).pending d.vector w

/-- Settles O52: the push writes the stack and SP, the rest of the entry SREG and the flag register;
by hypothesis these are different bytes. -/
theorem interruptEntry : Obligations.InterruptEntry := by
  intro s v d hinv hI hlow hfind hin hroom hflag hreg hstack
  obtain ⟨hvec, -⟩ := hinv.pending.entry _ (Table.mem_of_find hfind)
  obtain rfl : d.vector = v := hvec
  obtain ⟨u, hpush, hsp, hbytes, hframe⟩ := pushRet_spec s.pc hroom
  have hbeyond := hframe.beyond
  have hprog : u.progWords = s.progWords := congrArg Params.progWords hbeyond.params
  obtain ⟨m, p, l, htake, hmem, htable⟩ := takeInterrupt_next hin hflag hpush
  -- Bytes apart from SREG and the flag register are those of after the push.
  have hpushed a (h95 : a ≠ 95) (hne : a ≠ d.flagReg) : Cells.read m a = u.peek a := by
    rw [hmem, if_neg fun h => hne h.2, vectorEntered_peek h95]
  -- Bytes apart from the stack and SP are those of before the push.
  have hkept a (h93 : a ≠ 93) (h94 : a ≠ 94) (hs : ∀ n, n < s.retBytes → s.sp.toNat - n ≠ a) :
      u.peek a = s.peek a :=
    hframe.data a fun h => h.elim (fun h => hs (s.sp.toNat - a) (by omega) (by omega))
      fun h => h.elim h93 h94
  have hflags j : bit (Cells.read m 95) j = if j = flagI then false else s.flag j := by
    rw [hmem, if_neg (by omega), ← State.flag_eq, vectorEntered_flag, State.flag_eq,
      hkept 95 (by decide) (by decide) fun n hn => by have := (hstack n hn).2; omega]
    rfl
  refine ⟨_, (dispatchInterrupt_pending hI hlow hfind).trans htake, ?_, ?_, fun hc => ?_, ?_,
    fun n hn => ?_, hflags flagI, fun j hj => ?_, ?_, htable, fun a h93 h94 h95 hne hs => ?_,
    hbeyond.prog, hbeyond.params, hbeyond.events, hbeyond.readHooks, hbeyond.writeHooks⟩
  · exact vectorEntered_pc (hprog ▸ hin)
  · show u.cycles + u.params.cost.dispatch = s.cycles + s.params.cost.dispatch
    rw [(pushRet_keeps hpush).cycles, hbeyond.params]
  · rw [hc.cost]; rfl
  · rw [← hsp, State.sp_eq, State.sp_eq, ← hpushed 93 (by decide) (by omega),
      ← hpushed 94 (by decide) (by omega)]
    rfl
  · obtain ⟨hne, hoff⟩ := hstack n hn
    refine (congrArg BitVec.toNat ((hpushed _ (by omega) hne).trans
      (hbytes n hn (by omega) (by omega)))).trans ?_
    rw [byteOf_toNat, Nat.mod_eq_of_lt hinv.pc.pc_lt]
  · exact (hflags j).trans (if_neg (List.mem_singleton.not.1 hj))
  · have hbefore : (vectorEntered d u).peek d.flagReg = s.peek d.flagReg :=
      (vectorEntered_peek (by omega)).trans
        (hkept d.flagReg (by omega) (by omega) fun n hn => (hstack n hn).1)
    refine (hmem d.flagReg).trans ?_
    rw [hbefore]
    cases d.constant <;> simp
  · exact (hpushed a h95 hne).trans (hframe.data a (by omega))

/-! ## The order in which interrupts are taken (spec R315) -/

theorem clearInterrupt_pending {c : Bool} (h : clearInterrupt d c s = .next t) :
    t.pending = Table.erase s.pending d.vector := by
  obtain ⟨u, hu, h⟩ := andThen_eq_next.1 h
  cases h
  have hpending : u.pending = s.pending := by
    split at hu
    · obtain ⟨b, -, hu⟩ := andThen_eq_next.1 hu
      obtain ⟨-, rfl⟩ := rawWrite_eq_next.1 hu
      rfl
    · cases hu; rfl
  rw [removePending_eq, hpending]

theorem takeInterrupt_pending (h : takeInterrupt d s = .next t) :
    t.pc = d.vector ∧
      (d.constant = true → t.pending = s.pending ∧ t.lowestPending = s.lowestPending) ∧
      (d.constant = false → t.pending = Table.erase s.pending d.vector) := by
  obtain ⟨hin, u, hpush⟩ := takeInterrupt_cases h
  have hbeyond := pushRet_sameBeyond hpush
  have hprog : u.progWords = s.progWords := congrArg Params.progWords hbeyond.params
  have hpc : (vectorEntered d u).pc = d.vector := vectorEntered_pc (hprog ▸ hin)
  rw [takeInterrupt_eq hin hpush] at h
  split at h
  · next hc =>
    cases h
    exact ⟨hpc, fun _ => ⟨hbeyond.pending, hbeyond.lowestPending⟩, fun hf => by simp [hc] at hf⟩
  · next hc =>
    exact ⟨(clearInterrupt_keeps h).pc.trans hpc, fun ht => absurd ht hc, fun _ =>
      (clearInterrupt_pending h).trans (congrArg (Table.erase · d.vector) hbeyond.pending)⟩

theorem queued_comm {e : Descriptor} (h : PendingInv s) (hne : d.vector ≠ e.vector) :
    queued e (queued d s) = queued d (queued e s) := by
  have htable : Table.put (Table.put s.pending d.vector d) e.vector e =
      Table.put (Table.put s.pending e.vector e) d.vector d := by
    refine Table.ext (Table.put_sorted _ _ (Table.put_sorted _ _ h.sorted))
      (Table.put_sorted _ _ (Table.put_sorted _ _ h.sorted)) fun k => ?_
    simp only [Table.find_put]
    by_cases hd : k = d.vector
    · simp [hd, hne]
    · simp [hd]
  have hlowest : ∀ o : Option Nat,
      min (o.elim d.vector (min · d.vector)) e.vector =
        min (o.elim e.vector (min · e.vector)) d.vector
    | none => min_comm ..
    | some v => min_right_comm ..
  simp only [queued, htable, Option.elim_some, hlowest, max_right_comm]

theorem queueInterrupt_comm {e : Descriptor} (h : PendingInv s) (hne : d.vector ≠ e.vector) :
    andThen (queueInterrupt d s) (queueInterrupt e) =
      andThen (queueInterrupt e s) (queueInterrupt d) := by
  by_cases hd : d.vector < s.params.maxVectors <;> by_cases he : e.vector < s.params.maxVectors
  · rw [queueInterrupt_next hd, queueInterrupt_next he, andThen_next, andThen_next,
      queueInterrupt_next (s := queued d s) he, queueInterrupt_next (s := queued e s) hd,
      queued_comm h hne]
  · rw [queueInterrupt_next hd, queueInterrupt_fault (s := s) (Nat.not_lt.1 he), andThen_next,
      andThen_fault, queueInterrupt_fault (s := queued d s) (Nat.not_lt.1 he)]
  · rw [queueInterrupt_next he, queueInterrupt_fault (s := s) (Nat.not_lt.1 hd), andThen_next,
      andThen_fault, queueInterrupt_fault (s := queued e s) (Nat.not_lt.1 hd)]
  · rw [queueInterrupt_fault (Nat.not_lt.1 hd), queueInterrupt_fault (Nat.not_lt.1 he),
      andThen_fault, andThen_fault]

/-- Settles O53: the cached vector is the least one, before the dispatch and after it. -/
theorem lowestVectorTakenFirst : Obligations.LowestVectorTakenFirst := by
  refine ⟨fun s t hinv hI hne hdisp => ?_,
    fun s d e hinv hne => queueInterrupt_comm hinv.pending hne⟩
  obtain ⟨d, hlow, hmem⟩ := hinv.pending.exists_lowest hne
  have htake := dispatchInterrupt_pending hI hlow (Table.find_of_mem hinv.pending.sorted hmem)
  obtain ⟨hpc, hconstant, hcleared⟩ := takeInterrupt_pending (htake.symm.trans hdisp)
  have hafter := (hinv.dispatchInterrupt hdisp).pending
  rw [hpc]
  refine ⟨d, hmem, (hinv.pending.lowest_eq_some_iff_mem.1 hlow).2, hconstant, fun hc => ?_⟩
  have hpending := hcleared hc
  refine ⟨fun w => hpending ▸ Table.find_erase s.pending d.vector w, fun v => ?_, ?_⟩
  · rw [hafter.lowest_eq_some_iff_mem, hpending]
    simp only [Table.mem_erase, and_imp, exists_and_right]
    tauto
  · rw [hafter.lowest_eq_none_iff, hpending, List.eq_nil_iff_forall_not_mem]
    simp only [Table.mem_erase, not_and, not_not]

end Sys2Proof.Machine
end

section
/-!
PROOF. The event scheduler: its list operations, and the event that a tick serves (spec R331 to
R336).
-/

namespace Sys2Proof.Machine

variable {s t : State} {h : Handle} {rel : Int}

/-! ## The list operations (spec R331 to R333) -/

/-- A new entry goes behind the entries of lesser target that lead the list. -/
theorem insertEvent_eq_append (e : Event) (l : List Event) :
    ∃ front back, l = front ++ back ∧ (∀ x ∈ front, x.target < e.target) ∧
      (∀ x, back.head? = some x → e.target ≤ x.target) ∧
      insertEvent e l = front ++ e :: back := by
  induction l with
  | nil => exact ⟨[], [], rfl, by simp, by simp, rfl⟩
  | cons x l ih =>
    by_cases hlt : x.target < e.target
    · obtain ⟨front, back, rfl, hfront, hback, hinsert⟩ := ih
      refine ⟨x :: front, back, rfl, List.forall_mem_cons.2 ⟨hlt, hfront⟩, hback, ?_⟩
      rw [insertEvent, if_pos hlt, hinsert, List.cons_append]
    · exact ⟨[], x :: l, rfl, by simp, by simpa using hlt, if_neg hlt⟩

theorem removeEvent_of_absent {l : List Event} (hl : ∀ x ∈ l, x.handle ≠ h) :
    removeEvent h l = l := by
  induction l with
  | nil => rfl
  | cons x l ih =>
    obtain ⟨hx, hl⟩ := List.forall_mem_cons.1 hl
    rw [removeEvent, if_neg hx, ih hl]

theorem removeEvent_append {front back : List Event} {e : Event} (he : e.handle = h)
    (hfront : ∀ x ∈ front, x.handle ≠ h) :
    removeEvent h (front ++ e :: back) = front ++ back := by
  induction front with
  | nil => exact if_pos he
  | cons x front ih =>
    obtain ⟨hx, hfront⟩ := List.forall_mem_cons.1 hfront
    rw [List.cons_append, removeEvent, if_neg hx, ih hfront, List.cons_append]

theorem hasEvent_eq_false_iff {l : List Event} :
    hasEvent h l = false ↔ ∀ x ∈ l, x.handle ≠ h := by
  simp [hasEvent]

theorem hasEvent_append {front back : List Event} {e : Event} (he : e.handle = h) :
    hasEvent h (front ++ e :: back) = true := by
  simp [hasEvent, he]

/-- Settles O56, from what insertion, removal and search make of the list. -/
theorem schedulerListOperations : Obligations.SchedulerListOperations := by
  intro s h rel
  refine ⟨?_, fun habsent => ?_, fun front e back hlist he hfront => ?_⟩
  · obtain ⟨front, back, hlist, hfront, hback, hinsert⟩ :=
      insertEvent_eq_append ⟨s.cycles + (max 1 rel).toNat, h⟩ s.events
    refine ⟨_, front, back, rfl, ?_, hlist, hfront, hback, ?_⟩
    · show ((s.cycles + (max 1 rel).toNat : Nat) : Int) = s.cycles + max 1 rel
      omega
    · rw [addClockEvent, hinsert]
  · have hfalse := hasEvent_eq_false_iff.2 habsent
    refine ⟨hfalse, ?_, ?_⟩
    · rw [clearClockEvent, removeEvent_of_absent habsent]
    · rw [updateClockEvent, hfalse, if_neg Bool.false_ne_true]
  · have htrue : hasEvent h s.events = true := hlist ▸ hasEvent_append he
    have hclear : clearClockEvent h s = { s with events := front ++ back } := by
      rw [clearClockEvent, hlist, removeEvent_append he hfront]
    refine ⟨htrue, hclear, ?_⟩
    rw [updateClockEvent, htrue, if_pos rfl, hclear]

/-! ## Which operations touch the event list -/

theorem rawWrite_events {a : Int} {v : Byte} (h : rawWrite a v s = .next t) :
    t.events = s.events := by
  obtain ⟨-, rfl⟩ := rawWrite_eq_next.1 h
  rfl

theorem queueInterrupt_events {d : Descriptor} (h : queueInterrupt d s = .next t) :
    t.events = s.events := by
  unfold queueInterrupt at h
  split at h <;> cases h
  rfl

theorem clearFlagBits_events {d : Descriptor} (h : clearFlagBits d s = .next t) :
    t.events = s.events := by
  obtain ⟨v, -, h⟩ := andThen_eq_next.1 h
  exact rawWrite_events h

theorem clearInterrupt_events {d : Descriptor} {c : Bool} (h : clearInterrupt d c s = .next t) :
    t.events = s.events := by
  obtain ⟨u, hu, h⟩ := andThen_eq_next.1 h
  cases h
  have hevents : u.events = s.events := by
    split at hu
    · exact clearFlagBits_events hu
    · cases hu; rfl
  rw [removePending_eq, hevents]

theorem setInterruptFlag_events {d : Descriptor} (h : setInterruptFlag d s = .next t) :
    t.events = s.events := by
  obtain ⟨v, -, h⟩ := andThen_eq_next.1 h
  obtain ⟨u, hu, h⟩ := andThen_eq_next.1 h
  obtain ⟨e, -, h⟩ := andThen_eq_next.1 h
  split at h
  · exact (queueInterrupt_events h).trans (rawWrite_events hu)
  · cases h; exact rawWrite_events hu

theorem updateInterruptEnable_events {d : Descriptor} {n : Byte}
    (h : updateInterruptEnable d n s = .next t) : t.events = s.events := by
  unfold updateInterruptEnable at h
  split at h
  · obtain ⟨v, -, h⟩ := andThen_eq_next.1 h
    split at h
    · exact queueInterrupt_events h
    · cases h; rfl
  · exact clearInterrupt_events h

theorem clearInterruptByFlag_events {d : Descriptor} {n : Byte}
    (h : clearInterruptByFlag d n s = .next t) : t.events = s.events := by
  unfold clearInterruptByFlag at h
  split at h
  · obtain ⟨u, hu, h⟩ := andThen_eq_next.1 h
    exact (clearInterrupt_events h).trans (clearFlagBits_events hu)
  · cases h; rfl

theorem writeWord_events {o : ByteOrder} {a : Nat} {v : Word} (h : writeWord o a v s = .next t) :
    t.events = s.events := by
  obtain ⟨u, hu, h⟩ := andThen_eq_next.1 h
  exact (rawWrite_events h).trans (rawWrite_events hu)

/-! ## What is added lies in the future (spec R331, R335) -/

/-- Every event of `t` is one of `s`, or its target lies beyond the `cycles` of `s`. -/
def AddsOnlyFuture (s t : State) : Prop :=
  ∀ e ∈ t.events, e ∈ s.events ∨ s.cycles < e.target

theorem AddsOnlyFuture.of_events (h : t.events = s.events) : AddsOnlyFuture s t :=
  fun _ he => .inl (h ▸ he)

theorem AddsOnlyFuture.trans {u : State} (h : AddsOnlyFuture s t) (k : AddsOnlyFuture t u)
    (hcycles : t.cycles = s.cycles) : AddsOnlyFuture s u :=
  fun e he => (k e he).elim (h e) fun hlt => .inr (hcycles ▸ hlt)

theorem addClockEvent_addsOnlyFuture : AddsOnlyFuture s (addClockEvent h rel s) := by
  intro e he
  obtain rfl | he := mem_insertEvent he
  · right
    show s.cycles < s.cycles + (max 1 rel).toNat
    omega
  · exact .inl he

theorem clearClockEvent_addsOnlyFuture : AddsOnlyFuture s (clearClockEvent h s) :=
  fun _ he => .inl ((removeEvent_sublist h s.events).mem he)

theorem updateClockEvent_addsOnlyFuture : AddsOnlyFuture s (updateClockEvent h rel s) := by
  unfold updateClockEvent
  split
  · exact clearClockEvent_addsOnlyFuture.trans addClockEvent_addsOnlyFuture rfl
  · exact .of_events rfl

theorem deviceOp_addsOnlyFuture {op : DeviceOp} (ho : deviceOp op s = .next t) :
    AddsOnlyFuture s t := by
  cases op with
  | setReadHook | clearReadHook | setWriteHook | clearWriteHook => cases ho; exact .of_events rfl
  | setInterruptFlag => exact .of_events (setInterruptFlag_events ho)
  | updateInterruptEnable => exact .of_events (updateInterruptEnable_events ho)
  | queueInterrupt => exact .of_events (queueInterrupt_events ho)
  | clearInterrupt => exact .of_events (clearInterrupt_events ho)
  | clearInterruptByFlag => exact .of_events (clearInterruptByFlag_events ho)
  | addClockEvent => cases ho; exact addClockEvent_addsOnlyFuture
  | clearClockEvent => cases ho; exact clearClockEvent_addsOnlyFuture
  | updateClockEvent => cases ho; exact updateClockEvent_addsOnlyFuture
  | readWord =>
    rw [deviceOp] at ho
    obtain ⟨v, -, ho⟩ := andThen_eq_next.1 ho
    cases ho; exact .of_events rfl
  | writeWord => exact .of_events (writeWord_events ho)

theorem callEnv_addsOnlyFuture {c : Contract} {k : EnvCall} {r : Reply × State}
    (hc : callEnv c k s = .next r) : AddsOnlyFuture s r.2 :=
  have hrun : r.2.cycles = s.cycles ∧ AddsOnlyFuture s r.2 :=
    envRun_induction (P := fun u => u.cycles = s.cycles ∧ AddsOnlyFuture s u)
      (fun _ _ hu => hu) (fun _ _ hu => hu) (fun _ _ _ _ hu => hu)
      (fun _ _ _ ho hu => ⟨(deviceOp_keeps ho).cycles.trans hu.1,
        hu.2.trans (deviceOp_addsOnlyFuture ho) hu.1⟩)
      s.envIn [] (s.logCall k) _ r rfl (by simp) ⟨rfl, .of_events rfl⟩ hc
  hrun.2

theorem serviceEvent_addsOnlyFuture (hs : serviceEvent s = .next t) : AddsOnlyFuture s t := by
  obtain rfl | ⟨e, rest, r, hev, hc⟩ := serviceEvent_cases hs
  · exact .of_events rfl
  · intro x hx
    refine (callEnv_addsOnlyFuture hc x hx).imp_left fun hmem => ?_
    exact hev ▸ List.mem_cons_of_mem e hmem

/-! ## The event that is served (spec R334) -/

theorem serviceEvent_due {e : Event} {rest : List Event} (hev : s.events = e :: rest)
    (hdue : e.target ≤ s.cycles) :
    serviceEvent s =
      andThen (callEnv (.callback e.handle) (.callback e.handle s.cycles) { s with events := rest })
        fun r => .next r.2 := by
  rw [serviceEvent, hev]
  exact if_pos hdue

/-- Settles O57: a due head is one call of its callback, which adds only events of the future. -/
theorem oneDueEventPerTick : Obligations.OneDueEventPerTick := by
  intro s
  refine ⟨fun hev => serviceEvent_idle (by simp [hev]),
    fun e rest hev hlt => serviceEvent_idle (by simpa [hev] using hlt),
    fun e rest hev hdue => ?_, fun e rest v b more hev hdue hin => ?_,
    fun t hs => ⟨(serviceEvent_keeps hs).cycles, serviceEvent_addsOnlyFuture hs⟩⟩
  · dsimp only
    rw [serviceEvent_due hev hdue]
    refine ⟨fun r t hc => ?_, fun x hc => ?_, fun x hc => ?_⟩
    · rw [hc, andThen_next]
    · rw [hc, andThen_fault]
    · rw [hc, andThen_refused]
  · rw [serviceEvent_due hev hdue, callEnv_ret (s := { s with events := rest }) hin, andThen_next]
    rfl

end Sys2Proof.Machine
end

section
/-!
PROOF. The cycles that a hook sees (spec R373).

Every form is one hooked access, or a hooked read and then a hooked write, at its address. It is
made from a state that differs from the start in bytes alone: a form with pre-decrement has written
its pointer. After the last access no call is recorded any more.
-/

namespace Sys2Proof.Machine

variable {s t u : State} {a : Nat}

/-! ## Accesses whose hook only returns (spec R47, R48) -/

theorem memRead_ret {h : Handle} {v : Nat} {b : Bool} {rest : List EnvAct} (ha : a < s.dataSize)
    (h31 : 31 < a) (hk : Table.find s.readHooks a = some h) (hin : s.envIn = .ret v b :: rest) :
    memRead a s =
      .next (BitVec.ofNat 8 v, { s.logCall (.readHook h a s.cycles) with envIn := rest }) := by
  rw [memRead_hook ha (readHookAt_eq_some h31 hk), callEnv_ret hin, andThen_next]
  rfl

theorem memWrite_ret_envOut {h : Handle} {v m : Byte} {x : Nat} {b : Bool} {rest : List EnvAct}
    (hw : memWrite a v m s = .next t) (ha : a < s.dataSize)
    (hk : Table.find s.writeHooks a = some h) (hin : s.envIn = .ret x b :: rest) :
    t.envOut = .writeHook h v (s.peek a) a m s.cycles :: s.envOut := by
  rw [memWrite_hook ha hk, callEnv_ret hin, andThen_next] at hw
  cases hw
  cases b <;> rfl

/-! ## Which access an instruction makes, and with which cycles (spec R373) -/

/-- Only bytes differ, so that hooks, input, record and `cycles` are as before. -/
structure SameButBytes (s t : State) : Prop where
  beyond : SameBeyond s t
  cycles : t.cycles = s.cycles

theorem SameButBytes.refl (s : State) : SameButBytes s s := ⟨.refl s, rfl⟩

theorem SameButBytes.setPair (s : State) (a : Nat) (v : Word) : SameButBytes s (s.setPair a v) :=
  ⟨.setPair s a v, rfl⟩

/-- A read of `a` with `n` cycles more than at the start of `s`, after which no call is recorded. -/
def OneRead (s t : State) (a n : Nat) : Prop :=
  ∃ s0 v u, SameButBytes s s0 ∧ memRead a (s0.addCycles n) = .next (v, u) ∧ t.envOut = u.envOut

/-- A write of a whole byte to `a` with `n` cycles more than at the start of `s`, after which no
call is recorded. -/
def OneWrite (s t : State) (a n : Nat) : Prop :=
  ∃ s0 v u, SameButBytes s s0 ∧ memWrite a v fullMask (s0.addCycles n) = .next u ∧
    t.envOut = u.envOut

/-- A read of `a` with `m` cycles more than at the start of `s` and then a write to it with `k` more
than that, after which no call is recorded. -/
def ReadThenWrite (s t : State) (a m k : Nat) : Prop :=
  ∃ old u v mask w, memRead a (s.addCycles m) = .next (old, u) ∧
    memWrite a v mask (u.addCycles k) = .next w ∧ t.envOut = w.envOut

theorem OneRead.of_load {s0 : State} {p : Phase} {n w : Nat} {d : Reg} {f : State → State}
    (hs : SameButBytes s s0) (h : load p n w d a f s0 = .next t)
    (hf : ∀ u, (f u).envOut = u.envOut) : OneRead s t a (early p n) := by
  obtain ⟨⟨v, u⟩, hu, h⟩ := andThen_eq_next.1 h
  cases h
  exact ⟨s0, v, u, hs, hu, hf _⟩

theorem OneWrite.of_store {s0 : State} {p : Phase} {n w : Nat} {v : Byte} {f : State → State}
    (hs : SameButBytes s s0) (h : store p n w a v f s0 = .next t)
    (hf : ∀ u, (f u).envOut = u.envOut) : OneWrite s t a (early p n) := by
  obtain ⟨u, hu, h⟩ := andThen_eq_next.1 h
  cases h
  exact ⟨s0, v, u, hs, hu, hf u⟩

/-- SBIC and SBIS: no cycles are added before the read. -/
theorem OneRead.of_skip {c : SkipCost} {g : Byte × State → Res State}
    (h : andThen (memRead a s) g = .next t) (hg : ∀ r, ∃ b, g r = skip c b r.2) :
    OneRead s t a 0 := by
  obtain ⟨⟨v, u⟩, hu, h⟩ := andThen_eq_next.1 h
  obtain ⟨b, hb⟩ := hg (v, u)
  obtain ⟨w, n, -, rfl⟩ := skip_eq_next (hb.symm.trans h)
  exact ⟨s, v, u, .refl s, hu, rfl⟩

theorem ReadThenWrite.of_readWrite {p : ReadWritePhase} {n : Nat} {f : Byte → State → Byte}
    {m : Byte} {r : Byte × State} (h : readWrite p n a f m s = .next r)
    (ht : t.envOut = r.2.envOut) :
    ReadThenWrite s t a (earlyRead p n) (earlyWrite p n) := by
  obtain ⟨⟨old, u⟩, hu, h⟩ := andThen_eq_next.1 h
  obtain ⟨w, hw, h⟩ := andThen_eq_next.1 h
  cases h
  exact ⟨old, u, _, m, w, hu, hw, ht⟩

theorem ReadThenWrite.of_modifyIo {p : ReadWritePhase} {n : Nat} {a : Fin 32} {b : BitNo}
    {f : Byte → Byte} (h : modifyIo p n a b f s = .next t) :
    ReadThenWrite s t (ioAddress a.val) (earlyRead p n) (earlyWrite p n) := by
  obtain ⟨r, hr, h⟩ := andThen_eq_next.1 h
  cases h
  exact .of_readWrite hr rfl

theorem ReadThenWrite.of_exchangeZ {p : ReadWritePhase} {n : Nat} {d : Reg} {f : Byte → Byte → Byte}
    (h : exchangeZ p n d f s = .next t) :
    ReadThenWrite s t s.z.toNat (earlyRead p n) (earlyWrite p n) := by
  obtain ⟨r, hr, h⟩ := andThen_eq_next.1 h
  cases h
  exact .of_readWrite hr rfl

/-- An instruction that reads by `MemRead` and does not write there reads once. -/
theorem exec_oneRead {i : Instr} (ha : readAddress s i = some a) (hi : ¬ ReadsAndWrites i)
    (h : exec i s = .next t) : OneRead s t a (cyclesAtRead s i) := by
  cases i with
  | inp | lds | ldX | lddZ => cases ha; exact .of_load (.refl s) h fun _ => rfl
  | lddY => cases ha; exact .of_load (.refl s) (atDisplaced_eq_next.1 h).2 fun _ => rfl
  | ldXInc => cases ha; exact .of_load (f := (·.setX _)) (.refl s) h fun _ => rfl
  | ldYInc => cases ha; exact .of_load (f := (·.setY _)) (.refl s) h fun _ => rfl
  | ldZInc => cases ha; exact .of_load (f := (·.setZ _)) (.refl s) h fun _ => rfl
  | ldXDec | ldYDec | ldZDec => cases ha; exact .of_load (.setPair s _ _) h fun _ => rfl
  | sbic | sbis => cases ha; exact .of_skip h fun _ => ⟨_, rfl⟩
  | sbi | cbi | xch | las | lac | lat => exact (hi trivial).elim
  | _ => cases ha

/-- A store writes once. -/
theorem exec_oneWrite {i : Instr} (ha : storeAddress s i = some a) (h : exec i s = .next t) :
    OneWrite s t a (cyclesAtWrite s i) := by
  cases i with
  | out | sts | stX | stdZ => cases ha; exact .of_store (.refl s) h fun _ => rfl
  | stdY => cases ha; exact .of_store (.refl s) (atDisplaced_eq_next.1 h).2 fun _ => rfl
  | stXInc => cases ha; exact .of_store (f := (·.setX _)) (.refl s) h fun _ => rfl
  | stYInc => cases ha; exact .of_store (f := (·.setY _)) (.refl s) h fun _ => rfl
  | stZInc => cases ha; exact .of_store (f := (·.setZ _)) (.refl s) h fun _ => rfl
  | stXDec | stYDec | stZDec => cases ha; exact .of_store (.setPair s _ _) h fun _ => rfl
  | _ => cases ha

theorem exec_readThenWrite {i : Instr} (ha : readAddress s i = some a) (hi : ReadsAndWrites i)
    (h : exec i s = .next t) :
    ∃ k, cyclesAtWrite s i = cyclesAtRead s i + k ∧ ReadThenWrite s t a (cyclesAtRead s i) k := by
  cases i with
  | sbi | cbi => cases ha; exact ⟨_, rfl, .of_modifyIo h⟩
  | xch | las | lac | lat => cases ha; unfold exec at h; exact ⟨_, rfl, .of_exchangeZ h⟩
  | _ => exact hi.elim

/-! ## What the hooks record -/

theorem OneRead.envOut {n v : Nat} {b : Bool} {h : Handle} {rest : List EnvAct}
    (hacc : OneRead s t a n) (ha : a < s.dataSize) (h31 : 31 < a)
    (hk : Table.find s.readHooks a = some h) (hin : s.envIn = .ret v b :: rest) :
    t.envOut = .readHook h a (s.cycles + n) :: s.envOut := by
  obtain ⟨s0, x, u, ⟨hs, hcycles⟩, hread, ht⟩ := hacc
  have hsize : s0.dataSize = s.dataSize := congrArg Params.dataSize hs.params
  rw [memRead_ret (s := s0.addCycles n) (hsize.symm ▸ ha) h31 (hs.readHooks.symm ▸ hk)
    (hs.envIn.trans hin)] at hread
  cases hread
  rw [ht, ← hcycles, ← hs.envOut]
  rfl

theorem OneWrite.envOut {n v : Nat} {b : Bool} {h : Handle} {rest : List EnvAct}
    (hacc : OneWrite s t a n) (ha : a < s.dataSize)
    (hk : Table.find s.writeHooks a = some h) (hin : s.envIn = .ret v b :: rest) :
    ∃ x old, t.envOut = .writeHook h x old a fullMask (s.cycles + n) :: s.envOut := by
  obtain ⟨s0, x, u, ⟨hs, hcycles⟩, hwrite, ht⟩ := hacc
  have hsize : s0.dataSize = s.dataSize := congrArg Params.dataSize hs.params
  have hrec := memWrite_ret_envOut hwrite (hsize.symm ▸ ha) (hs.writeHooks.symm ▸ hk)
    (hs.envIn.trans hin)
  refine ⟨x, s0.peek a, ?_⟩
  rw [ht, hrec, ← hcycles, ← hs.envOut]
  rfl

variable {m k : Nat}

theorem ReadThenWrite.envOut_of_read {v : Nat} {b : Bool} {h : Handle} {rest : List EnvAct}
    (hacc : ReadThenWrite s t a m k) (ha : a < s.dataSize) (h31 : 31 < a)
    (hr : Table.find s.readHooks a = some h) (hw : Table.find s.writeHooks a = none)
    (hin : s.envIn = .ret v b :: rest) :
    t.envOut = .readHook h a (s.cycles + m) :: s.envOut := by
  obtain ⟨old, u, x, mask, w, hread, hwrite, ht⟩ := hacc
  rw [memRead_ret (s := s.addCycles m) ha h31 hr hin] at hread
  cases hread
  cases hwrite.symm.trans (memWrite_plain ha hw)
  exact ht

theorem ReadThenWrite.envOut_of_write {v : Nat} {b : Bool} {h : Handle} {rest : List EnvAct}
    (hacc : ReadThenWrite s t a m k) (ha : a < s.dataSize)
    (hr : a ≤ 31 ∨ Table.find s.readHooks a = none)
    (hw : Table.find s.writeHooks a = some h) (hin : s.envIn = .ret v b :: rest) :
    ∃ x old mask, t.envOut = .writeHook h x old a mask (s.cycles + m + k) :: s.envOut := by
  obtain ⟨old, u, x, mask, w, hread, hwrite, ht⟩ := hacc
  rw [memRead_plain (s := s.addCycles m) ha (readHookAt_eq_none hr)] at hread
  cases hread
  have hrec := memWrite_ret_envOut hwrite ha hw hin
  exact ⟨x, _, mask, ht.trans hrec⟩

theorem ReadThenWrite.envOut_of_both {v w : Nat} {b c : Bool} {g h : Handle} {rest : List EnvAct}
    (hacc : ReadThenWrite s t a m k) (ha : a < s.dataSize) (h31 : 31 < a)
    (hr : Table.find s.readHooks a = some g) (hw : Table.find s.writeHooks a = some h)
    (hin : s.envIn = .ret v b :: .ret w c :: rest) :
    ∃ x old mask, t.envOut = .writeHook h x old a mask (s.cycles + m + k) ::
      .readHook g a (s.cycles + m) :: s.envOut := by
  obtain ⟨old, u, x, mask, w, hread, hwrite, ht⟩ := hacc
  rw [memRead_ret (s := s.addCycles m) ha h31 hr hin] at hread
  cases hread
  have hrec := memWrite_ret_envOut hwrite ha hw rfl
  exact ⟨x, _, mask, ht.trans hrec⟩

/-! ## The numbers of this core (spec R373) -/

theorem ThisCore.cyclesAtWrite_eq_zero (hc : ThisCore s) (i : Instr) : cyclesAtWrite s i = 0 := by
  rw [cyclesAtWrite.eq_def, hc.cost, hc.phase]
  cases i <;> rfl

/-- Settles O47: the record after the accesses that an instruction makes. -/
theorem hookSeesCyclesOfItsPhase : Obligations.HookSeesCyclesOfItsPhase := by
  intro s i a ha
  refine ⟨fun t h v b rest hread h31 hr hw hin hexec => ?_,
    fun t h v b rest hstore hw hin hexec => (exec_oneWrite hstore hexec).envOut ha hw hin,
    fun t h v b rest hread hi hr hw hin hexec => ?_,
    fun t g h v b w c rest hread hi h31 hr hw hin hexec => ?_,
    fun hc => ⟨hc.cyclesAtWrite_eq_zero i, fun hread => ?_⟩⟩
  · by_cases hi : ReadsAndWrites i
    · obtain ⟨k, -, hacc⟩ := exec_readThenWrite hread hi hexec
      exact hacc.envOut_of_read ha h31 hr hw hin
    · exact (exec_oneRead hread hi hexec).envOut ha h31 hr hin
  · obtain ⟨k, hk, hacc⟩ := exec_readThenWrite hread hi hexec
    rw [hk, ← Nat.add_assoc]
    exact hacc.envOut_of_write ha hr hw hin
  · obtain ⟨k, hk, hacc⟩ := exec_readThenWrite hread hi hexec
    rw [hk, ← Nat.add_assoc]
    exact hacc.envOut_of_both ha h31 hr hw hin
  · rw [cyclesAtRead.eq_def, hc.cost, hc.phase]
    cases i with
    | inp | sbi | cbi | sbic | sbis | xch | las | lac | lat | lds | ldX | ldXInc | ldXDec | ldYInc
    | ldYDec | lddY | ldZInc | ldZDec | lddZ => rfl
    | _ => cases hread

end Sys2Proof.Machine
end

section
/-!
PROOF. `reset()` (spec R352).
-/

namespace Sys2Proof.Machine

/-- Settles O58: `resetOp` replaces five fields and keeps the others. -/
theorem resetKeepsMemoryAndCycles : Obligations.ResetKeepsMemoryAndCycles := by
  intro s bound hrun
  exact ⟨resetOp bound s, whenRunning_running hrun, rfl, rfl, rfl, rfl, rfl, rfl, rfl, rfl, rfl,
    rfl, hrun⟩

end Sys2Proof.Machine
end
